-- ==== Sys2Proof/Word.lean ====
section
/-! DEFINITION. The word types of HUFB and the record of one node-store entry (spec/10_state.md R32, R51). -/

namespace Sys2Proof

/-- A byte of HBUF, PBUF or the accumulator (10_state.md R46, R56, R57). -/
abbrev Byte := BitVec 8

/-- A register or a host bus word (10_state.md R32, 20_memory.md R83). -/
abbrev Word := BitVec 32

/-- One entry of the node store (10_state.md R51). Symbols, weights and handles are unsigned integers that the
spec compares, adds and indexes with (41_tree_builder.md R172); their widths SYM_W, NW and 16 depend on the
configuration and are kept by the invariant of `Safety.lean` (log entry 9). `left` and `right` are meaningful only
when `leaf` is false. -/
structure Node where
  leaf   : Bool
  minsym : Nat
  weight : Nat
  left   : Nat
  right  : Nat
deriving DecidableEq, Repr, Inhabited

end Sys2Proof
end

