-- ==== Sys2Proof/Syntax.lean ====
section
/-! DEFINITION. The commands of HUFB command set v1: one constructor per row of spec/opcode_table.json
(spec/30_encoding.md R118). -/

namespace Sys2Proof

/-- A command, with its operand fields at the widths of its format (30_encoding.md R112 to R116). -/
inductive Instr where
  | nop
  | softReset
  | tbClear
  | tbInsert (sym : BitVec 24)
  | tbMerge
  | tbBuild
  | tbPeek
  | tbReadNode (handle : BitVec 16)
  | serEmit
  | serParse
  | pkClear
  | pkBits (n : BitVec 5) (data : BitVec 16)
  | pkFlush
  | pkDrain
  | pkUnpack (last : Bool) (pad : Byte) (byte : Byte)
deriving DecidableEq, Repr

/-- The mnemonic of a command, as spec/opcode_table.json spells it. -/
def Instr.mnemonic : Instr → String
  | .nop => "NOP"
  | .softReset => "SOFT_RESET"
  | .tbClear => "TB_CLEAR"
  | .tbInsert _ => "TB_INSERT"
  | .tbMerge => "TB_MERGE"
  | .tbBuild => "TB_BUILD"
  | .tbPeek => "TB_PEEK"
  | .tbReadNode _ => "TB_READ_NODE"
  | .serEmit => "SER_EMIT"
  | .serParse => "SER_PARSE"
  | .pkClear => "PK_CLEAR"
  | .pkBits _ _ => "PK_BITS"
  | .pkFlush => "PK_FLUSH"
  | .pkDrain => "PK_DRAIN"
  | .pkUnpack _ _ _ => "PK_UNPACK"

end Sys2Proof
end

