-- ==== Sys2Proof/Decode.lean ====
section
/-! DEFINITION. Decoding a command word and encoding a command (spec/30_encoding.md R110 to R118, R124). -/

namespace Sys2Proof

/-- Why a word is no command (30_encoding.md R124). Either way the engine completes it with ILLEGAL_COMMAND. -/
inductive DecodeReject where
  /-- Bits [31:24] are no OPC of R118. -/
  | unassignedOpcode
  /-- The OPC is assigned and a reserved bit of its format is not zero. -/
  | reservedBits
deriving DecidableEq, Repr

/-! The fields of the formats (30_encoding.md R111, R113 to R116). -/

def fieldOpc (w : Word) : Byte := w.extractLsb' 24 8
def fieldSym (w : Word) : BitVec 24 := w.extractLsb' 0 24
def fieldHandle (w : Word) : BitVec 16 := w.extractLsb' 0 16
def fieldN (w : Word) : BitVec 5 := w.extractLsb' 16 5
def fieldData (w : Word) : BitVec 16 := w.extractLsb' 0 16
def fieldLast (w : Word) : Bool := w.getLsbD 16
def fieldPad (w : Word) : Byte := w.extractLsb' 8 8
def fieldByte (w : Word) : Byte := w.extractLsb' 0 8

/-- A row of the opcode map: its match, its mask, and the command that a matching word is. -/
structure OpcodeRow where
  mnemonic : String
  pattern  : Word
  mask     : Word
  command  : Word → Instr

/-- The opcode map, row by row (30_encoding.md R118). -/
def opcodeMap : List OpcodeRow :=
  [ ⟨"NOP",          0x00000000#32, 0xFFFFFFFF#32, fun _ => .nop⟩,
    ⟨"SOFT_RESET",   0x01000000#32, 0xFFFFFFFF#32, fun _ => .softReset⟩,
    ⟨"TB_CLEAR",     0x10000000#32, 0xFFFFFFFF#32, fun _ => .tbClear⟩,
    ⟨"TB_INSERT",    0x11000000#32, 0xFF000000#32, fun w => .tbInsert (fieldSym w)⟩,
    ⟨"TB_MERGE",     0x12000000#32, 0xFFFFFFFF#32, fun _ => .tbMerge⟩,
    ⟨"TB_BUILD",     0x13000000#32, 0xFFFFFFFF#32, fun _ => .tbBuild⟩,
    ⟨"TB_PEEK",      0x14000000#32, 0xFFFFFFFF#32, fun _ => .tbPeek⟩,
    ⟨"TB_READ_NODE", 0x15000000#32, 0xFFFF0000#32, fun w => .tbReadNode (fieldHandle w)⟩,
    ⟨"SER_EMIT",     0x20000000#32, 0xFFFFFFFF#32, fun _ => .serEmit⟩,
    ⟨"SER_PARSE",    0x21000000#32, 0xFFFFFFFF#32, fun _ => .serParse⟩,
    ⟨"PK_CLEAR",     0x30000000#32, 0xFFFFFFFF#32, fun _ => .pkClear⟩,
    ⟨"PK_BITS",      0x31000000#32, 0xFFE00000#32, fun w => .pkBits (fieldN w) (fieldData w)⟩,
    ⟨"PK_FLUSH",     0x32000000#32, 0xFFFFFFFF#32, fun _ => .pkFlush⟩,
    ⟨"PK_DRAIN",     0x33000000#32, 0xFFFFFFFF#32, fun _ => .pkDrain⟩,
    ⟨"PK_UNPACK",    0x34000000#32, 0xFFFE0000#32,
      fun w => .pkUnpack (fieldLast w) (fieldPad w) (fieldByte w)⟩ ]

/-- `(w & mask(X)) == match(X)` (30_encoding.md R117). -/
def OpcodeRow.hits (r : OpcodeRow) (w : Word) : Bool := (w &&& r.mask) == r.pattern

/-- Decoding, total on every 32-bit word (30_encoding.md R117, R124). -/
def decodeWord (w : Word) : Except DecodeReject Instr :=
  match opcodeMap.find? (fun r => r.hits w) with
  | some r => .ok (r.command w)
  | none =>
    if opcodeMap.any (fun r => fieldOpc r.pattern == fieldOpc w) then .error .reservedBits
    else .error .unassignedOpcode

/-- The command word of a command: OPC, then its format's fields, reserved bits zero (30_encoding.md R112 to R116,
R127). -/
def encode : Instr → Word
  | .nop => 0x00#8 ++ 0#24
  | .softReset => 0x01#8 ++ 0#24
  | .tbClear => 0x10#8 ++ 0#24
  | .tbInsert sym => 0x11#8 ++ sym
  | .tbMerge => 0x12#8 ++ 0#24
  | .tbBuild => 0x13#8 ++ 0#24
  | .tbPeek => 0x14#8 ++ 0#24
  | .tbReadNode handle => 0x15#8 ++ 0#8 ++ handle
  | .serEmit => 0x20#8 ++ 0#24
  | .serParse => 0x21#8 ++ 0#24
  | .pkClear => 0x30#8 ++ 0#24
  | .pkBits n data => 0x31#8 ++ 0#3 ++ n ++ data
  | .pkFlush => 0x32#8 ++ 0#24
  | .pkDrain => 0x33#8 ++ 0#24
  | .pkUnpack last pad byte => 0x34#8 ++ 0#7 ++ BitVec.ofBool last ++ pad ++ byte

/-- What the decoder reads from an instruction whose bits, numbered as spec/opcode_table.json numbers them, are `w`:
a command is one 32-bit word, bit 0 its least significant bit (30_encoding.md R110). -/
def decodeTableWord (nbits w : Nat) : Option Instr :=
  (decodeWord (BitVec.ofNat 32 (w % 2 ^ nbits))).toOption

end Sys2Proof
end

