-- ==== Sys2Proof/Config.lean ====
section
/-! DEFINITION. The parameters of HUFB (spec/00_scope.md R6, R7; 20_memory.md R81) and the free values, whose
choice the spec leaves open. -/

namespace Sys2Proof

/-- The configuration record (00_scope.md R6, R7) with the place of the register space in the host's address map
(20_memory.md R81). -/
structure Config where
  symW      : Nat
  lw        : Nat
  maxLeaves : Nat
  hbufSize  : Nat
  pbufSize  : Nat
  hufbBase  : Nat
deriving DecidableEq, Repr

namespace Config

/-- The reference configuration (00_scope.md R6). The spec gives HUFB_BASE no reference value; 0 is a DESIGN
CHOICE (log entry 2). -/
def reference : Config :=
  { symW := 8, lw := 32, maxLeaves := 256, hbufSize := 1024, pbufSize := 1024, hufbBase := 0 }

/-- `SB = ceil(SYM_W / 8)`, the bytes of a symbol in a header token (00_scope.md R6). -/
def sb (c : Config) : Nat := (c.symW + 7) / 8

/-- `NODE_CAP` (00_scope.md R6). -/
def nodeCap (c : Config) : Nat := 2 * c.maxLeaves - 1

/-- `HEAP_CAP` (00_scope.md R6). -/
def heapCap (c : Config) : Nat := c.maxLeaves

/-- `ceil(log2 n)` for `n >= 1`. -/
def ceilLog2 (n : Nat) : Nat := if n ≤ 1 then 0 else Nat.log2 (n - 1) + 1

/-- `NW = LW + ceil(log2(MAX_LEAVES))`, the width of a node weight (00_scope.md R6). -/
def nw (c : Config) : Nat := c.lw + ceilLog2 c.maxLeaves

/-- The legal ranges of the table of 00_scope.md R6. -/
abbrev Legal (c : Config) : Prop :=
  (1 ≤ c.symW ∧ c.symW ≤ 24) ∧ (1 ≤ c.lw ∧ c.lw ≤ 32)
  ∧ (2 ≤ c.maxLeaves ∧ c.maxLeaves ≤ min (2 ^ c.symW) 32768)
  ∧ (c.maxLeaves * (2 + c.sb) - 1 ≤ c.hbufSize ∧ c.hbufSize ≤ 4096)
  ∧ (2 ≤ c.pbufSize ∧ c.pbufSize ≤ 4096)

/-! The free values. Each is a constant without a body: nothing can be proved about its value. -/

/-- Draw number `n` of an unspecified byte: a buffer byte that nothing has written (10_state.md R61; log entries 4
and 5). -/
opaque freeByte : Nat → Byte

/-- Draw number `n` of an unspecified word: a read that 20_memory.md R98 (b) leaves unspecified (log entries 4
and 6). -/
opaque freeWord : Nat → Word

/-- The unspecified contents of NODE[h] for h at or above NODE_COUNT (10_state.md R52; log entry 7). -/
opaque freeNode : Nat → Node

/-- The unspecified contents of HEAP[i] for i at or above HEAP_COUNT (10_state.md R53; log entry 7). -/
opaque freeSlot : Nat → Nat

end Config
end Sys2Proof
end

