-- ==== Sys2Proof/Machine/State.lean ====
section
/-! DEFINITION. The state of HUFB as plain data (spec/10_state.md R30 to R61), with the host's side of the bus, and
the state after reset. INVENTORY.md lists every field with its rule. -/

namespace Sys2Proof.Machine

/-- Why the machine stops without a next state. -/
inductive Fault where
  /-- Raised by SER_EMIT when the traversal of 42_serializer.md R191 does not end: the node store holds a cycle or a
  chain longer than the handles allow. No run reaches such a store (00_scope.md R17). SAFE: the model stops. (Log
  entry 8.) -/
  | traversalNeverEnds
deriving DecidableEq, Repr

/-- Why a step has no meaning. -/
inductive Refusal where
  /-- Raised by a `Dispatch.lean` arm of a command that has no meaning yet; no arm is left. SAFE. -/
  | notModelled (mnemonic : String)
  /-- Raised by a host access that is not 4 bytes wide: outside the interface (20_memory.md R86). SAFE. -/
  | accessSize
  /-- Raised by a host access at an offset that is no multiple of 4: outside the interface (20_memory.md R86).
  SAFE. -/
  | misaligned
  /-- Raised by a host access to an address outside the 16 KiB register space: it does not address HUFB (20_memory.md
  R81; log entry 12). SAFE. -/
  | outsideRegisterSpace
deriving DecidableEq, Repr

/-- The error codes of 60_exceptions.md R250; codes 10 to 15 are reserved and never occur. -/
inductive ErrorCode where
  | noError
  | emptyAlphabet
  | unknownSymbol
  | truncatedStream
  | corruptHeader
  | malformedContainer
  | illegalCommand
  | duplicateSymbol
  | capacity
  | badState
deriving DecidableEq, Repr

/-- TB_STATE.PHASE (10_state.md R42). -/
inductive Phase where
  | empty
  | loading
  | built
deriving DecidableEq, Repr

/-- STATUS (10_state.md R37). STATUS.ERR is computed from ERRCODE. -/
structure Status where
  busy : Bool
  done : Bool
  ovr  : Bool
  err  : ErrorCode
deriving DecidableEq, Repr

/-- RESULT0 to RESULT4 (10_state.md R41). -/
structure Results where
  r0 : Word
  r1 : Word
  r2 : Word
  r3 : Word
  r4 : Word
deriving DecidableEq, Repr

/-- The tree builder: PHASE, LEAF_COUNT, ROOT, NODE, HEAP and SEEN (10_state.md R42 to R44, R51 to R55).
NODE_COUNT is the length of `nodes` and HEAP_COUNT the length of `heap`; `root` is none when ROOT.VALID = 0; `seen`
lists, strictly rising, the symbols whose SEEN bit is 1. -/
structure TreeBuilder where
  phase     : Phase
  leafCount : Nat
  root      : Option Nat
  nodes     : List Node
  heap      : List Nat
  seen      : List Nat
deriving DecidableEq, Repr

/-- The bit packer's registers: K, ACC, CLOSED, PK_NBYTES and PK_PAD (10_state.md R46 to R49). -/
structure Packer where
  k      : BitVec 3
  acc    : Byte
  closed : Bool
  nbytes : Nat
  pad    : BitVec 3
deriving DecidableEq, Repr

/-- A byte buffer: (byte number, byte) pairs in the canonical form `Memory.wf` of `Ops.lean` (10_state.md R56,
R57). -/
abbrev Memory := List Host.Cell

/-- An operation of the host program (30_encoding.md R126). `addr` is a host address, `size` a number of bytes. -/
inductive HostOp where
  | read (addr : Nat) (size : Nat)
  | write (addr : Nat) (size : Nat) (value : Word)
  | poll
deriving DecidableEq, Repr

/-- Whose turn it is (20_memory.md R95; 70_reset_and_hazards.md R280; log entry 3). -/
inductive Turn where
  | engine
  | host
  | reset
deriving DecidableEq, Repr

/-- The machine. `cfg` is the configuration, which nothing changes (log entry 1); `ie` to `lcmd` are the
state of HUFB (10_state.md R30); `prog`, `sched`, `reads` and `draws` are the model's own: the host operations still
to be performed, the turns still to be taken, the values the host has read (newest first), and the number of free
values drawn (log entries 3, 4, 15, 17). -/
structure State where
  cfg    : Config
  ie     : Bool
  status : Status
  cmd    : Word
  wdata  : Word
  result : Results
  tb     : TreeBuilder
  hdrLen : Word
  pk     : Packer
  hbuf   : Memory
  pbuf   : Memory
  lcmd   : Word
  prog   : List HostOp
  sched  : List Turn
  reads  : List Word
  draws  : Nat
deriving DecidableEq, Repr

/-- The tree builder after reset and after tb_clear (10_state.md R60; 41_tree_builder.md R158). -/
def TreeBuilder.cleared : TreeBuilder :=
  { phase := .empty, leafCount := 0, root := none, nodes := [], heap := [], seen := [] }

/-- The packer after reset and after pk_clear (10_state.md R60; 43_bit_packer.md R220). -/
def Packer.cleared : Packer :=
  { k := 0#3, acc := 0#8, closed := false, nbytes := 0, pad := 0#3 }

/-- STATUS after reset (10_state.md R60). -/
def Status.cleared : Status :=
  { busy := false, done := false, ovr := false, err := .noError }

/-- RESULT0 to RESULT4 after reset (10_state.md R60). -/
def Results.cleared : Results :=
  { r0 := 0#32, r1 := 0#32, r2 := 0#32, r3 := 0#32, r4 := 0#32 }

/-- Power-up and reset in configuration `c`: the values of 10_state.md R60, with no buffer byte written since
power-up (R61), no host operation pending and no turn scheduled (log entries 5, 17). -/
def State.resetOf (c : Config) : State :=
  { cfg := c, ie := false, status := .cleared, cmd := 0#32, wdata := 0#32, result := .cleared,
    tb := .cleared, hdrLen := 0#32, pk := .cleared, hbuf := [], pbuf := [], lcmd := 0#32,
    prog := [], sched := [], reads := [], draws := 0 }

/-- The machine right after reset, in the reference configuration (00_scope.md R6; log entry 1). -/
def State.reset : State := State.resetOf Config.reference

end Sys2Proof.Machine
end

