-- ==== Sys2Proof/Machine/Ops.lean ====
section
/-! DEFINITION. The named operations over the buffers, the result registers and STATUS that the commands share:
byte reads and writes, the completion of a command, raising an error (HUFB's only exception) and its
acknowledgement, acceptance, and the reset of the registers. -/

namespace Sys2Proof.Machine

/-! ### Byte buffers -/

/-- What a byte that is not listed holds: no value, because nothing has written it since power-up (10_state.md R61;
log entry 5). -/
def Memory.unlisted : Option Byte := none

/-- The canonical form: addresses strictly rising, and no entry equal to what an unlisted address holds. -/
abbrev Memory.wf (m : Memory) : Prop :=
  m.Pairwise (fun c d => c.1 < d.1) ∧ ∀ c ∈ m, some c.2 ≠ Memory.unlisted

/-- The byte at `a`, or what an unlisted byte holds. -/
def Memory.read : Memory → Nat → Option Byte
  | [], _ => Memory.unlisted
  | (x, v) :: m, a => if a = x then some v else Memory.read m a

/-- Store one byte, keeping the canonical form. -/
def Memory.write : Memory → Nat → Byte → Memory
  | [], a, b => [(a, b)]
  | (x, v) :: m, a, b =>
    if a < x then (a, b) :: (x, v) :: m
    else if a = x then (a, b) :: m
    else (x, v) :: Memory.write m a b

/-- Store a byte at `a` if the buffer of `size` bytes has it (20_memory.md R87: "bytes at or above HBUF_SIZE are
ignored"). -/
def Memory.writeBelow (size : Nat) (m : Memory) (a : Nat) (b : Byte) : Memory :=
  if a < size then Memory.write m a b else m

/-- Store bytes at `a`, `a + 1`, …, within the buffer. -/
def Memory.writeBytes (size : Nat) (m : Memory) (a : Nat) : List Byte → Memory
  | [] => m
  | b :: bs => Memory.writeBytes size (Memory.writeBelow size m a b) (a + 1) bs

/-- The bytes `a` to `a + n - 1` become unspecified, as if nothing had written them (70_reset_and_hazards.md R281;
log entry 13). -/
def Memory.forget (m : Memory) (a n : Nat) : Memory :=
  m.filter (fun c => !(decide (a ≤ c.1) && decide (c.1 < a + n)))

/-- The byte at `a` as an engine or host read sees it: a byte that nothing has written is draw number `draw`
(10_state.md R61). -/
def byteOrDraw (m : Memory) (a draw : Nat) : Byte :=
  (Memory.read m a).getD (Config.freeByte draw)

/-! ### Completion, errors and acceptance -/

/-- Completion with code `c` (40_control.md R142). -/
def complete (c : ErrorCode) (s : State) : State :=
  { s with status := { s.status with busy := false, done := true, err := c } }

/-- `raise E`: HUFB's only exception. It saves nothing, changes no mode and transfers no control
(60_exceptions.md R259); the command's own writes are not made and its completion records `e` (00_scope.md R12). -/
def raiseError (e : ErrorCode) (s : State) : State := complete e s

/-- The end of a command whose body answered `r` from state `s` (40_control.md R141): the body's writes and code 0,
or none of them and the code it raised. -/
def finish (s : State) (r : Except ErrorCode State) : State :=
  match r with
  | .ok t => complete .noError t
  | .error e => raiseError e s

/-- The host's acknowledgement of a completion, HUFB's only return: the write-1-to-clear of DONE and OVR
(10_state.md R38; 60_exceptions.md R260). -/
def acknowledge (v : Word) (s : State) : State :=
  { s with status :=
      { s.status with
        done := s.status.done && !v.getLsbD 1
        ovr := s.status.ovr && !v.getLsbD 3 } }

/-- Acceptance of command word `w` (40_control.md R140). -/
def acceptCommand (w : Word) (s : State) : State :=
  { s with lcmd := w, cmd := w, status := { s.status with busy := true, done := false } }

/-- A host write dropped because BUSY = 1 (20_memory.md R98 (a); 40_control.md R143). -/
def dropWrite (s : State) : State :=
  { s with status := { s.status with ovr := true } }

/-! ### Field updates the commands share -/

def setTree (tb : TreeBuilder) (s : State) : State := { s with tb := tb }
def setPacker (pk : Packer) (s : State) : State := { s with pk := pk }
def setResults (r : Results) (s : State) : State := { s with result := r }

/-- `RESULT0 <- w`, the other results kept (10_state.md R41). -/
def setResult0 (w : Word) (s : State) : State := { s with result := { s.result with r0 := w } }

/-- `RESULT0 <- w0; RESULT1 <- w1`, the other results kept (10_state.md R41). -/
def setResult01 (w0 w1 : Word) (s : State) : State :=
  { s with result := { s.result with r0 := w0, r1 := w1 } }

/-! ### Reset -/

/-- Every register and storage to its reset value (10_state.md R60), the buffer contents unchanged (R61). The
configuration and the host's side are no state of HUFB and stay. -/
def resetRegisters (s : State) : State :=
  { State.resetOf s.cfg with
    hbuf := s.hbuf, pbuf := s.pbuf, prog := s.prog, sched := s.sched, reads := s.reads, draws := s.draws }

end Sys2Proof.Machine
end

