-- ==== Sys2Proof/Machine/Operands.lean ====
section
/-! DEFINITION. Operands: the operand checks of the formats and the implicit operands read from registers and HBUF
(spec/30_encoding.md R119 to R123). -/

namespace Sys2Proof.Machine

/-- Format S: `s < 2^SYM_W` (30_encoding.md R119). -/
def symInRange (c : Config) (sym : BitVec 24) : Bool := decide (sym.toNat < 2 ^ c.symW)

/-- Format B: n in 1 to 16 and no data bit at or above n (30_encoding.md R121). -/
def bitsLegal (n : BitVec 5) (data : BitVec 16) : Bool :=
  !(decide (n.toNat = 0) || decide (16 < n.toNat) || decide (data.toNat >>> n.toNat ≠ 0))

/-- Format U: the error of the PAD and LAST fields, if any (30_encoding.md R122; 43_bit_packer.md R228). -/
def unpackError (last : Bool) (pad : Byte) : Option ErrorCode :=
  if !last && pad != 0#8 then some .illegalCommand
  else if last && decide (8 ≤ pad.toNat) then some .malformedContainer
  else none

/-- The implicit leaf weight `zext_NW(WDATA[LW-1:0])` of TB_INSERT (30_encoding.md R123). -/
def implicitWeight (s : State) : Nat := s.wdata.toNat % 2 ^ s.cfg.lw

/-- The implicit header of SER_PARSE: the first `len` bytes of HBUF, a byte that nothing has written being a draw
(30_encoding.md R123; 10_state.md R61; log entry 16). -/
def implicitHeader (s : State) (len : Nat) : List Byte :=
  (List.range len).map (fun j => byteOrDraw s.hbuf j (s.draws + j))

/-- `bytes_be(v, k)`: the k bytes of v, most significant first (42_serializer.md R191). -/
def bytesBE (v : Nat) : Nat → List Byte
  | 0 => []
  | k + 1 => BitVec.ofNat 8 (v >>> (8 * k)) :: bytesBE v k

/-- `value_be`: the value of bytes, most significant first (42_serializer.md R194). -/
def valueBE (bs : List Byte) : Nat := bs.foldl (fun v b => v * 256 + b.toNat) 0

end Sys2Proof.Machine
end

