-- ==== Sys2Proof/Machine/BitPacker.lean ====
section
/-! DEFINITION. The bit packer: the shift-and-mask engine and the commands PK_CLEAR, PK_BITS, PK_FLUSH, PK_DRAIN and
PK_UNPACK (spec/43_bit_packer.md). -/

namespace Sys2Proof.Machine

/-- `total = K + n` (43_bit_packer.md R222). -/
def pkTotal (pk : Packer) (n : BitVec 5) : Nat := pk.k.toNat + n.toNat

/-- `nb = total div 8`, the full bytes that a PK_BITS produces (43_bit_packer.md R222). -/
def pkFullBytes (pk : Packer) (n : BitVec 5) : Nat := pkTotal pk n / 8

/-- `v = {ACC[7:8-K], d[n-1:0]}`, the waiting bits and then the new ones (43_bit_packer.md R222). -/
def pkValue (pk : Packer) (n : BitVec 5) (data : BitVec 16) : Nat :=
  ((pk.acc.toNat >>> (8 - pk.k.toNat)) <<< n.toNat) ||| (data.toNat % 2 ^ n.toNat)

/-- Full byte `j`: `(v >> (total - 8 - 8j)) & 0xFF` (43_bit_packer.md R233). -/
def pkByte (v total j : Nat) : Byte := BitVec.ofNat 8 ((v >>> (total - 8 - 8 * j)) &&& 0xFF)

/-- The full bytes of a PK_BITS, first to last (43_bit_packer.md R222). -/
def pkBytes (pk : Packer) (n : BitVec 5) (data : BitVec 16) : List Byte :=
  (List.range (pkFullBytes pk n)).map (pkByte (pkValue pk n data) (pkTotal pk n))

/-- The accumulator with the last `r` bits of `v`: `((v & (2^r - 1)) << (8 - r)) & 0xFF`, 0 when r = 0
(43_bit_packer.md R222, R233). -/
def pkRest (v r : Nat) : Byte :=
  if r = 0 then 0#8 else BitVec.ofNat 8 (((v &&& (2 ^ r - 1)) <<< (8 - r)) &&& 0xFF)

/-- PK_BITS' writes, after its checks (43_bit_packer.md R222). -/
def pushBits (n : BitVec 5) (data : BitVec 16) (s : State) : State :=
  { s with
    pbuf := Memory.writeBytes s.cfg.pbufSize s.pbuf s.pk.nbytes (pkBytes s.pk n data)
    pk :=
      { s.pk with
        nbytes := s.pk.nbytes + pkFullBytes s.pk n
        k := BitVec.ofNat 3 (pkTotal s.pk n % 8)
        acc := pkRest (pkValue s.pk n data) (pkTotal s.pk n % 8) } }

/-- PK_PAD of a flush with K waiting bits: `(8 - K) mod 8` (43_bit_packer.md R223). -/
def flushPad (k : BitVec 3) : BitVec 3 := BitVec.ofNat 3 (8 - k.toNat)

/-- PK_FLUSH's writes, after its checks (43_bit_packer.md R223). -/
def flushStream (s : State) : State :=
  setResult0 (0#29 ++ flushPad s.pk.k)
    { s with
      pbuf := if s.pk.k = 0#3 then s.pbuf else Memory.writeBelow s.cfg.pbufSize s.pbuf s.pk.nbytes s.pk.acc
      pk :=
        { k := 0#3, acc := 0#8, closed := true
          nbytes := if s.pk.k = 0#3 then s.pk.nbytes else s.pk.nbytes + 1
          pad := flushPad s.pk.k } }

/-- `cnt`, the bits that PK_UNPACK keeps (43_bit_packer.md R228). -/
def unpackCount (last : Bool) (pad : Byte) : Nat := 8 - (if last then pad.toNat else 0)

/-- The kept bits, right-aligned: `byte >> (8 - cnt)` (43_bit_packer.md R233). -/
def unpackBits (last : Bool) (pad byte : Byte) : Word :=
  BitVec.ofNat 32 (byte.toNat >>> (8 - unpackCount last pad))

/-! ### The commands -/

/-- PK_CLEAR (43_bit_packer.md R220). -/
def pkClearBody (s : State) : Except ErrorCode State := .ok (setPacker .cleared s)

/-- PK_BITS (43_bit_packer.md R222). -/
def pkBitsBody (n : BitVec 5) (data : BitVec 16) (s : State) : Except ErrorCode State :=
  if bitsLegal n data = false then .error .illegalCommand
  else if s.pk.closed then .error .badState
  else if s.cfg.pbufSize < s.pk.nbytes + pkFullBytes s.pk n then .error .capacity
  else .ok (pushBits n data s)

/-- PK_FLUSH (43_bit_packer.md R223). -/
def pkFlushBody (s : State) : Except ErrorCode State :=
  if s.pk.closed then .error .badState
  else if s.pk.k ≠ 0#3 ∧ s.pk.nbytes = s.cfg.pbufSize then .error .capacity
  else .ok (flushStream s)

/-- PK_DRAIN (43_bit_packer.md R225). -/
def pkDrainBody (s : State) : Except ErrorCode State := .ok (setPacker { s.pk with nbytes := 0 } s)

/-- PK_UNPACK (43_bit_packer.md R228, R230). -/
def pkUnpackBody (last : Bool) (pad byte : Byte) (s : State) : Except ErrorCode State :=
  match unpackError last pad with
  | some e => .error e
  | none => .ok (setResult01 (unpackBits last pad byte) (BitVec.ofNat 32 (unpackCount last pad)) s)

/-- PK_CLEAR, run by the engine (43_bit_packer.md R220). -/
def execPkClear (s : State) : Host.Outcome State Fault Refusal := .next (finish s (pkClearBody s))

/-- PK_BITS, run by the engine (43_bit_packer.md R222). -/
def execPkBits (n : BitVec 5) (data : BitVec 16) (s : State) : Host.Outcome State Fault Refusal :=
  .next (finish s (pkBitsBody n data s))

/-- PK_FLUSH, run by the engine (43_bit_packer.md R223). -/
def execPkFlush (s : State) : Host.Outcome State Fault Refusal := .next (finish s (pkFlushBody s))

/-- PK_DRAIN, run by the engine (43_bit_packer.md R225). -/
def execPkDrain (s : State) : Host.Outcome State Fault Refusal := .next (finish s (pkDrainBody s))

/-- PK_UNPACK, run by the engine (43_bit_packer.md R228). -/
def execPkUnpack (last : Bool) (pad byte : Byte) (s : State) : Host.Outcome State Fault Refusal :=
  .next (finish s (pkUnpackBody last pad byte s))

end Sys2Proof.Machine
end

