-- ==== Sys2Proof/Machine/Control.lean ====
section
/-! DEFINITION. The control commands NOP and SOFT_RESET, and the completion of a word that is no command
(spec/40_control.md R141, R144, R145). -/

namespace Sys2Proof.Machine

/-- SOFT_RESET: every register and storage to its reset value, CTRL kept (40_control.md R145). -/
def softResetBody (s : State) : Except ErrorCode State := .ok { resetRegisters s with ie := s.ie }

/-- NOP, run by the engine (40_control.md R144). -/
def execNop (s : State) : Host.Outcome State Fault Refusal := .next (finish s (.ok s))

/-- SOFT_RESET, run by the engine (40_control.md R145). -/
def execSoftReset (s : State) : Host.Outcome State Fault Refusal := .next (finish s (softResetBody s))

/-- A word that decodes to no command "runs no body and completes with ILLEGAL_COMMAND" (40_control.md R141). -/
def illegalWord (s : State) : Host.Outcome State Fault Refusal := .next (raiseError .illegalCommand s)

end Sys2Proof.Machine
end

