-- ==== Sys2Proof/Machine/TreeBuilder.lean ====
section
/-! DEFINITION. The tree builder: node store, min-heap, merge, and the commands TB_CLEAR, TB_INSERT, TB_MERGE,
TB_BUILD, TB_PEEK and TB_READ_NODE (spec/41_tree_builder.md). -/

namespace Sys2Proof.Machine

/-! ### Node store and results -/

/-- `NODE[h]`; an entry that is not allocated is unspecified (10_state.md R52; log entry 7). -/
def nodeAt (nodes : List Node) (h : Nat) : Node := (nodes[h]?).getD (Config.freeNode h)

/-- The result words of node `n` with handle `h`, `node_result(h)` (41_tree_builder.md R151). -/
def nodeWords (n : Node) (h : Nat) : Results :=
  { r0 := BitVec.ofBool n.leaf ++ 0#7 ++ BitVec.ofNat 24 n.minsym
    r1 := BitVec.ofNat 32 n.weight
    r2 := if n.leaf then 0#32 else BitVec.ofNat 16 n.right ++ BitVec.ofNat 16 n.left
    r3 := BitVec.ofNat 32 (n.weight >>> 32)
    r4 := BitVec.ofNat 32 h }

/-- `node_result(h)` over a node store (41_tree_builder.md R151). -/
def nodeResult (nodes : List Node) (h : Nat) : Results := nodeWords (nodeAt nodes h) h

/-! ### The heap -/

/-- `lt(key(a), key(b))`: by weight, then by the smallest symbol of the subtree, unsigned
(41_tree_builder.md R152). -/
def keyLt (a b : Node) : Bool :=
  decide (a.weight < b.weight) || (decide (a.weight = b.weight) && decide (a.minsym < b.minsym))

/-- `HEAP[i]`; a slot at or above HEAP_COUNT is unspecified (10_state.md R53; log entry 7). -/
def slotAt (heap : List Nat) (i : Nat) : Nat := (heap[i]?).getD (Config.freeSlot i)

/-- `lt(key(HEAP[i]), key(HEAP[j]))`. -/
def slotLt (nodes : List Node) (heap : List Nat) (i j : Nat) : Bool :=
  keyLt (nodeAt nodes (slotAt heap i)) (nodeAt nodes (slotAt heap j))

/-- `swap HEAP[i], HEAP[j]`. -/
def swapSlots (heap : List Nat) (i j : Nat) : List Nat :=
  (heap.set i (slotAt heap j)).set j (slotAt heap i)

/-- The loop of `heap_insert` from slot `i` (41_tree_builder.md R155), at most `fuel` rounds; `i` rounds are
enough, since `(i-1) div 2 < i`. -/
def siftUp (nodes : List Node) : Nat → List Nat → Nat → List Nat
  | 0, heap, _ => heap
  | fuel + 1, heap, i =>
    if 0 < i ∧ slotLt nodes heap i ((i - 1) / 2) then
      siftUp nodes fuel (swapSlots heap i ((i - 1) / 2)) ((i - 1) / 2)
    else heap

/-- `heap_insert(h)` (41_tree_builder.md R155). -/
def heapInsert (nodes : List Node) (heap : List Nat) (h : Nat) : List Nat :=
  siftUp nodes heap.length (heap ++ [h]) heap.length

/-- The slot `s` that one round of `heap_extract`'s loop chooses among `i` and its children
(41_tree_builder.md R156). -/
def smallestChild (nodes : List Node) (heap : List Nat) (i : Nat) : Nat :=
  let s := if 2 * i + 1 < heap.length ∧ slotLt nodes heap (2 * i + 1) i then 2 * i + 1 else i
  if 2 * i + 2 < heap.length ∧ slotLt nodes heap (2 * i + 2) s then 2 * i + 2 else s

/-- The loop of `heap_extract` from slot `i` (41_tree_builder.md R156), at most `fuel` rounds; HEAP_COUNT rounds
are enough, since `i` grows in each. -/
def siftDown (nodes : List Node) : Nat → List Nat → Nat → List Nat
  | 0, heap, _ => heap
  | fuel + 1, heap, i =>
    if smallestChild nodes heap i = i then heap
    else siftDown nodes fuel (swapSlots heap i (smallestChild nodes heap i)) (smallestChild nodes heap i)

/-- The heap that `heap_extract` leaves (41_tree_builder.md R156). -/
def heapRest (nodes : List Node) (heap : List Nat) : List Nat :=
  if 0 < heap.length - 1 then
    siftDown nodes (heap.length - 1)
      ((heap.set 0 (slotAt heap (heap.length - 1))).take (heap.length - 1)) 0
  else []

/-- `heap_extract()`: the minimum and the heap it leaves (41_tree_builder.md R156). -/
def heapExtract (nodes : List Node) (heap : List Nat) : Nat × List Nat :=
  (slotAt heap 0, heapRest nodes heap)

/-! ### Allocation, insertion and merge -/

/-- SEEN[s] <- 1, over the strictly rising list of the symbols seen (10_state.md R55). -/
def markSeen (sym : Nat) : List Nat → List Nat
  | [] => [sym]
  | x :: xs => if sym < x then sym :: x :: xs else if sym = x then x :: xs else x :: markSeen sym xs

/-- The leaf entry of TB_INSERT and of a leaf token (41_tree_builder.md R160; 42_serializer.md R194). -/
def leafNode (sym weight : Nat) : Node :=
  { leaf := true, minsym := sym, weight := weight, left := 0, right := 0 }

/-- The internal entry over the nodes `a` (left) and `b` (right), with the weight given
(41_tree_builder.md R157; 42_serializer.md R194). -/
def parentNode (nodes : List Node) (a b weight : Nat) : Node :=
  { leaf := false, minsym := min (nodeAt nodes a).minsym (nodeAt nodes b).minsym, weight := weight,
    left := a, right := b }

/-- The insertion of a leaf, after its checks (41_tree_builder.md R160, with `alloc` of R154): the new handle is the
old NODE_COUNT. -/
def insertLeaf (sym weight : Nat) (tb : TreeBuilder) : TreeBuilder :=
  { tb with
    phase := .loading
    leafCount := tb.leafCount + 1
    nodes := tb.nodes ++ [leafNode sym weight]
    heap := heapInsert (tb.nodes ++ [leafNode sym weight]) tb.heap tb.nodes.length
    seen := markSeen sym tb.seen }

/-- The weight of a merged node: the exact sum in an NW-bit field (41_tree_builder.md R157, R170; log entry 9). -/
def mergedWeight (c : Config) (nodes : List Node) (a b : Nat) : Nat :=
  ((nodeAt nodes a).weight + (nodeAt nodes b).weight) % 2 ^ c.nw

/-- `merge_step()` (41_tree_builder.md R157): the first-removed node is the left child, the second-removed the
right; the new handle is the old NODE_COUNT. -/
def mergeStep (c : Config) (tb : TreeBuilder) : TreeBuilder :=
  let first := heapExtract tb.nodes tb.heap
  let second := heapExtract tb.nodes first.2
  let nodes := tb.nodes ++ [parentNode tb.nodes first.1 second.1 (mergedWeight c tb.nodes first.1 second.1)]
  { tb with nodes := nodes, heap := heapInsert nodes second.2 tb.nodes.length }

/-- The loop of TB_BUILD (41_tree_builder.md R162), at most `fuel` rounds; each merge shortens the heap by one
(R165). -/
def mergeAll (c : Config) : Nat → TreeBuilder → TreeBuilder
  | 0, tb => tb
  | fuel + 1, tb => if 2 ≤ tb.heap.length then mergeAll c fuel (mergeStep c tb) else tb

/-- TB_BUILD's tree, after its checks (41_tree_builder.md R162). -/
def buildTree (c : Config) (tb : TreeBuilder) : TreeBuilder :=
  let m := mergeAll c tb.heap.length tb
  let last := heapExtract m.nodes m.heap
  { m with root := some last.1, heap := last.2, phase := .built }

/-! ### The commands -/

/-- TB_CLEAR (41_tree_builder.md R158, R159). -/
def tbClearBody (s : State) : Except ErrorCode State := .ok (setTree .cleared s)

/-- TB_INSERT (41_tree_builder.md R160). -/
def tbInsertBody (sym : BitVec 24) (s : State) : Except ErrorCode State :=
  if symInRange s.cfg sym = false then .error .illegalCommand
  else if s.tb.phase = .built then .error .badState
  else if sym.toNat ∈ s.tb.seen then .error .duplicateSymbol
  else if s.tb.leafCount = s.cfg.maxLeaves then .error .capacity
  else
    let tb := insertLeaf sym.toNat (implicitWeight s) s.tb
    .ok (setResults (nodeResult tb.nodes s.tb.nodes.length) (setTree tb s))

/-- TB_MERGE (41_tree_builder.md R161). -/
def tbMergeBody (s : State) : Except ErrorCode State :=
  if s.tb.phase ≠ .loading ∨ s.tb.heap.length < 2 then .error .badState
  else
    let tb := mergeStep s.cfg s.tb
    .ok (setResults (nodeResult tb.nodes s.tb.nodes.length) (setTree tb s))

/-- TB_BUILD (41_tree_builder.md R162 to R164). -/
def tbBuildBody (s : State) : Except ErrorCode State :=
  match s.tb.phase with
  | .built => .error .badState
  | .empty => .error .emptyAlphabet
  | .loading =>
    let tb := buildTree s.cfg s.tb
    .ok (setResults (nodeResult tb.nodes (tb.root.getD 0)) (setTree tb s))

/-- TB_PEEK (41_tree_builder.md R166). -/
def tbPeekBody (s : State) : Except ErrorCode State :=
  if s.tb.phase ≠ .loading then .error .badState
  else .ok (setResults (nodeResult s.tb.nodes (slotAt s.tb.heap 0)) s)

/-- TB_READ_NODE (41_tree_builder.md R167). -/
def tbReadNodeBody (handle : BitVec 16) (s : State) : Except ErrorCode State :=
  if s.tb.nodes.length ≤ handle.toNat then .error .badState
  else .ok (setResults (nodeResult s.tb.nodes handle.toNat) s)

/-- TB_CLEAR, run by the engine (41_tree_builder.md R159). -/
def execTbClear (s : State) : Host.Outcome State Fault Refusal := .next (finish s (tbClearBody s))

/-- TB_INSERT, run by the engine (41_tree_builder.md R160). -/
def execTbInsert (sym : BitVec 24) (s : State) : Host.Outcome State Fault Refusal :=
  .next (finish s (tbInsertBody sym s))

/-- TB_MERGE, run by the engine (41_tree_builder.md R161). -/
def execTbMerge (s : State) : Host.Outcome State Fault Refusal := .next (finish s (tbMergeBody s))

/-- TB_BUILD, run by the engine (41_tree_builder.md R162). -/
def execTbBuild (s : State) : Host.Outcome State Fault Refusal := .next (finish s (tbBuildBody s))

/-- TB_PEEK, run by the engine (41_tree_builder.md R166). -/
def execTbPeek (s : State) : Host.Outcome State Fault Refusal := .next (finish s (tbPeekBody s))

/-- TB_READ_NODE, run by the engine (41_tree_builder.md R167). -/
def execTbReadNode (handle : BitVec 16) (s : State) : Host.Outcome State Fault Refusal :=
  .next (finish s (tbReadNodeBody handle s))

end Sys2Proof.Machine
end

