-- ==== Sys2Proof/Machine/Serializer.lean ====
section
/-! DEFINITION. The tree serializer: the header of a tree, its parser, and the commands SER_EMIT and SER_PARSE
(spec/42_serializer.md). -/

namespace Sys2Proof.Machine

/-- M0, the marker of a leaf token (42_serializer.md R190). -/
def markerLeaf : Byte := 0x30#8

/-- M1, the marker of a merge token (42_serializer.md R190). -/
def markerMerge : Byte := 0x31#8

/-- `ser(h)`, the header of the subtree at handle `h` (42_serializer.md R191), with at most `depth` nodes on a path;
`none` when a path is longer. A child's handle is smaller than its parent's (00_scope.md R17), so `h + 1` is
always enough (log entry 8). -/
def serialize (sb : Nat) (nodes : List Node) : Nat → Nat → Option (List Byte)
  | 0, _ => none
  | depth + 1, h =>
    if (nodeAt nodes h).leaf then some (markerLeaf :: bytesBE (nodeAt nodes h).minsym sb)
    else
      match serialize sb nodes depth (nodeAt nodes h).left, serialize sb nodes depth (nodeAt nodes h).right with
      | some l, some r => some (l ++ r ++ [markerMerge])
      | _, _ => none

/-- The parser's working data: the node store, the stack (top first) and the leaves so far (42_serializer.md R194). -/
structure Parse where
  nodes  : List Node
  stack  : List Nat
  leaves : Nat
deriving DecidableEq, Repr

/-- One leaf token with payload `sym` (42_serializer.md R194): `alloc` a leaf of weight 0 and push it. -/
def pushLeaf (sym : Nat) (p : Parse) : Parse :=
  { nodes := p.nodes ++ [leafNode sym 0], stack := p.nodes.length :: p.stack, leaves := p.leaves + 1 }

/-- One merge token with right child `b` and left child `a`, the rest of the stack being `rest`
(42_serializer.md R194). -/
def pushParent (a b : Nat) (rest : List Nat) (p : Parse) : Parse :=
  { p with nodes := p.nodes ++ [parentNode p.nodes a b 0], stack := p.nodes.length :: rest }

/-- The scan of `parse(len)` over the bytes still to be read (42_serializer.md R194), at most `fuel` tokens; each
token is at least one byte, so the number of bytes is enough. `none` is `fail`. -/
def scanTokens (c : Config) : Nat → List Byte → Parse → Option Parse
  | _, [], p => some p
  | 0, _ :: _, _ => none
  | fuel + 1, t :: rest, p =>
    if t = markerLeaf then
      if rest.length < c.sb then none
      else if 2 ^ c.symW ≤ valueBE (rest.take c.sb) then none
      else if p.nodes.length = c.nodeCap then none
      else scanTokens c fuel (rest.drop c.sb) (pushLeaf (valueBE (rest.take c.sb)) p)
    else if t = markerMerge then
      match p.stack with
      | b :: a :: below =>
        if p.nodes.length = c.nodeCap then none
        else scanTokens c fuel rest (pushParent a b below p)
      | _ => none
    else none

/-- `parse(len)` over the header bytes (42_serializer.md R194): the tree builder that SER_PARSE leaves, or `none`
when the parse fails (R196). -/
def parseHeader (c : Config) (bytes : List Byte) : Option TreeBuilder :=
  match scanTokens c bytes.length bytes { nodes := [], stack := [], leaves := 0 } with
  | some ⟨nodes, [r], leaves⟩ =>
    some { phase := .built, leafCount := leaves, root := some r, nodes := nodes, heap := [], seen := [] }
  | _ => none

/-- The header bytes of the tree at ROOT (42_serializer.md R193). -/
def rootHeader (s : State) : Option (List Byte) :=
  serialize s.cfg.sb s.tb.nodes (s.tb.root.getD 0 + 1) (s.tb.root.getD 0)

/-- SER_EMIT's writes for header `t` (42_serializer.md R193): HBUF[0 .. len-1], HDR_LEN and RESULT0. -/
def emitHeader (t : List Byte) (s : State) : State :=
  setResult0 (BitVec.ofNat 32 t.length)
    { s with
      hbuf := Memory.writeBytes s.cfg.hbufSize s.hbuf 0 t
      hdrLen := BitVec.ofNat 32 t.length }

/-- SER_EMIT, run by the engine (42_serializer.md R193). The fault is for a node store that is no tree, which no run
reaches (log entry 8). -/
def execSerEmit (s : State) : Host.Outcome State Fault Refusal :=
  if s.tb.phase ≠ .built then .next (finish s (.error .badState))
  else
    match rootHeader s with
    | some t => .next (finish s (.ok (emitHeader t s)))
    | none => .fault .traversalNeverEnds

/-- The draws that SER_PARSE takes: one for each header byte (log entry 16). -/
def takeHeaderDraws (s : State) : State := { s with draws := s.draws + s.hdrLen.toNat }

/-- SER_PARSE, run by the engine (42_serializer.md R195): a failed parse leaves the builder cleared and is the one
error that changes more than STATUS (R197). -/
def execSerParse (s : State) : Host.Outcome State Fault Refusal :=
  if s.cfg.hbufSize < s.hdrLen.toNat then .next (finish s (.error .capacity))
  else
    match parseHeader s.cfg (implicitHeader s s.hdrLen.toNat) with
    | some tb =>
      .next (finish s (.ok (takeHeaderDraws (setResults (nodeResult tb.nodes (tb.root.getD 0)) (setTree tb s)))))
    | none => .next (raiseError .corruptHeader (takeHeaderDraws (setTree .cleared s)))

end Sys2Proof.Machine
end

