-- ==== Sys2Proof/Machine/Dispatch.lean ====
section
/-! DEFINITION. The meaning of each command: its body and its completion (spec/40_control.md R141, R142). -/

namespace Sys2Proof.Machine

def exec (i : Instr) (s : State) : Host.Outcome State Fault Refusal :=
  match i with
  | .nop => Sys2Proof.Machine.execNop s
  | .softReset => Sys2Proof.Machine.execSoftReset s
  | .tbClear => Sys2Proof.Machine.execTbClear s
  | .tbInsert sym => Sys2Proof.Machine.execTbInsert sym s
  | .tbMerge => Sys2Proof.Machine.execTbMerge s
  | .tbBuild => Sys2Proof.Machine.execTbBuild s
  | .tbPeek => Sys2Proof.Machine.execTbPeek s
  | .tbReadNode handle => Sys2Proof.Machine.execTbReadNode handle s
  | .serEmit => Sys2Proof.Machine.execSerEmit s
  | .serParse => Sys2Proof.Machine.execSerParse s
  | .pkClear => Sys2Proof.Machine.execPkClear s
  | .pkBits n data => Sys2Proof.Machine.execPkBits n data s
  | .pkFlush => Sys2Proof.Machine.execPkFlush s
  | .pkDrain => Sys2Proof.Machine.execPkDrain s
  | .pkUnpack last pad byte => Sys2Proof.Machine.execPkUnpack last pad byte s

end Sys2Proof.Machine
end

