-- ==== Sys2Proof/Machine/Flags.lean ====
section
/-! DEFINITION. The flags of HUFB as register words: error codes, STATUS, the phase fields and the interrupt line
(spec/10_state.md R37, R42, R44, R46, R59; 60_exceptions.md R250, R257). -/

namespace Sys2Proof.Machine

/-- The code of an error (60_exceptions.md R250). -/
def ErrorCode.code : ErrorCode → BitVec 4
  | .noError => 0#4
  | .emptyAlphabet => 1#4
  | .unknownSymbol => 2#4
  | .truncatedStream => 3#4
  | .corruptHeader => 4#4
  | .malformedContainer => 5#4
  | .illegalCommand => 6#4
  | .duplicateSymbol => 7#4
  | .capacity => 8#4
  | .badState => 9#4

/-- STATUS.ERR: "equal to (ERRCODE != 0) at every instant" (10_state.md R37). -/
def Status.errBit (st : Status) : Bool := st.err.code != 0#4

/-- The word a read of STATUS returns (10_state.md R37): [7:4] ERRCODE, [3] OVR, [2] ERR, [1] DONE, [0] BUSY. -/
def statusWord (st : Status) : Word :=
  0#24 ++ st.err.code ++ BitVec.ofBool st.ovr ++ BitVec.ofBool st.errBit ++ BitVec.ofBool st.done
    ++ BitVec.ofBool st.busy

/-- The number of a phase (10_state.md R42). -/
def Phase.code : Phase → BitVec 2
  | .empty => 0#2
  | .loading => 1#2
  | .built => 2#2

/-- The word a read of CTRL returns (10_state.md R36). -/
def ctrlWord (ie : Bool) : Word := 0#31 ++ BitVec.ofBool ie

/-- The word a read of TB_STATE returns (10_state.md R42). -/
def tbStateWord (p : Phase) : Word := 0#30 ++ p.code

/-- The word a read of ROOT returns (10_state.md R44): [31] VALID, [15:0] HANDLE. -/
def rootWord : Option Nat → Word
  | none => 0#32
  | some h => 1#1 ++ 0#15 ++ BitVec.ofNat 16 h

/-- The word a read of PK_STATE returns (10_state.md R46): [23:16] ACC, [8] CLOSED, [2:0] K. -/
def pkStateWord (pk : Packer) : Word :=
  0#8 ++ pk.acc ++ 0#7 ++ BitVec.ofBool pk.closed ++ 0#5 ++ pk.k

/-- The interrupt line: `IRQ = CTRL.IE & STATUS.DONE` (60_exceptions.md R257). -/
def irq (s : State) : Bool := s.ie && s.status.done

end Sys2Proof.Machine
end

