-- ==== Sys2Proof/Machine/HostBus.lean ====
section
/-! DEFINITION. The host's side: the register space, host reads and writes, the host program's operations, and the
reset input (spec/10_state.md R32 to R50; 20_memory.md R80 to R101; 30_encoding.md R126; 70_reset_and_hazards.md R280,
R281). -/

namespace Sys2Proof.Machine

/-- The registers (10_state.md R32). -/
inductive Reg where
  | id | params0 | params1 | ctrl | status | cmd | wdata
  | result0 | result1 | result2 | result3 | result4
  | tbState | heapCount | leafCount | nodeCount | root | hdrLen | pkState | pkNbytes | pkPad
deriving DecidableEq, Repr

/-- The registers in the order of their offsets, from 0x000 by 4 (10_state.md R32). -/
def regList : List Reg :=
  [.id, .params0, .params1, .ctrl, .status, .cmd, .wdata,
   .result0, .result1, .result2, .result3, .result4,
   .tbState, .heapCount, .leafCount, .nodeCount, .root, .hdrLen, .pkState, .pkNbytes, .pkPad]

/-- The byte offset of a register (10_state.md R32). -/
def Reg.offset : Reg → Nat
  | .id => 0x000
  | .params0 => 0x004
  | .params1 => 0x008
  | .ctrl => 0x00C
  | .status => 0x010
  | .cmd => 0x014
  | .wdata => 0x018
  | .result0 => 0x01C
  | .result1 => 0x020
  | .result2 => 0x024
  | .result3 => 0x028
  | .result4 => 0x02C
  | .tbState => 0x030
  | .heapCount => 0x034
  | .leafCount => 0x038
  | .nodeCount => 0x03C
  | .root => 0x040
  | .hdrLen => 0x044
  | .pkState => 0x048
  | .pkNbytes => 0x04C
  | .pkPad => 0x050

/-- What an offset of the register space names (20_memory.md R82). The windows carry the number of the word's first
buffer byte. -/
inductive Target where
  | reg (r : Reg)
  | reserved
  | hbufWindow (byte : Nat)
  | pbufWindow (byte : Nat)
  | unmapped
deriving DecidableEq, Repr

/-- The map of 20_memory.md R82, for an offset that is a multiple of 4. -/
def target (off : Nat) : Target :=
  if off < 0x1000 then
    match regList.find? (fun r => r.offset == off) with
    | some r => .reg r
    | none => .reserved
  else if off < 0x2000 then .hbufWindow (off - 0x1000)
  else if off < 0x3000 then .pbufWindow (off - 0x2000)
  else .unmapped

/-- The value of a register when BUSY = 0 (10_state.md R33 to R49). -/
def regWord (s : State) : Reg → Word
  | .id => 0x48554642#32
  | .params0 => BitVec.ofNat 16 s.cfg.maxLeaves ++ BitVec.ofNat 8 s.cfg.lw ++ BitVec.ofNat 8 s.cfg.symW
  | .params1 => BitVec.ofNat 16 s.cfg.pbufSize ++ BitVec.ofNat 16 s.cfg.hbufSize
  | .ctrl => ctrlWord s.ie
  | .status => statusWord s.status
  | .cmd => s.cmd
  | .wdata => s.wdata
  | .result0 => s.result.r0
  | .result1 => s.result.r1
  | .result2 => s.result.r2
  | .result3 => s.result.r3
  | .result4 => s.result.r4
  | .tbState => tbStateWord s.tb.phase
  | .heapCount => BitVec.ofNat 32 s.tb.heap.length
  | .leafCount => BitVec.ofNat 32 s.tb.leafCount
  | .nodeCount => BitVec.ofNat 32 s.tb.nodes.length
  | .root => rootWord s.tb.root
  | .hdrLen => s.hdrLen
  | .pkState => pkStateWord s.pk
  | .pkNbytes => BitVec.ofNat 32 s.pk.nbytes
  | .pkPad => 0#29 ++ s.pk.pad

/-- The registers whose read is unspecified while BUSY = 1 (20_memory.md R98 (b)). -/
def Reg.unspecifiedWhileBusy : Reg → Bool
  | .id => false
  | .params0 => false
  | .params1 => false
  | .ctrl => false
  | .status => false
  | .cmd => false
  | .wdata => false
  | .result0 => true
  | .result1 => true
  | .result2 => true
  | .result3 => true
  | .result4 => true
  | .tbState => true
  | .heapCount => true
  | .leafCount => true
  | .nodeCount => true
  | .root => true
  | .hdrLen => true
  | .pkState => true
  | .pkNbytes => true
  | .pkPad => true

/-- Byte `j` of a window: the buffer's byte, a draw where nothing has written it, 0 at or above the buffer's size
(20_memory.md R87, R88; 10_state.md R61). -/
def windowByte (size : Nat) (m : Memory) (j draw : Nat) : Byte :=
  if j < size then byteOrDraw m j draw else 0#8

/-- The window word whose first byte is byte `j`, big-endian (20_memory.md R85). -/
def windowWord (size : Nat) (m : Memory) (j draw : Nat) : Word :=
  windowByte size m j draw ++ windowByte size m (j + 1) (draw + 1)
    ++ windowByte size m (j + 2) (draw + 2) ++ windowByte size m (j + 3) (draw + 3)

/-- The value that `MemRead(off, 4)` returns (20_memory.md R83, R98). -/
def busValue (s : State) (off : Nat) : Word :=
  match target off with
  | .reg r => if s.status.busy && r.unspecifiedWhileBusy then Config.freeWord s.draws else regWord s r
  | .reserved => 0#32
  | .hbufWindow j =>
    if s.status.busy then Config.freeWord s.draws else windowWord s.cfg.hbufSize s.hbuf j s.draws
  | .pbufWindow j =>
    if s.status.busy then Config.freeWord s.draws else windowWord s.cfg.pbufSize s.pbuf j s.draws
  | .unmapped => 0#32

/-- `MemRead(off, 4)`: no state of HUFB changes (20_memory.md R89); the host has the value, and the draws the read may
have used are spent (log entries 4, 15). -/
def busRead (off : Nat) (s : State) : State :=
  { s with reads := busValue s off :: s.reads, draws := s.draws + 4 }

/-- The four bytes of a bus word, most significant first (20_memory.md R85). -/
def wordBytes (v : Word) : List Byte :=
  [v.extractLsb' 24 8, v.extractLsb' 16 8, v.extractLsb' 8 8, v.extractLsb' 0 8]

/-- The bits that WDATA holds: [LW-1:0] (10_state.md R40). -/
def wdataBits (c : Config) (v : Word) : Word := BitVec.ofNat 32 (v.toNat % 2 ^ c.lw)

/-- A host write that is dropped while BUSY = 1 (20_memory.md R98 (a)) and has the effect `f` otherwise. -/
def unlessBusy (f : State → State) (s : State) : State :=
  if s.status.busy then dropWrite s else f s

/-- A write of `v` to register `r` (20_memory.md R84): the writable registers are CTRL, STATUS, CMD, WDATA and HDR_LEN
(10_state.md R32). -/
def writeReg (r : Reg) (v : Word) (s : State) : State :=
  match r with
  | .id => s
  | .params0 => s
  | .params1 => s
  | .ctrl => { s with ie := v.getLsbD 0 }
  | .status => acknowledge v s
  | .cmd => unlessBusy (acceptCommand v) s
  | .wdata => unlessBusy (fun t => { t with wdata := wdataBits t.cfg v }) s
  | .result0 => s
  | .result1 => s
  | .result2 => s
  | .result3 => s
  | .result4 => s
  | .tbState => s
  | .heapCount => s
  | .leafCount => s
  | .nodeCount => s
  | .root => s
  | .hdrLen => unlessBusy (fun t => { t with hdrLen := v }) s
  | .pkState => s
  | .pkNbytes => s
  | .pkPad => s

/-- `MemWrite(off, 4, v)` (20_memory.md R84, R87, R88, R98). -/
def busWrite (off : Nat) (v : Word) (s : State) : State :=
  match target off with
  | .reg r => writeReg r v s
  | .reserved => s
  | .hbufWindow j =>
    unlessBusy (fun t => { t with hbuf := Memory.writeBytes t.cfg.hbufSize t.hbuf j (wordBytes v) }) s
  | .pbufWindow _ => s
  | .unmapped => s

/-- The offset of a host access, or why it has no meaning: only 32-bit words at multiples of 4 within the 16 KiB
register space at HUFB_BASE (20_memory.md R81, R86; log entry 12). -/
def accessOffset (c : Config) (addr size : Nat) : Except Refusal Nat :=
  if size ≠ 4 then .error .accessSize
  else if addr < c.hufbBase ∨ c.hufbBase + 0x4000 ≤ addr then .error .outsideRegisterSpace
  else if (addr - c.hufbBase) % 4 ≠ 0 then .error .misaligned
  else .ok (addr - c.hufbBase)

/-- The host's turn: the next operation of its program (30_encoding.md R126; 20_memory.md R92). POLL reads STATUS and
stays until BUSY = 0 (log entry 14); a host with no operation left does nothing. -/
def hostTurn (s : State) : Host.Outcome State Fault Refusal :=
  match s.prog with
  | [] => .next s
  | .read addr size :: rest =>
    match accessOffset s.cfg addr size with
    | .error r => .refused r
    | .ok off => .next (busRead off { s with prog := rest })
  | .write addr size v :: rest =>
    match accessOffset s.cfg addr size with
    | .error r => .refused r
    | .ok off => .next (busWrite off v { s with prog := rest })
  | .poll :: rest =>
    if s.status.busy then .next (busRead Reg.status.offset s)
    else .next (busRead Reg.status.offset { s with prog := rest })

/-! ### The reset input -/

/-- The buffer bytes that the latched command may have been writing become unspecified when reset abandons it
(70_reset_and_hazards.md R281): all of HBUF for SER_EMIT, three bytes of PBUF for PK_BITS and PK_FLUSH. -/
def abandonWrites (s : State) : State :=
  if s.status.busy then
    match decodeWord s.lcmd with
    | .ok .serEmit => { s with hbuf := Memory.forget s.hbuf 0 s.cfg.hbufSize }
    | .ok (.pkBits _ _) => { s with pbuf := Memory.forget s.pbuf s.pk.nbytes 3 }
    | .ok .pkFlush => { s with pbuf := Memory.forget s.pbuf s.pk.nbytes 3 }
    | _ => s
  else s

/-- The hardware reset (70_reset_and_hazards.md R280, R281): every register to its reset value, CTRL too. -/
def hardReset (s : State) : State := resetRegisters (abandonWrites s)

end Sys2Proof.Machine
end

