-- ==== Sys2Proof/Machine/Engine.lean ====
section
/-! DEFINITION. The engine's turn: it decodes LCMD and runs the command (spec/40_control.md R141). -/

namespace Sys2Proof.Machine

/-- "The engine has a step exactly when STATUS.BUSY = 1": it decodes LCMD and runs the command, or completes with
ILLEGAL_COMMAND (40_control.md R141). With BUSY = 0 its turn changes nothing. -/
def engineTurn (s : State) : Host.Outcome State Fault Refusal :=
  if s.status.busy then
    match decodeWord s.lcmd with
    | .ok i => exec i s
    | .error _ => illegalWord s
  else .next s

/-- Whose turn it is, and the turns after it: the head of `sched`; with none listed, the engine's while a command is
latched (weak fairness, 70_reset_and_hazards.md R291) and the host's otherwise (log entry 3). -/
def nextTurn (s : State) : Turn × List Turn :=
  match s.sched with
  | [] => (if s.status.busy then .engine else .host, [])
  | t :: rest => (t, rest)

/-- One turn of `t` from `s` (20_memory.md R95; 70_reset_and_hazards.md R280). -/
def takeTurn (t : Turn) (s : State) : Host.Outcome State Fault Refusal :=
  match t with
  | .engine => engineTurn s
  | .host => hostTurn s
  | .reset => .next (hardReset s)

end Sys2Proof.Machine
end

