-- ==== Sys2Proof/Machine/Step.lean ====
section
/-! DEFINITION. One step of the machine, and the placing of a command where the next step runs it
(spec/20_memory.md R92, R95; 40_control.md R140, R141). -/

namespace Sys2Proof.Machine

/-- One step: the next turn is taken. -/
def step (s : State) : Host.Outcome State Fault Refusal :=
  takeTurn (nextTurn s).1 { s with sched := (nextTurn s).2 }

/-- `s` with the command word `w` accepted (40_control.md R140) and the engine's turn next, so that the very next step
runs it: what a CMD write and the engine's turn do (log entry 11). -/
def State.withFetchWord (s : State) (nbits w : Nat) : State :=
  { acceptCommand (BitVec.ofNat 32 (w % 2 ^ nbits)) s with sched := .engine :: s.sched }

end Sys2Proof.Machine
end

