-- ==== Sys2Proof/Machine/Reference.lean ====
section
/-! DEFINITION. The software objects of HUF that the spec's laws compare HUFB with: labelled trees and their headers
(spec/00_scope.md R16; 42_serializer.md R191, R203), and pack and unpack over bitstrings (43_bit_packer.md R227, R229,
R232). No command uses them. -/

namespace Sys2Proof.Machine

/-- A labelled tree: "either a leaf (symbol set, no children) or internal (no symbol, exactly two children)", with
the weight of every node (00_scope.md R16, R18). -/
inductive HufTree where
  | leaf (sym weight : Nat)
  | node (weight : Nat) (left right : HufTree)
deriving DecidableEq, Repr

/-- The number of leaves. -/
def HufTree.leaves : HufTree → Nat
  | .leaf _ _ => 1
  | .node _ l r => l.leaves + r.leaves

/-- The symbols at the leaves, left to right. -/
def HufTree.symbols : HufTree → List Nat
  | .leaf s _ => [s]
  | .node _ l r => l.symbols ++ r.symbols

/-- The (symbol, weight) pairs at the leaves, left to right. -/
def HufTree.leafPairs : HufTree → List (Nat × Nat)
  | .leaf s w => [(s, w)]
  | .node _ l r => l.leafPairs ++ r.leafPairs

/-- The weight of a tree's root. -/
def HufTree.weight : HufTree → Nat
  | .leaf _ w => w
  | .node w _ _ => w

/-- Every internal weight is the sum of its children's (00_scope.md R18). -/
def HufTree.Exact : HufTree → Prop
  | .leaf _ _ => True
  | .node w l r => w = l.weight + r.weight ∧ l.Exact ∧ r.Exact

/-- The same shape and leaf symbols, every weight 0 (42_serializer.md R198, R203). -/
def HufTree.zeroWeights : HufTree → HufTree
  | .leaf s _ => .leaf s 0
  | .node _ l r => .node 0 l.zeroWeights r.zeroWeights

/-- The header of a labelled tree, post-order (42_serializer.md R190, R191, R201). -/
def HufTree.header (sb : Nat) : HufTree → List Byte
  | .leaf s _ => markerLeaf :: bytesBE s sb
  | .node _ l r => l.header sb ++ r.header sb ++ [markerMerge]

/-- The labelled tree at handle `h` of a node store, when no path is longer than `depth` nodes. -/
def treeAt (nodes : List Node) : Nat → Nat → Option HufTree
  | 0, _ => none
  | depth + 1, h =>
    if (nodeAt nodes h).leaf then some (.leaf (nodeAt nodes h).minsym (nodeAt nodes h).weight)
    else
      match treeAt nodes depth (nodeAt nodes h).left, treeAt nodes depth (nodeAt nodes h).right with
      | some l, some r => some (.node (nodeAt nodes h).weight l r)
      | _, _ => none

/-- The tree HUFB holds: the labelled tree at ROOT. -/
def builtTree (tb : TreeBuilder) : Option HufTree :=
  match tb.root with
  | some r => treeAt tb.nodes (r + 1) r
  | none => none

/-- The 8 bits of a byte, most significant first (43_bit_packer.md R221). -/
def byteBits (b : Byte) : List Bool := (List.range 8).map (fun i => b.getLsbD (7 - i))

/-- The byte of at most 8 bits, most significant first, padded on the right with 0 (43_bit_packer.md R221). -/
def bitsByte (bits : List Bool) : Byte :=
  BitVec.ofNat 8 ((List.range 8).foldl (fun v i => 2 * v + (bits.getD i false).toNat) 0)

/-- HUF's `pack`: groups of 8 bits, the last padded with 0 (43_bit_packer.md, quoting HUF §4.6). -/
def packBytes : Nat → List Bool → List Byte
  | 0, _ => []
  | fuel + 1, bits => if bits = [] then [] else bitsByte (bits.take 8) :: packBytes fuel (bits.drop 8)

/-- The bytes of HUF's `pack(b)`. -/
def hufPack (bits : List Bool) : List Byte := packBytes bits.length bits

/-- The padding count of HUF's `pack(b)`: `(8 - (B mod 8)) mod 8` (43_bit_packer.md R224). -/
def hufPad (bits : List Bool) : Nat := (8 - bits.length % 8) % 8

/-- HUF's `unpack(p, P)`: every byte's 8 bits, the last P bits dropped (43_bit_packer.md, quoting HUF §4.6). -/
def hufUnpack (bytes : List Byte) (padding : Nat) : List Bool :=
  (bytes.flatMap byteBits).take (8 * bytes.length - padding)

/-- The n bits of a PK_BITS chunk, first to last: `d[n-1]` first (43_bit_packer.md R221). -/
def chunkBits (n : BitVec 5) (data : BitVec 16) : List Bool :=
  (List.range n.toNat).map (fun i => data.getLsbD (n.toNat - 1 - i))

/-- The bits waiting in the accumulator, oldest first: `ACC[7:8-K]` (10_state.md R47). -/
def waitingBits (pk : Packer) : List Bool := (byteBits pk.acc).take pk.k.toNat

/-- The low `cnt` bits of a word, most significant first: how a host reads RESULT0 after PK_UNPACK
(43_bit_packer.md R228, R229). -/
def lowBits (cnt : Nat) (w : Word) : List Bool :=
  (List.range cnt).map (fun i => w.getLsbD (cnt - 1 - i))

/-- The packed bytes that a host copies before a drain or after a flush: PBUF[0 .. PK_NBYTES-1]
(70_reset_and_hazards.md R288). -/
def packedBytes (s : State) : List Byte := (List.range s.pk.nbytes).filterMap (Memory.read s.pbuf)

end Sys2Proof.Machine
end

