-- ==== Sys2Proof/WellFormed.lean ====
section
/-! DEFINITION. Which commands are legal command words of a configuration: the operand checks that do not depend
on the machine's state (spec/30_encoding.md R119, R121, R122). A command that fails one decodes all the same and
ends with the error its rule names (R117). -/

namespace Sys2Proof

/-- The operand ranges of 30_encoding.md R119 (SYM), R121 (N and DATA) and R122 (PAD and LAST). -/
def Instr.wellFormed (c : Config) : Instr → Bool
  | .nop => true
  | .softReset => true
  | .tbClear => true
  | .tbInsert sym => decide (sym.toNat < 2 ^ c.symW)
  | .tbMerge => true
  | .tbBuild => true
  | .tbPeek => true
  | .tbReadNode _ => true
  | .serEmit => true
  | .serParse => true
  | .pkClear => true
  | .pkBits n data => decide (1 ≤ n.toNat) && decide (n.toNat ≤ 16) && decide (data.toNat < 2 ^ n.toNat)
  | .pkFlush => true
  | .pkDrain => true
  | .pkUnpack last pad _ => if last then decide (pad.toNat < 8) else decide (pad = 0#8)

end Sys2Proof
end

