-- ==== Sys2Proof/Safety.lean ====
section
/-! DEFINITION. What the claims speak of: the invariant of the machine, the status that a completion leaves, whose turn
it is, the end of a run, and the runs of packer streams. -/

namespace Sys2Proof.Machine

/-- The handles that are children of some internal node of the store, in store order. -/
def childHandles (nodes : List Node) : List Nat :=
  nodes.flatMap (fun n => if n.leaf then [] else [n.left, n.right])

/-- The handles that are no node's child: the heap's, or the root of a built tree. -/
def TreeBuilder.roots (tb : TreeBuilder) : List Nat := tb.heap ++ tb.root.toList

/-- The min-heap property: "for every slot i with 0 < i < HEAP_COUNT, not lt(key(HEAP[i]), key(HEAP[(i-1) div 2]))"
(10_state.md R53). -/
def HeapOrdered (nodes : List Node) (heap : List Nat) : Prop :=
  ∀ i, 0 < i → i < heap.length → slotLt nodes heap i ((i - 1) / 2) = false

/-- `m` is the heap's unique minimum: "the entry no other entry is lt", and lt every other (41_tree_builder.md R152,
R153). -/
def IsHeapMin (nodes : List Node) (heap : List Nat) (m : Nat) : Prop :=
  m ∈ heap ∧ ∀ h ∈ heap, h ≠ m → keyLt (nodeAt nodes m) (nodeAt nodes h) = true

/-- The invariant of the tree builder. -/
structure TreeBuilder.Inv (c : Config) (tb : TreeBuilder) : Prop where
  /-- PHASE = EMPTY implies all counts 0 (10_state.md R42). -/
  empty : tb.phase = .empty → tb.heap = [] ∧ tb.leafCount = 0 ∧ tb.nodes = []
  /-- PHASE = LOADING implies HEAP_COUNT >= 1 (10_state.md R42). -/
  loading : tb.phase = .loading → 1 ≤ tb.heap.length
  /-- PHASE = BUILT implies HEAP_COUNT = 0 (10_state.md R42). -/
  built : tb.phase = .built → tb.heap = []
  /-- ROOT.VALID is 1 exactly when PHASE = BUILT (10_state.md R44). -/
  root : tb.root.isSome = true ↔ tb.phase = .built
  /-- The bounds of the counts (10_state.md R43). -/
  heapBound : tb.heap.length ≤ c.heapCap
  leafBound : tb.leafCount ≤ c.maxLeaves
  nodeBound : tb.nodes.length ≤ c.nodeCap
  /-- LEAF_COUNT is the number of leaves in the node store (10_state.md R43). -/
  leaves : tb.leafCount = tb.nodes.countP (fun n => n.leaf)
  /-- Strict tree: every handle is the child of exactly one node, or a root (00_scope.md R17). -/
  forest : (childHandles tb.nodes ++ tb.roots).Perm (List.range tb.nodes.length)
  /-- A child's handle is smaller than its parent's (00_scope.md R17). -/
  children : ∀ (h : Nat) (n : Node), tb.nodes[h]? = some n → n.leaf = false → n.left < h ∧ n.right < h
  /-- An internal node's MINSYM is the smaller of its children's (10_state.md R51) and its weight their exact sum
  (00_scope.md R18). -/
  parents : ∀ (h : Nat) (n : Node), tb.nodes[h]? = some n → n.leaf = false →
    n.minsym = min (nodeAt tb.nodes n.left).minsym (nodeAt tb.nodes n.right).minsym
    ∧ n.weight = (nodeAt tb.nodes n.left).weight + (nodeAt tb.nodes n.right).weight
  /-- A MINSYM has SYM_W bits and a WEIGHT NW bits (10_state.md R51). -/
  widths : ∀ n ∈ tb.nodes, n.minsym < 2 ^ c.symW ∧ n.weight < 2 ^ c.nw
  /-- The weights of the roots sum to at most LEAF_COUNT leaf weights of LW bits, which is why no sum wraps
  (41_tree_builder.md R170). -/
  weightSum : (tb.roots.map (fun h => (nodeAt tb.nodes h).weight)).sum ≤ tb.leafCount * (2 ^ c.lw - 1)
  /-- `seen` is in its canonical form and holds SYM_W-bit symbols (10_state.md R55). -/
  seenSorted : tb.seen.Pairwise (fun a b => a < b)
  seenWidth : ∀ s ∈ tb.seen, s < 2 ^ c.symW
  /-- Until a tree is built, SEEN[s] = 1 exactly when a leaf of symbol s is in the store (10_state.md R55). -/
  seenLeaves : tb.phase ≠ .built → ∀ s, s ∈ tb.seen ↔ ∃ n ∈ tb.nodes, n.leaf = true ∧ n.minsym = s
  /-- … and at one leaf only: there are as many symbols seen as leaves (41_tree_builder.md R153, R160). -/
  seenCount : tb.phase ≠ .built → tb.seen.length = tb.leafCount
  /-- The MINSYM values in the heap are symbols seen, pairwise distinct (41_tree_builder.md R153). -/
  heapSeen : ∀ h ∈ tb.heap, (nodeAt tb.nodes h).minsym ∈ tb.seen
  heapKeys : (tb.heap.map (fun h => (nodeAt tb.nodes h).minsym)).Nodup
  /-- The min-heap property (10_state.md R53). -/
  heapOrder : HeapOrdered tb.nodes tb.heap

/-- The invariant of the packer over PBUF. -/
structure Packer.Inv (c : Config) (pk : Packer) (pbuf : Memory) : Prop where
  /-- PK_NBYTES is 0 to PBUF_SIZE (10_state.md R48). -/
  nbytes : pk.nbytes ≤ c.pbufSize
  /-- ACC[7-K:0] = 0 (10_state.md R47). -/
  waiting : pk.acc.toNat % 2 ^ (8 - pk.k.toNat) = 0
  /-- When CLOSED = 1, K = 0 and ACC = 0 (10_state.md R47). -/
  closed : pk.closed = true → pk.k = 0#3 ∧ pk.acc = 0#8
  /-- PBUF[0 .. PK_NBYTES-1] are packed bytes: each has been written (10_state.md R48). -/
  packed : ∀ j, j < pk.nbytes → (Memory.read pbuf j).isSome = true

/-- The invariant of the machine. -/
structure State.Inv (s : State) : Prop where
  /-- The configuration is legal (00_scope.md R6). -/
  legal : s.cfg.Legal
  tree : s.tb.Inv s.cfg
  packer : s.pk.Inv s.cfg s.pbuf
  /-- The buffers are in their canonical form and lie within their sizes (10_state.md R56, R57). -/
  hbufWf : Memory.wf s.hbuf
  hbufBound : ∀ c ∈ s.hbuf, c.1 < s.cfg.hbufSize
  pbufWf : Memory.wf s.pbuf
  pbufBound : ∀ c ∈ s.pbuf, c.1 < s.cfg.pbufSize
  /-- WDATA[31:LW] reads 0 (10_state.md R40). -/
  wdata : s.wdata.toNat < 2 ^ s.cfg.lw
  /-- ERRCODE is never 2 or 3 (60_exceptions.md R251). -/
  errCode : s.status.err ≠ .unknownSymbol ∧ s.status.err ≠ .truncatedStream
  /-- DONE is cleared by acceptance and set by completion (10_state.md R37). -/
  busyDone : s.status.busy = true → s.status.done = false
  /-- The host sees LCMD through CMD reads (10_state.md R58). -/
  latched : s.lcmd = s.cmd

/-- STATUS after the completion, with code `e`, of a command that ran from `s`: BUSY = 0, DONE = 1, ERRCODE = e, OVR
kept (40_control.md R142). -/
def completionStatus (s : State) (e : ErrorCode) : Status :=
  { busy := false, done := true, ovr := s.status.ovr, err := e }

/-- `s` after a command that ended with error `e` and changed nothing but STATUS (60_exceptions.md R253). -/
def failedWith (s : State) (e : ErrorCode) : State := { s with status := completionStatus s e }

/-- The next turn is the engine's: it is listed next, or no turn is listed and a command is latched. -/
def engineNext (s : State) : Prop :=
  s.sched.head? = some .engine ∨ (s.sched = [] ∧ s.status.busy = true)

/-- The next turn is the host's: it is listed next, or no turn is listed and no command is latched. -/
def hostNext (s : State) : Prop :=
  s.sched.head? = some .host ∨ (s.sched = [] ∧ s.status.busy = false)

/-- `s` with its next turn taken off the list. -/
def turnTaken (s : State) : State := { s with sched := s.sched.tail }

/-- A host operation that the interface gives a meaning (20_memory.md R86). -/
def HostOp.legal (c : Config) : HostOp → Prop
  | .read addr size => ∃ off, accessOffset c addr size = .ok off
  | .write addr size _ => ∃ off, accessOffset c addr size = .ok off
  | .poll => True

/-- "A run of a host program on HUFB ends when the host program has executed its last line and STATUS.BUSY = 0"
(70_reset_and_hazards.md R292). -/
def runEnded (s : State) : Prop := s.prog = [] ∧ s.status.busy = false

/-- The state of HUFB alone: `s` with the host's side and the draws of `t`. Two states with the same configuration
are the same HUFB when `hufbOf s t = t`. -/
def hufbOf (s t : State) : State :=
  { s with prog := t.prog, sched := t.sched, reads := t.reads, draws := t.draws }

/-! ### Streams -/

/-- What a host does between PK_CLEAR and PK_FLUSH: push a chunk, or copy the packed bytes and drain
(43_bit_packer.md R227). -/
inductive StreamOp where
  | push (n : BitVec 5) (data : BitVec 16)
  | drain
deriving DecidableEq, Repr

/-- The state after a command that completes with code 0; `none` when it does not. -/
def runsTo (i : Instr) (s : State) : Option State :=
  match exec i s with
  | .next t => if t.status.err = .noError then some t else none
  | .fault _ => none
  | .refused _ => none

/-- A stream of successful commands from `s`, with the bytes the host has collected so far
(43_bit_packer.md R227). -/
def runStream : List StreamOp → State → List Byte → Option (State × List Byte)
  | [], s, got => some (s, got)
  | .push n data :: ops, s, got =>
    match runsTo (.pkBits n data) s with
    | some t => runStream ops t got
    | none => none
  | .drain :: ops, s, got =>
    match runsTo .pkDrain s with
    | some t => runStream ops t (got ++ packedBytes s)
    | none => none

/-- The bitstring of a stream: its chunks in order. -/
def streamBits : List StreamOp → List Bool
  | [] => []
  | .push n data :: ops => chunkBits n data ++ streamBits ops
  | .drain :: ops => streamBits ops

/-- The bits a host reads out of PK_UNPACK of one byte (43_bit_packer.md R229). -/
def unpackedBits (last : Bool) (pad byte : Byte) (s : State) : Option (State × List Bool) :=
  match runsTo (.pkUnpack last pad byte) s with
  | some t => some (t, lowBits t.result.r1.toNat t.result.r0)
  | none => none

/-- Unpacking a payload byte by byte, the last one with LAST and the padding count (43_bit_packer.md R229). -/
def runUnpack (padding : Byte) : List Byte → State → Option (List Bool)
  | [], _ => some []
  | [b], s => (unpackedBits true padding b s).map Prod.snd
  | b :: c :: rest, s =>
    match unpackedBits false 0#8 b s with
    | some (t, bits) => (runUnpack padding (c :: rest) t).map (fun more => bits ++ more)
    | none => none

end Sys2Proof.Machine
end

