-- ==== Sys2Proof/Certificates/Slice0/Obligations.lean ====
section
/-! DEFINITION. The statements about HUFB, for the provers. Each formalises rules of spec/; a clause that rests on a
choice of the model names its log entry (notes/assumptions). -/

section
open Sys2Proof Sys2Proof.Machine

/-! ### Decoding (spec/30_encoding.md) -/

/-- Words written out from the formats of 30_encoding.md R112 to R116 and the opcode map of R118. -/
def Obligations.DecodeReadsSpecWords : Prop :=
  decodeWord 0x00000000#32 = .ok .nop
  ∧ decodeWord 0x01000000#32 = .ok .softReset
  ∧ decodeWord 0x10000000#32 = .ok .tbClear
  ∧ decodeWord 0x11000061#32 = .ok (.tbInsert 0x61#24)
  ∧ decodeWord 0x12000000#32 = .ok .tbMerge
  ∧ decodeWord 0x13000000#32 = .ok .tbBuild
  ∧ decodeWord 0x14000000#32 = .ok .tbPeek
  ∧ decodeWord 0x15000002#32 = .ok (.tbReadNode 2#16)
  ∧ decodeWord 0x20000000#32 = .ok .serEmit
  ∧ decodeWord 0x21000000#32 = .ok .serParse
  ∧ decodeWord 0x30000000#32 = .ok .pkClear
  ∧ decodeWord 0x311069CF#32 = .ok (.pkBits 16#5 0x69CF#16)
  ∧ decodeWord 0x32000000#32 = .ok .pkFlush
  ∧ decodeWord 0x33000000#32 = .ok .pkDrain
  ∧ decodeWord 0x340104E0#32 = .ok (.pkUnpack true 4#8 0xE0#8)

/-- The opcode map, row by row, with its matches and masks (30_encoding.md R118). -/
def Obligations.OpcodeMapIsTheSpecTable : Prop :=
  opcodeMap.map (fun r => (r.mnemonic, r.pattern, r.mask)) =
    [ ("NOP",          0x00000000#32, 0xFFFFFFFF#32),
      ("SOFT_RESET",   0x01000000#32, 0xFFFFFFFF#32),
      ("TB_CLEAR",     0x10000000#32, 0xFFFFFFFF#32),
      ("TB_INSERT",    0x11000000#32, 0xFF000000#32),
      ("TB_MERGE",     0x12000000#32, 0xFFFFFFFF#32),
      ("TB_BUILD",     0x13000000#32, 0xFFFFFFFF#32),
      ("TB_PEEK",      0x14000000#32, 0xFFFFFFFF#32),
      ("TB_READ_NODE", 0x15000000#32, 0xFFFF0000#32),
      ("SER_EMIT",     0x20000000#32, 0xFFFFFFFF#32),
      ("SER_PARSE",    0x21000000#32, 0xFFFFFFFF#32),
      ("PK_CLEAR",     0x30000000#32, 0xFFFFFFFF#32),
      ("PK_BITS",      0x31000000#32, 0xFFE00000#32),
      ("PK_FLUSH",     0x32000000#32, 0xFFFFFFFF#32),
      ("PK_DRAIN",     0x33000000#32, 0xFFFFFFFF#32),
      ("PK_UNPACK",    0x34000000#32, 0xFFFE0000#32) ]

/-- Encoding then decoding gives every command back, with every operand at every value of its field
(30_encoding.md R110 to R118). -/
def Obligations.DecodeEncodeRoundTrip : Prop :=
  ∀ i : Instr, decodeWord (encode i) = .ok i

/-- A word that decodes is the only word of its command (30_encoding.md R112 to R117). -/
def Obligations.EncodeInvertsDecode : Prop :=
  ∀ (w : Word) (i : Instr), decodeWord w = .ok i → encode i = w

/-- Decoding by `(w & mask(X)) == match(X)`: at most one row matches, the matching row's command runs, and a word that
no row matches completes with ILLEGAL_COMMAND (30_encoding.md R117). -/
def Obligations.DecodingIsByMaskAndMatch : Prop :=
  ∀ w : Word,
    (∀ r ∈ opcodeMap, ∀ q ∈ opcodeMap,
      (w &&& r.mask) = r.pattern → (w &&& q.mask) = q.pattern → r.mnemonic = q.mnemonic)
    ∧ (∀ r ∈ opcodeMap, (w &&& r.mask) = r.pattern →
        decodeWord w = .ok (r.command w) ∧ (r.command w).mnemonic = r.mnemonic)
    ∧ ((∀ r ∈ opcodeMap, (w &&& r.mask) ≠ r.pattern) →
        ∀ s : State, engineNext s → s.status.busy = true → s.lcmd = w →
          step s = .next (failedWith (turnTaken s) .illegalCommand))

/-- Every reserved OPC and every non-zero reserved bit of an assigned OPC is ILLEGAL_COMMAND (30_encoding.md R124), no
word but 0 is a NOP, and an ILLEGAL_COMMAND changes no state but STATUS (R125). -/
def Obligations.ReservedEncodingsAreIllegal : Prop :=
  ∀ w : Word,
    ((let opc := w.toNat / 2 ^ 24
      (0x02 ≤ opc ∧ opc ≤ 0x0F) ∨ (0x16 ≤ opc ∧ opc ≤ 0x1F) ∨ (0x22 ≤ opc ∧ opc ≤ 0x2F) ∨ 0x35 ≤ opc) →
        decodeWord w = .error .unassignedOpcode)
    ∧ (∀ r ∈ opcodeMap, w.toNat / 2 ^ 24 = r.pattern.toNat / 2 ^ 24 → (w &&& r.mask) &&& 0x00FFFFFF#32 ≠ 0#32 →
        decodeWord w = .error .reservedBits)
    ∧ (decodeWord w = .ok .nop → w = 0#32)
    ∧ ∀ (e : DecodeReject) (s : State), decodeWord w = .error e → engineNext s → s.status.busy = true → s.lcmd = w →
        step s = .next (failedWith (turnTaken s) .illegalCommand)

/-! ### Steps (spec/40_control.md; 20_memory.md) -/

/-- The step at a latched command is `exec` of the command that LCMD decodes to, after the engine's turn is taken
(40_control.md R141); a word placed by `withFetchWord` is run by the very next step (log entry 11). -/
def Obligations.StepRunsTheDecodedCommand : Prop :=
  (∀ (s : State) (i : Instr), engineNext s → s.status.busy = true → decodeWord s.lcmd = .ok i →
    step s = exec i (turnTaken s))
  ∧ ∀ (s : State) (nbits w : Nat) (i : Instr), decodeTableWord nbits w = some i →
    step (s.withFetchWord nbits w) = exec i (acceptCommand (BitVec.ofNat 32 (w % 2 ^ nbits)) s)

/-- The step at a host's turn performs the next operation of its program (20_memory.md R92; 30_encoding.md R126): a word
read or write anywhere in the 16 KiB at HUFB_BASE is MemRead or MemWrite at its offset from HUFB_BASE (20_memory.md R81,
R86); a POLL reads STATUS once a turn and stays until BUSY = 0 (log entry 14). -/
def Obligations.StepPerformsTheHostOperation : Prop :=
  ∀ s : State, hostNext s →
    (s.prog = [] → step s = .next (turnTaken s))
    ∧ (∀ addr, s.cfg.hufbBase ≤ addr → addr < s.cfg.hufbBase + 0x4000 → (addr - s.cfg.hufbBase) % 4 = 0 →
        (∀ rest, s.prog = .read addr 4 :: rest →
          step s = .next (busRead (addr - s.cfg.hufbBase) { turnTaken s with prog := rest }))
        ∧ ∀ v rest, s.prog = .write addr 4 v :: rest →
          step s = .next (busWrite (addr - s.cfg.hufbBase) v { turnTaken s with prog := rest }))
    ∧ (∀ rest, s.prog = .poll :: rest →
        step s = .next (busRead 0x010 { turnTaken s with prog := if s.status.busy then s.prog else rest }))

/-- The engine has a step exactly when BUSY = 1: it runs the decoded command or completes with ILLEGAL_COMMAND
(40_control.md R141); every completion clears BUSY, sets DONE and leaves OVR, which SOFT_RESET clears (R142, R145). -/
def Obligations.EngineStepsExactlyWhenBusy : Prop :=
  (∀ s : State, engineNext s →
    (s.status.busy = false → step s = .next (turnTaken s))
    ∧ (s.status.busy = true → ∀ i, decodeWord s.lcmd = .ok i → step s = exec i (turnTaken s))
    ∧ (s.status.busy = true → ∀ e, decodeWord s.lcmd = .error e →
        step s = .next (failedWith (turnTaken s) .illegalCommand)))
  ∧ ∀ (i : Instr) (s t : State), exec i s = .next t →
    t.status.busy = false ∧ t.status.done = true ∧ t.status.ovr = (s.status.ovr && decide (i ≠ .softReset))
    ∧ (statusWord t.status).getLsbD 2 = decide (t.status.err ≠ .noError)

/-- Whatever word is latched, the engine's step completes it, and the next CMD write is accepted: no error leaves HUFB
unusable (60_exceptions.md R261). -/
def Obligations.EveryCommandCompletes : Prop :=
  ∀ s : State, s.Inv → engineNext s → s.status.busy = true →
    ∃ t, step s = .next t ∧ t.status.busy = false ∧ t.status.done = true
      ∧ ∀ w : Word, busWrite 0x014 w t =
          { t with lcmd := w, cmd := w, status := { t.status with busy := true, done := false } }

/-- An accepted command is executed after any finite number of host operations, whatever they are (20_memory.md R95;
70_reset_and_hazards.md R291). -/
def Obligations.AcceptedCommandsCompleteAfterHostSteps : Prop :=
  ∀ (s : State) (n : Nat) (rest : List Turn), s.Inv → s.status.busy = true →
    s.sched = List.replicate n .host ++ .engine :: rest → (∀ op ∈ s.prog, op.legal s.cfg) →
    ∃ t : State, Host.Core.run Sys2Proof.core (n + 1) s = .next t ∧ t.sched = rest
      ∧ t.status.busy = false ∧ t.status.done = true

/-! ### Host accesses (spec/10_state.md; 20_memory.md) -/

/-- A CMD write is accepted when BUSY = 0 and nothing else changes (40_control.md R140); it is dropped when BUSY = 1
(R143). A CMD read, busy or not, returns the CMD read value: the word accepted, or what it returned before a dropped
write, and 0 after reset (10_state.md R39). -/
def Obligations.CmdWriteSubmitsACommand : Prop :=
  ∀ (s : State) (w : Word),
    (s.status.busy = false → busWrite 0x014 w s =
      { s with lcmd := w, cmd := w, status := { s.status with busy := true, done := false } })
    ∧ (s.status.busy = true → busWrite 0x014 w s = { s with status := { s.status with ovr := true } })
    ∧ busValue s 0x014 = s.cmd
    ∧ busValue (busWrite 0x014 w s) 0x014 = (if s.status.busy then busValue s 0x014 else w)
    ∧ busValue State.reset 0x014 = 0#32

/-- Accesses while BUSY = 1 (20_memory.md R98): (a) dropped writes set OVR; (b) unspecified reads return a draw and
the next read draws anew; (c) the others behave as when BUSY = 0. The form of a draw in (b), a whole word given by
`freeWord` at the draw counter, reserved bits drawn too, is the model's choice (log entries 4 and 6), and so is (a) for
a window word at or above HBUF_SIZE (log entry 22). -/
def Obligations.AccessesWhileBusy : Prop :=
  ∀ (s : State) (off : Nat), s.status.busy = true → off % 4 = 0 →
    (off = 0x014 ∨ off = 0x018 ∨ off = 0x044 ∨ (0x1000 ≤ off ∧ off ≤ 0x1FFC) →
      ∀ v, busWrite off v s = { s with status := { s.status with ovr := true } })
    ∧ ((0x01C ≤ off ∧ off ≤ 0x050) ∨ (0x1000 ≤ off ∧ off ≤ 0x2FFC) →
      busRead off s = { s with reads := Config.freeWord s.draws :: s.reads, draws := (busRead off s).draws }
      ∧ s.draws < (busRead off s).draws)
    ∧ (off ≤ 0x00C ∨ off = 0x014 ∨ off = 0x018 ∨ (0x054 ≤ off ∧ off ≤ 0x0FFC) ∨ (0x3000 ≤ off ∧ off ≤ 0x3FFC) →
      busValue s off = busValue { s with status := { s.status with busy := false } } off)
    ∧ busValue s 0x010 = statusWord s.status
    ∧ (∀ v, busWrite 0x00C v s = { s with ie := v.getLsbD 0 })
    ∧ (∀ v, busWrite 0x010 v s =
        { s with status := { s.status with
          done := s.status.done && !v.getLsbD 1, ovr := s.status.ovr && !v.getLsbD 3 } })
    ∧ ((0x054 ≤ off ∧ off ≤ 0x0FFC) ∨ (0x3000 ≤ off ∧ off ≤ 0x3FFC) → ∀ v, busWrite off v s = s)

/-- What a STATUS read returns, BUSY or not, field by field (10_state.md R37; 20_memory.md R83), and the effect of a
STATUS write, BUSY or not: DONE and OVR are write-1-to-clear and nothing else changes (R38). -/
def Obligations.StatusWriteOneToClear : Prop :=
  ∀ (s : State) (v : Word),
    statusWord (busWrite 0x010 v s).status = statusWord s.status &&& ~~~(v &&& 0x0000000A#32)
    ∧ busWrite 0x010 v s = { s with status := (busWrite 0x010 v s).status }
    ∧ (busWrite 0x010 v s).status.err = s.status.err
    ∧ busWrite 0x010 0#32 s = s
    ∧ busValue s 0x010 = statusWord s.status
    ∧ (busValue s 0x010).toNat =
        16 * s.status.err.code.toNat + 8 * s.status.ovr.toNat + 4 * (decide (s.status.err ≠ .noError)).toNat
          + 2 * s.status.done.toNat + s.status.busy.toNat

/-- ID, PARAMS0 and PARAMS1: their values, that no step changes them, and that writes are ignored (10_state.md R33,
R34, R35). -/
def Obligations.IdAndParametersNeverChange : Prop :=
  (∀ s : State,
    busValue s 0x000 = 0x48554642#32
    ∧ (s.cfg.Legal →
        (busValue s 0x004).toNat = s.cfg.symW + 2 ^ 8 * s.cfg.lw + 2 ^ 16 * s.cfg.maxLeaves
        ∧ (busValue s 0x008).toNat = s.cfg.hbufSize + 2 ^ 16 * s.cfg.pbufSize)
    ∧ (s.cfg = Config.reference → busValue s 0x004 = 0x01002008#32 ∧ busValue s 0x008 = 0x04000400#32)
    ∧ ∀ v, busWrite 0x000 v s = s ∧ busWrite 0x004 v s = s ∧ busWrite 0x008 v s = s)
  ∧ ∀ s t : State, step s = .next t →
    busValue t 0x000 = busValue s 0x000 ∧ busValue t 0x004 = busValue s 0x004 ∧ busValue t 0x008 = busValue s 0x008

/-- Writes to CTRL, WDATA and HDR_LEN: CTRL at once, also while BUSY = 1 (10_state.md R36); WDATA keeps its LW low bits
(R40) and HDR_LEN any word (R45), both dropped with OVR while BUSY = 1; what a read returns, in every state and after a
write; reset values 0. -/
def Obligations.CtrlWdataAndHdrLenWrites : Prop :=
  (∀ (s : State) (v : Word),
    busWrite 0x00C v s = { s with ie := v.getLsbD 0 }
    ∧ busValue (busWrite 0x00C v s) 0x00C = v &&& 1#32
    ∧ busValue s 0x00C = (if s.ie then 1#32 else 0#32)
    ∧ busValue s 0x018 = s.wdata
    ∧ (s.status.busy = false → busValue s 0x044 = s.hdrLen)
    ∧ (s.status.busy = false →
        busWrite 0x018 v s = { s with wdata := BitVec.ofNat 32 (v.toNat % 2 ^ s.cfg.lw) }
        ∧ (busValue (busWrite 0x018 v s) 0x018).toNat = v.toNat % 2 ^ s.cfg.lw
        ∧ busWrite 0x044 v s = { s with hdrLen := v } ∧ busValue (busWrite 0x044 v s) 0x044 = v)
    ∧ (s.status.busy = true →
        busWrite 0x018 v s = { s with status := { s.status with ovr := true } }
        ∧ busWrite 0x044 v s = { s with status := { s.status with ovr := true } }))
  ∧ (∀ s : State, ∃ t, exec .softReset s = .next t ∧ t.ie = s.ie)
  ∧ busValue State.reset 0x00C = 0#32 ∧ busValue State.reset 0x018 = 0#32 ∧ busValue State.reset 0x044 = 0#32

/-- Writes to the read-only registers and to the PBUF window are ignored, BUSY or not, and set no OVR (20_memory.md
R84, R88; 10_state.md R32). -/
def Obligations.ReadOnlyWritesAreIgnored : Prop :=
  ∀ (s : State) (off : Nat) (v : Word), off % 4 = 0 →
    (off ≤ 0x008 ∨ (0x01C ≤ off ∧ off ≤ 0x040) ∨ (0x048 ≤ off ∧ off ≤ 0x050) ∨ (0x2000 ≤ off ∧ off ≤ 0x2FFC)) →
    busWrite off v s = s

/-- The reserved offsets 0x054 to 0x0FFC (10_state.md R50) and the unmapped offsets 0x3000 to 0x3FFC (20_memory.md R82,
R83, R84): in every state, busy or not, a read returns 0 and a write is ignored, with no other effect. -/
def Obligations.ReservedOffsetsReadZero : Prop :=
  ∀ (s : State) (off : Nat), (0x054 ≤ off ∧ off ≤ 0x0FFC) ∨ (0x3000 ≤ off ∧ off ≤ 0x3FFC) → off % 4 = 0 →
    busRead off s = { s with reads := 0#32 :: s.reads, draws := (busRead off s).draws }
    ∧ ∀ v, busWrite off v s = s

/-- No read has a side effect, and two reads of an offset return the same value, whatever was read between them, but for
the draws of 20_memory.md R98 and 10_state.md R61 (20_memory.md R89). At BUSY = 0 the five result registers read as RESULT0 to RESULT4, in the order of
their offsets (10_state.md R32, R41). The read log and the draw counter are the host's and the model's own (log entries
4 and 15). -/
def Obligations.ReadsHaveNoSideEffect : Prop :=
  ∀ (s : State) (off : Nat), off % 4 = 0 →
    busRead off s = { s with reads := busValue s off :: s.reads, draws := (busRead off s).draws }
    ∧ (s.status.busy = false ∨ off ≤ 0x018 ∨ (0x054 ≤ off ∧ off ≤ 0x0FFC) ∨ 0x3000 ≤ off →
        (∀ k, k < 4 → 0x1000 ≤ off → off ≤ 0x1FFC → off - 0x1000 + k < s.cfg.hbufSize →
          (Memory.read s.hbuf (off - 0x1000 + k)).isSome = true) →
        (∀ k, k < 4 → 0x2000 ≤ off → off ≤ 0x2FFC → off - 0x2000 + k < s.cfg.pbufSize →
          (Memory.read s.pbuf (off - 0x2000 + k)).isSome = true) →
        ∀ reads draws prog sched,
          busValue { s with reads := reads, draws := draws, prog := prog, sched := sched } off = busValue s off)
    ∧ (s.status.busy = false →
        busValue s 0x01C = s.result.r0 ∧ busValue s 0x020 = s.result.r1 ∧ busValue s 0x024 = s.result.r2
        ∧ busValue s 0x028 = s.result.r3 ∧ busValue s 0x02C = s.result.r4)

/-- The HBUF window: words are big-endian, bytes at and above HBUF_SIZE read 0 and ignore writes, and a write while
BUSY = 1 is dropped with OVR (20_memory.md R87). Each written byte stands at its place, also in a word whose other bytes
nothing has written (R85); a byte that nothing has written is a fresh draw at each read (10_state.md R61; R89). The form
of the draw, `freeByte` at the draw counter, is the model's choice (log entries 4 and 5). That a write while BUSY = 1 sets
OVR also for a word wholly at or above HBUF_SIZE is the model's reading (log entry 22). -/
def Obligations.HbufWindowWords : Prop :=
  ∀ (s : State) (i : Nat), 4 * i ≤ 0xFFC →
    (∀ b : Nat → Byte, s.status.busy = false →
      (∀ k, k < 4 → 4 * i + k < s.cfg.hbufSize → Memory.read s.hbuf (4 * i + k) = some (b k)) →
      (∀ k, k < 4 → s.cfg.hbufSize ≤ 4 * i + k → b k = 0#8) →
      busValue s (0x1000 + 4 * i) = b 0 ++ b 1 ++ b 2 ++ b 3)
    ∧ (∀ k, k < 4 → s.status.busy = false →
      (∀ b, 4 * i + k < s.cfg.hbufSize → Memory.read s.hbuf (4 * i + k) = some b →
        (busValue s (0x1000 + 4 * i)).extractLsb' (24 - 8 * k) 8 = b)
      ∧ (4 * i + k < s.cfg.hbufSize → Memory.read s.hbuf (4 * i + k) = none →
        (busValue s (0x1000 + 4 * i)).extractLsb' (24 - 8 * k) 8 = Config.freeByte (s.draws + k)
        ∧ s.draws + k < (busRead (0x1000 + 4 * i) s).draws)
      ∧ (s.cfg.hbufSize ≤ 4 * i + k → (busValue s (0x1000 + 4 * i)).extractLsb' (24 - 8 * k) 8 = 0#8))
    ∧ ∀ v : Word,
      (s.status.busy = true →
        busWrite (0x1000 + 4 * i) v s = { s with status := { s.status with ovr := true } })
      ∧ (s.status.busy = false →
        busWrite (0x1000 + 4 * i) v s = { s with hbuf := (busWrite (0x1000 + 4 * i) v s).hbuf }
        ∧ (∀ k, k < 4 → 4 * i + k < s.cfg.hbufSize →
            Memory.read (busWrite (0x1000 + 4 * i) v s).hbuf (4 * i + k) = some (v.extractLsb' (24 - 8 * k) 8))
        ∧ ∀ a, (a < 4 * i ∨ 4 * i + 4 ≤ a ∨ s.cfg.hbufSize ≤ a) →
            Memory.read (busWrite (0x1000 + 4 * i) v s).hbuf a = Memory.read s.hbuf a)

/-- The PBUF window: words are big-endian, bytes at and above PBUF_SIZE read 0, bytes at and above PK_NBYTES read as
PBUF holds them, and writes are ignored and set no OVR (20_memory.md R88). Each written byte stands at its place, also in
a word whose other bytes nothing has written (R85); a byte that nothing has written is a fresh draw at each read
(10_state.md R61; R89). The form of the draw, `freeByte` at the draw counter, is the model's choice (log entries 4
and 5). -/
def Obligations.PbufWindowWords : Prop :=
  ∀ (s : State) (i : Nat), 4 * i ≤ 0xFFC →
    (∀ b : Nat → Byte, s.status.busy = false →
      (∀ k, k < 4 → 4 * i + k < s.cfg.pbufSize → Memory.read s.pbuf (4 * i + k) = some (b k)) →
      (∀ k, k < 4 → s.cfg.pbufSize ≤ 4 * i + k → b k = 0#8) →
      busValue s (0x2000 + 4 * i) = b 0 ++ b 1 ++ b 2 ++ b 3)
    ∧ (∀ k, k < 4 → s.status.busy = false →
      (∀ b, 4 * i + k < s.cfg.pbufSize → Memory.read s.pbuf (4 * i + k) = some b →
        (busValue s (0x2000 + 4 * i)).extractLsb' (24 - 8 * k) 8 = b)
      ∧ (4 * i + k < s.cfg.pbufSize → Memory.read s.pbuf (4 * i + k) = none →
        (busValue s (0x2000 + 4 * i)).extractLsb' (24 - 8 * k) 8 = Config.freeByte (s.draws + k)
        ∧ s.draws + k < (busRead (0x2000 + 4 * i) s).draws)
      ∧ (s.cfg.pbufSize ≤ 4 * i + k → (busValue s (0x2000 + 4 * i)).extractLsb' (24 - 8 * k) 8 = 0#8))
    ∧ ∀ v : Word, busWrite (0x2000 + 4 * i) v s = s

/-- An access that is not a 32-bit word at a multiple of 4 of the register space has no step: it is refused
(20_memory.md R86). -/
def Obligations.AccessesOutsideTheInterfaceAreRefused : Prop :=
  ∀ (s : State) (addr size : Nat) (v : Word) (rest : List HostOp), hostNext s →
    s.prog = .read addr size :: rest ∨ s.prog = .write addr size v :: rest →
    (size ≠ 4 → step s = .refused .accessSize)
    ∧ (size = 4 → s.cfg.hufbBase ≤ addr → addr < s.cfg.hufbBase + 0x4000 → (addr - s.cfg.hufbBase) % 4 ≠ 0 →
        step s = .refused .misaligned)

/-- A host's turn touches no unit: tree builder, packer, PBUF, results, ERRCODE and configuration stay; and while
BUSY = 1 it changes none of the running command's operands (20_memory.md R94, R98; 30_encoding.md R123). -/
def Obligations.HostAccessesTouchNoUnit : Prop :=
  ∀ s t : State, hostNext s → step s = .next t →
    (t.cfg = s.cfg ∧ t.tb = s.tb ∧ t.pk = s.pk ∧ t.pbuf = s.pbuf ∧ t.result = s.result
      ∧ t.status.err = s.status.err)
    ∧ (s.status.busy = true →
        t.status.busy = true ∧ t.lcmd = s.lcmd ∧ t.cmd = s.cmd ∧ t.wdata = s.wdata ∧ t.hdrLen = s.hdrLen
        ∧ t.hbuf = s.hbuf)

/-- The interrupt line: `IRQ = CTRL.IE & STATUS.DONE`; asserted by any completion while IE = 1, kept until DONE or IE
is cleared, asserted at once by setting IE while DONE = 1, deasserted by reset (60_exceptions.md R257). -/
def Obligations.InterruptLine : Prop :=
  ∀ s : State,
    (irq s = true ↔ s.ie = true ∧ s.status.done = true)
    ∧ (∀ i t, exec i s = .next t → irq t = s.ie)
    ∧ (∀ t, engineNext s → s.status.busy = true → step s = .next t → irq t = s.ie)
    ∧ (∀ v, v.getLsbD 1 = true → irq (busWrite 0x010 v s) = false)
    ∧ (∀ w, s.status.busy = false → irq (busWrite 0x014 w s) = false)
    ∧ (∀ v, irq (busWrite 0x00C v s) = (v.getLsbD 0 && s.status.done))
    ∧ (∀ off v, irq s = true → irq (busWrite off v s) = false →
        (off = 0x010 ∧ v.getLsbD 1 = true) ∨ (off = 0x014 ∧ s.status.busy = false)
          ∨ (off = 0x00C ∧ v.getLsbD 0 = false))
    ∧ ∀ t, s.sched.head? = some .reset → step s = .next t → irq t = false

/-! ### Reset (spec/70_reset_and_hazards.md) -/

/-- The reset input, between any two steps: every register to its reset value of 10_state.md R60, CTRL too, the buffers
unchanged when no command is latched (70_reset_and_hazards.md R280); and the machine after power-up, in any
configuration. That the host's own fields (program, turns, read log, draw counter) are empty after power-up and that the
buffers then list no byte is the model's choice (log entries 17 and 5). -/
def Obligations.ResetValues : Prop :=
  (∀ (s : State) (rest : List Turn), s.sched = .reset :: rest →
    ∃ t, step s = .next t
      ∧ t = { s with
          ie := false, status := { busy := false, done := false, ovr := false, err := .noError },
          cmd := 0#32, lcmd := 0#32, wdata := 0#32,
          result := { r0 := 0#32, r1 := 0#32, r2 := 0#32, r3 := 0#32, r4 := 0#32 },
          tb := { phase := .empty, leafCount := 0, root := none, nodes := [], heap := [], seen := [] },
          hdrLen := 0#32, pk := { k := 0#3, acc := 0#8, closed := false, nbytes := 0, pad := 0#3 },
          hbuf := t.hbuf, pbuf := t.pbuf, sched := rest }
      ∧ (s.status.busy = false → t.hbuf = s.hbuf ∧ t.pbuf = s.pbuf))
  ∧ ∀ c : Config, State.resetOf c =
    { cfg := c, ie := false, status := { busy := false, done := false, ovr := false, err := .noError },
      cmd := 0#32, lcmd := 0#32, wdata := 0#32,
      result := { r0 := 0#32, r1 := 0#32, r2 := 0#32, r3 := 0#32, r4 := 0#32 },
      tb := { phase := .empty, leafCount := 0, root := none, nodes := [], heap := [], seen := [] },
      hdrLen := 0#32, pk := { k := 0#3, acc := 0#8, closed := false, nbytes := 0, pad := 0#3 },
      hbuf := [], pbuf := [], prog := [], sched := [], reads := [], draws := 0 }

/-- A reset while BUSY = 1 abandons the latched command: every register has its reset value, the bytes the command
would have written hold no known value any more, and every other buffer byte keeps its value
(70_reset_and_hazards.md R281). That the bytes are forgotten also where the latched command would have failed (a PK_BITS
with illegal operands, a PK command of a closed stream, a SER_EMIT with no tree) is the model's reading (log entry 13),
and that a forgotten byte is one that nothing has written is its form of R281's fresh draws (log entry 5). -/
def Obligations.ResetWhileBusyAbandonsTheCommand : Prop :=
  ∀ (s : State) (rest : List Turn), s.sched = .reset :: rest → s.status.busy = true →
    ∃ t, step s = .next t
      ∧ t = { State.resetOf s.cfg with
          hbuf := t.hbuf, pbuf := t.pbuf, prog := s.prog, sched := rest, reads := s.reads, draws := s.draws }
      ∧ (∀ a, Memory.read t.hbuf a =
          if decodeWord s.lcmd = .ok .serEmit ∧ a < s.cfg.hbufSize then none else Memory.read s.hbuf a)
      ∧ ∀ a, Memory.read t.pbuf a =
          if ((∃ n d, decodeWord s.lcmd = .ok (.pkBits n d)) ∨ decodeWord s.lcmd = .ok .pkFlush)
              ∧ s.pk.nbytes ≤ a ∧ a ≤ s.pk.nbytes + 2
          then none else Memory.read s.pbuf a

/-! ### Control commands (spec/40_control.md) -/

/-- NOP succeeds in every state and changes nothing but STATUS; any operand bit makes the word illegal
(40_control.md R144). -/
def Obligations.NopOnlyCompletes : Prop :=
  decodeWord 0x00000000#32 = .ok .nop
  ∧ (∀ w : Word, w.extractLsb' 24 8 = 0#8 → w ≠ 0#32 → decodeWord w = .error .reservedBits)
  ∧ ∀ s : State, exec .nop s = .next { s with status := completionStatus s .noError }

/-- SOFT_RESET: every register and storage to its reset value but CTRL, the buffers unchanged, DONE = 1
(40_control.md R145; 70_reset_and_hazards.md R283). -/
def Obligations.SoftResetKeepsCtrlAndBuffers : Prop :=
  decodeWord 0x01000000#32 = .ok .softReset
  ∧ ∀ s : State, exec .softReset s = .next
    { s with
      status := { busy := false, done := true, ovr := false, err := .noError },
      cmd := 0#32, lcmd := 0#32, wdata := 0#32,
      result := { r0 := 0#32, r1 := 0#32, r2 := 0#32, r3 := 0#32, r4 := 0#32 },
      tb := { phase := .empty, leafCount := 0, root := none, nodes := [], heap := [], seen := [] },
      hdrLen := 0#32, pk := { k := 0#3, acc := 0#8, closed := false, nbytes := 0, pad := 0#3 } }

/-! ### The tree builder (spec/41_tree_builder.md) -/

/-- TB_CLEAR: the tree builder is empty again; RESULT0 to RESULT4, HDR_LEN, the buffers and the packer are unchanged
(41_tree_builder.md R158, R159). -/
def Obligations.TbClearEmptiesTheBuilder : Prop :=
  decodeWord 0x10000000#32 = .ok .tbClear
  ∧ ∀ s : State, exec .tbClear s = .next
    { s with
      tb := { phase := .empty, leafCount := 0, root := none, nodes := [], heap := [], seen := [] },
      status := completionStatus s .noError }

/-- TB_INSERT: its errors, in order, and its effect (41_tree_builder.md R160): the new leaf is appended to the node
store, marked in SEEN, put into the heap and reported. -/
def Obligations.TbInsertAddsTheLeaf : Prop :=
  (∀ w : Word, (w &&& 0xFF000000#32) = 0x11000000#32 → decodeWord w = .ok (.tbInsert (w.extractLsb' 0 24)))
  ∧ (∀ (sym : BitVec 24) (s : State),
    (2 ^ s.cfg.symW ≤ sym.toNat → exec (.tbInsert sym) s = .next (failedWith s .illegalCommand))
    ∧ (sym.toNat < 2 ^ s.cfg.symW → s.tb.phase = .built →
        exec (.tbInsert sym) s = .next (failedWith s .badState))
    ∧ (sym.toNat < 2 ^ s.cfg.symW → s.tb.phase ≠ .built → sym.toNat ∈ s.tb.seen →
        exec (.tbInsert sym) s = .next (failedWith s .duplicateSymbol))
    ∧ (sym.toNat < 2 ^ s.cfg.symW → s.tb.phase ≠ .built → sym.toNat ∉ s.tb.seen →
        s.tb.leafCount = s.cfg.maxLeaves → exec (.tbInsert sym) s = .next (failedWith s .capacity))
    ∧ (sym.toNat < 2 ^ s.cfg.symW → s.tb.phase ≠ .built → sym.toNat ∉ s.tb.seen →
        s.tb.leafCount ≠ s.cfg.maxLeaves →
        let leaf : Node :=
          { leaf := true, minsym := sym.toNat, weight := s.wdata.toNat % 2 ^ s.cfg.lw, left := 0, right := 0 }
        ∃ heap seen,
          exec (.tbInsert sym) s = .next
            { s with
              tb := { s.tb with
                phase := .loading, leafCount := s.tb.leafCount + 1, nodes := s.tb.nodes ++ [leaf],
                heap := heap, seen := seen },
              result :=
                { r0 := 0x80#8 ++ sym, r1 := BitVec.ofNat 32 leaf.weight, r2 := 0#32, r3 := 0#32,
                  r4 := BitVec.ofNat 32 s.tb.nodes.length },
              status := completionStatus s .noError }
          ∧ heap.Perm (s.tb.nodes.length :: s.tb.heap)
          ∧ (s.tb.Inv s.cfg → HeapOrdered (s.tb.nodes ++ [leaf]) heap)
          ∧ ∀ x, x ∈ seen ↔ x = sym.toNat ∨ x ∈ s.tb.seen))

/-- TB_MERGE: BAD_STATE unless LOADING with two nodes in the heap; else the two minima `a` and `b` leave the heap, in
that order, and a new node over them, with the smaller MINSYM and the exact sum of the weights, joins it and is
reported (41_tree_builder.md R157, R161). -/
def Obligations.TbMergeJoinsTheTwoMinima : Prop :=
  decodeWord 0x12000000#32 = .ok .tbMerge
  ∧ ∀ s : State,
    (s.tb.phase ≠ .loading ∨ s.tb.heap.length < 2 → exec .tbMerge s = .next (failedWith s .badState))
    ∧ (s.Inv → s.tb.phase = .loading → 2 ≤ s.tb.heap.length →
      ∃ a b rest heap,
        s.tb.heap.Perm (a :: b :: rest)
        ∧ IsHeapMin s.tb.nodes s.tb.heap a ∧ IsHeapMin s.tb.nodes (b :: rest) b
        ∧ (let n : Node :=
            { leaf := false, minsym := min (nodeAt s.tb.nodes a).minsym (nodeAt s.tb.nodes b).minsym,
              weight := (nodeAt s.tb.nodes a).weight + (nodeAt s.tb.nodes b).weight, left := a, right := b }
          heap.Perm (s.tb.nodes.length :: rest)
          ∧ HeapOrdered (s.tb.nodes ++ [n]) heap
          ∧ exec .tbMerge s = .next
            { s with
              tb := { s.tb with nodes := s.tb.nodes ++ [n], heap := heap },
              result :=
                { r0 := 0x00#8 ++ BitVec.ofNat 24 n.minsym, r1 := BitVec.ofNat 32 n.weight,
                  r2 := BitVec.ofNat 16 b ++ BitVec.ofNat 16 a, r3 := BitVec.ofNat 32 (n.weight / 2 ^ 32),
                  r4 := BitVec.ofNat 32 s.tb.nodes.length },
              status := completionStatus s .noError }))

/-- TB_BUILD: BAD_STATE when built, EMPTY_ALPHABET when empty (41_tree_builder.md R162, R164); else exactly
HEAP_COUNT - 1 merges, after which the node left is the root, reported (R162, R163, R165). -/
def Obligations.TbBuildMergesToOneRoot : Prop :=
  decodeWord 0x13000000#32 = .ok .tbBuild
  ∧ ∀ s : State,
    (s.tb.phase = .built → exec .tbBuild s = .next (failedWith s .badState))
    ∧ (s.tb.phase = .empty → exec .tbBuild s = .next (failedWith s .emptyAlphabet))
    ∧ (s.Inv → s.tb.phase = .loading →
      ∃ m r, m = (mergeStep s.cfg)^[s.tb.heap.length - 1] s.tb ∧ m.heap = [r]
        ∧ exec .tbBuild s = .next
          { s with
            tb := { m with root := some r, heap := [], phase := .built },
            result := nodeWords (nodeAt m.nodes r) r,
            status := completionStatus s .noError }
        ∧ m.leafCount = s.tb.leafCount ∧ m.nodes.length = s.tb.nodes.length + (s.tb.heap.length - 1)
        ∧ (s.tb.heap.length = 1 → m = s.tb)
        ∧ ((∀ n ∈ s.tb.nodes, n.leaf = true) →
            m.nodes.length = 2 * s.tb.leafCount - 1 ∧ r = 2 * s.tb.leafCount - 2
            ∧ m.nodes.countP (fun n => !n.leaf) = s.tb.leafCount - 1))

/-- TB_PEEK: BAD_STATE unless LOADING; else it reports the heap's minimum and changes nothing else
(41_tree_builder.md R166). -/
def Obligations.TbPeekReportsTheMinimum : Prop :=
  decodeWord 0x14000000#32 = .ok .tbPeek
  ∧ ∀ s : State,
    (s.tb.phase ≠ .loading → exec .tbPeek s = .next (failedWith s .badState))
    ∧ (s.Inv → s.tb.phase = .loading →
      ∃ m, IsHeapMin s.tb.nodes s.tb.heap m
        ∧ exec .tbPeek s = .next
          { s with result := nodeWords (nodeAt s.tb.nodes m) m, status := completionStatus s .noError })

/-- TB_READ_NODE: BAD_STATE for a handle that is not allocated; else the node's words of 41_tree_builder.md R151, and
nothing else changes (R167). -/
def Obligations.TbReadNodeReportsTheNode : Prop :=
  (∀ w : Word, (w &&& 0xFFFF0000#32) = 0x15000000#32 → decodeWord w = .ok (.tbReadNode (w.extractLsb' 0 16)))
  ∧ ∀ (handle : BitVec 16) (s : State),
    (s.tb.nodes.length ≤ handle.toNat → exec (.tbReadNode handle) s = .next (failedWith s .badState))
    ∧ ∀ n : Node, s.tb.nodes[handle.toNat]? = some n →
      exec (.tbReadNode handle) s = .next
        { s with
          result :=
            { r0 := (if n.leaf then 0x80#8 else 0x00#8) ++ BitVec.ofNat 24 n.minsym
              r1 := BitVec.ofNat 32 n.weight
              r2 := if n.leaf then 0#32 else BitVec.ofNat 16 n.right ++ BitVec.ofNat 16 n.left
              r3 := BitVec.ofNat 32 (n.weight / 2 ^ 32)
              r4 := 0#16 ++ handle },
          status := completionStatus s .noError }

/-- After a manual TB_MERGE, TB_BUILD performs only the merges left: the end is that of TB_BUILD alone
(41_tree_builder.md R162). -/
def Obligations.MergeThenBuildIsBuild : Prop :=
  ∀ s : State, s.tb.phase = .loading → 2 ≤ s.tb.heap.length →
    ∃ t u, exec .tbMerge s = .next t ∧ exec .tbBuild t = .next u ∧ exec .tbBuild s = .next u

/-- TB_BUILD's tree holds every inserted leaf once, no symbol twice, and exact weight sums (00_scope.md R16, R18;
41_tree_builder.md R160, R162, R170; 42_serializer.md R199). -/
def Obligations.TbBuildKeepsEveryLeafOnce : Prop :=
  ∀ s : State, s.Inv → s.tb.phase = .loading →
    ∃ t T, exec .tbBuild s = .next t ∧ builtTree t.tb = some T
      ∧ T.leafPairs.Perm ((s.tb.nodes.filter (fun n => n.leaf)).map (fun n => (n.minsym, n.weight)))
      ∧ T.symbols.Nodup ∧ (∀ x, x ∈ T.symbols ↔ x ∈ s.tb.seen)
      ∧ T.Exact ∧ T.weight < 2 ^ s.cfg.nw

/-- The built tree is a function of the multiset of (symbol, weight) pairs inserted: two builders that hold the same
leaves, no merge done, build the same labelled tree (41_tree_builder.md R168, R169). -/
def Obligations.InsertionOrderIsIrrelevant : Prop :=
  ∀ s s' : State, s.Inv → s'.Inv → s.cfg = s'.cfg → s.tb.phase = .loading → s'.tb.phase = .loading →
    (∀ n ∈ s.tb.nodes, n.leaf = true) → (∀ n ∈ s'.tb.nodes, n.leaf = true) →
    (s.tb.nodes.map (fun n => (n.minsym, n.weight))).Perm (s'.tb.nodes.map (fun n => (n.minsym, n.weight))) →
    ∃ t t' T, exec .tbBuild s = .next t ∧ exec .tbBuild s' = .next t'
      ∧ builtTree t.tb = some T ∧ builtTree t'.tb = some T

/-- The phase after each command (41_tree_builder.md R171); an error leaves the phase, but for CORRUPT_HEADER. -/
def Obligations.PhaseTransitions : Prop :=
  ∀ (i : Instr) (s t : State), exec i s = .next t →
    match i with
    | .softReset | .tbClear => t.tb.phase = .empty
    | .tbInsert _ =>
      if t.status.err = .noError then s.tb.phase ≠ .built ∧ t.tb.phase = .loading else t.tb.phase = s.tb.phase
    | .tbMerge | .tbPeek =>
      t.tb.phase = s.tb.phase ∧ (t.status.err = .noError → s.tb.phase = .loading)
    | .tbBuild =>
      if t.status.err = .noError then s.tb.phase = .loading ∧ t.tb.phase = .built else t.tb.phase = s.tb.phase
    | .tbReadNode _ => t.tb.phase = s.tb.phase ∧ (s.Inv → t.status.err = .noError → s.tb.phase ≠ .empty)
    | .serEmit => t.tb.phase = s.tb.phase ∧ (t.status.err = .noError → s.tb.phase = .built)
    | .serParse =>
      (t.status.err = .noError ∧ t.tb.phase = .built) ∨ (t.status.err = .corruptHeader ∧ t.tb.phase = .empty)
        ∨ (t.status.err = .capacity ∧ t.tb.phase = s.tb.phase)
    | .nop | .pkClear | .pkBits _ _ | .pkFlush | .pkDrain | .pkUnpack _ _ _ => t.tb.phase = s.tb.phase

/-- Allocated node entries never change until a tb_clear frees them all: a step keeps the store as a prefix, unless it is
a reset or the completion of TB_CLEAR, SOFT_RESET or SER_PARSE (10_state.md R52). -/
def Obligations.NodeEntriesNeverChange : Prop :=
  ∀ s t : State, step s = .next t →
    s.tb.nodes <+: t.tb.nodes ∨ s.sched.head? = some .reset
    ∨ (engineNext s ∧ s.status.busy = true
      ∧ (decodeWord s.lcmd = .ok .tbClear ∨ decodeWord s.lcmd = .ok .softReset ∨ decodeWord s.lcmd = .ok .serParse))

/-- The tree builder's registers: PHASE and its invariants (10_state.md R42), the counts and their bounds (R43), ROOT
(R44). -/
def Obligations.TreeBuilderRegisters : Prop :=
  (∀ s : State, s.Inv → s.status.busy = false →
    (busValue s 0x030 = 0#32 ∨ busValue s 0x030 = 1#32 ∨ busValue s 0x030 = 2#32)
    ∧ (busValue s 0x030 = 0#32 → s.tb.nodes = []
        ∧ busValue s 0x034 = 0#32 ∧ busValue s 0x038 = 0#32 ∧ busValue s 0x03C = 0#32)
    ∧ (busValue s 0x030 = 1#32 → 1 ≤ (busValue s 0x034).toNat)
    ∧ (busValue s 0x030 = 2#32 ↔ (busValue s 0x040).getLsbD 31 = true)
    ∧ (busValue s 0x030 = 2#32 → busValue s 0x034 = 0#32
        ∧ ∃ r, s.tb.root = some r ∧ r < s.tb.nodes.length ∧ (busValue s 0x040).toNat = 2 ^ 31 + r)
    ∧ (busValue s 0x030 ≠ 2#32 → busValue s 0x040 = 0#32)
    ∧ (busValue s 0x034).toNat = s.tb.heap.length ∧ s.tb.heap.length ≤ s.cfg.heapCap
    ∧ (busValue s 0x038).toNat = s.tb.nodes.countP (fun n => n.leaf) ∧ (busValue s 0x038).toNat ≤ s.cfg.maxLeaves
    ∧ (busValue s 0x03C).toNat = s.tb.nodes.length ∧ s.tb.nodes.length ≤ s.cfg.nodeCap
    ∧ (busValue s 0x03C).toNat - (busValue s 0x038).toNat = s.tb.nodes.countP (fun n => !n.leaf))
  ∧ (∀ (s : State) (v : Word), busWrite 0x030 v s = s ∧ busWrite 0x034 v s = s ∧ busWrite 0x038 v s = s
      ∧ busWrite 0x03C v s = s ∧ busWrite 0x040 v s = s)
  ∧ busValue State.reset 0x030 = 0#32 ∧ busValue State.reset 0x034 = 0#32 ∧ busValue State.reset 0x038 = 0#32
  ∧ busValue State.reset 0x03C = 0#32 ∧ busValue State.reset 0x040 = 0#32

/-! ### The serializer (spec/42_serializer.md) -/

/-- SER_EMIT: BAD_STATE unless BUILT; else the post-order header of the tree stands in HBUF from byte 0, its length
`L*(1+SB) + (L-1)` in HDR_LEN and RESULT0, and every other byte and register is unchanged (42_serializer.md R190 to
R193, R204). -/
def Obligations.SerEmitWritesTheHeader : Prop :=
  decodeWord 0x20000000#32 = .ok .serEmit
  ∧ ∀ s : State,
    (s.tb.phase ≠ .built → exec .serEmit s = .next (failedWith s .badState))
    ∧ (s.Inv → s.tb.phase = .built →
      ∃ T hbuf, builtTree s.tb = some T
        ∧ exec .serEmit s = .next
          { s with
            hbuf := hbuf,
            hdrLen := BitVec.ofNat 32 (T.header s.cfg.sb).length,
            result := { s.result with r0 := BitVec.ofNat 32 (T.header s.cfg.sb).length },
            status := completionStatus s .noError }
        ∧ (∀ j, j < (T.header s.cfg.sb).length → Memory.read hbuf j = (T.header s.cfg.sb)[j]?)
        ∧ (∀ j, (T.header s.cfg.sb).length ≤ j → Memory.read hbuf j = Memory.read s.hbuf j)
        ∧ (T.header s.cfg.sb).length = s.tb.leafCount * (1 + s.cfg.sb) + (s.tb.leafCount - 1)
        ∧ (T.header s.cfg.sb).length ≤ s.cfg.hbufSize)

/-- SER_PARSE: CAPACITY when HDR_LEN is above HBUF_SIZE, with nothing changed; a header of a tree with symbols in range
and at most MAX_LEAVES leaves is accepted, and the builder then holds that tree with all weights 0; any other bytes
are CORRUPT_HEADER and leave the builder empty (42_serializer.md R194 to R199). A byte nothing has written is a draw
(10_state.md R61; log entry 16). -/
def Obligations.SerParseAcceptsExactlyHeaders : Prop :=
  decodeWord 0x21000000#32 = .ok .serParse
  ∧ ∀ s : State,
    (s.cfg.hbufSize < s.hdrLen.toNat → exec .serParse s = .next (failedWith s .capacity))
    ∧ (implicitHeader s s.hdrLen.toNat).length = s.hdrLen.toNat
    ∧ (∀ j b, j < s.hdrLen.toNat → Memory.read s.hbuf j = some b →
        (implicitHeader s s.hdrLen.toNat)[j]? = some b)
    ∧ (s.cfg.Legal → s.hdrLen.toNat ≤ s.cfg.hbufSize →
      (∀ T : HufTree, T.header s.cfg.sb = implicitHeader s s.hdrLen.toNat → (∀ x ∈ T.symbols, x < 2 ^ s.cfg.symW) →
        T.leaves ≤ s.cfg.maxLeaves →
        ∃ tb r draws, exec .serParse s = .next
            { s with
              tb := tb, result := nodeWords (nodeAt tb.nodes r) r, status := completionStatus s .noError,
              draws := draws }
          ∧ tb.phase = .built ∧ tb.root = some r ∧ r = 2 * T.leaves - 2 ∧ tb.leafCount = T.leaves
          ∧ tb.nodes.length = 2 * T.leaves - 1 ∧ tb.heap = [] ∧ tb.seen = []
          ∧ builtTree tb = some T.zeroWeights ∧ ∀ n ∈ tb.nodes, n.weight = 0)
      ∧ ((¬ ∃ T : HufTree, T.header s.cfg.sb = implicitHeader s s.hdrLen.toNat
            ∧ (∀ x ∈ T.symbols, x < 2 ^ s.cfg.symW) ∧ T.leaves ≤ s.cfg.maxLeaves) →
        ∃ draws, exec .serParse s = .next
          { s with
            tb := { phase := .empty, leafCount := 0, root := none, nodes := [], heap := [], seen := [] },
            status := completionStatus s .corruptHeader, draws := draws }))

/-- The round trip, both ways: SER_EMIT then SER_PARSE gives the tree back with weights 0; and SER_EMIT after a
successful SER_PARSE writes exactly the bytes parsed (42_serializer.md R203). -/
def Obligations.HeaderRoundTrip : Prop :=
  (∀ s : State, s.Inv → s.tb.phase = .built →
    ∃ T t u, builtTree s.tb = some T ∧ exec .serEmit s = .next t ∧ exec .serParse t = .next u
      ∧ u.status.err = .noError ∧ builtTree u.tb = some T.zeroWeights)
  ∧ ∀ s t : State, s.Inv → exec .serParse s = .next t → t.status.err = .noError →
    ∃ u, exec .serEmit t = .next u ∧ u.status.err = .noError ∧ u.hdrLen = s.hdrLen
      ∧ ∀ j, j < s.hdrLen.toNat → Memory.read u.hbuf j = (implicitHeader s s.hdrLen.toNat)[j]?

/-! ### The bit packer (spec/43_bit_packer.md) -/

/-- PK_CLEAR: an empty open stream; PBUF contents and everything else unchanged (43_bit_packer.md R220). -/
def Obligations.PkClearOpensAStream : Prop :=
  decodeWord 0x30000000#32 = .ok .pkClear
  ∧ ∀ s : State, exec .pkClear s = .next
    { s with
      pk := { k := 0#3, acc := 0#8, closed := false, nbytes := 0, pad := 0#3 },
      status := completionStatus s .noError }

/-- PK_BITS: its errors, in order, and its effect, bit by bit: the waiting bits and the chunk's, first bit first, fill
bytes from the most significant bit; the full bytes are appended at PBUF[PK_NBYTES] and the rest waits
(43_bit_packer.md R221, R222). Nothing else changes. -/
def Obligations.PkBitsAppendsTheChunk : Prop :=
  (∀ w : Word, (w &&& 0xFFE00000#32) = 0x31000000#32 →
    decodeWord w = .ok (.pkBits (w.extractLsb' 16 5) (w.extractLsb' 0 16)))
  ∧ ∀ (n : BitVec 5) (d : BitVec 16) (s : State),
    (n.toNat = 0 ∨ 16 < n.toNat ∨ d.toNat / 2 ^ n.toNat ≠ 0 →
      exec (.pkBits n d) s = .next (failedWith s .illegalCommand))
    ∧ (1 ≤ n.toNat → n.toNat ≤ 16 → d.toNat < 2 ^ n.toNat →
      (s.pk.closed = true → exec (.pkBits n d) s = .next (failedWith s .badState))
      ∧ (s.pk.closed = false → s.cfg.pbufSize < s.pk.nbytes + (s.pk.k.toNat + n.toNat) / 8 →
          exec (.pkBits n d) s = .next (failedWith s .capacity))
      ∧ (s.pk.closed = false → s.pk.nbytes + (s.pk.k.toNat + n.toNat) / 8 ≤ s.cfg.pbufSize →
        let bits := waitingBits s.pk ++ chunkBits n d
        let nb := (s.pk.k.toNat + n.toNat) / 8
        ∃ pbuf, bits.length = s.pk.k.toNat + n.toNat
          ∧ exec (.pkBits n d) s = .next
            { s with
              pbuf := pbuf,
              pk := { s.pk with
                k := BitVec.ofNat 3 ((s.pk.k.toNat + n.toNat) % 8), acc := bitsByte (bits.drop (8 * nb)),
                nbytes := s.pk.nbytes + nb },
              status := completionStatus s .noError }
          ∧ (∀ j, j < nb → Memory.read pbuf (s.pk.nbytes + j) = some (bitsByte ((bits.drop (8 * j)).take 8)))
          ∧ ∀ a, (a < s.pk.nbytes ∨ s.pk.nbytes + nb ≤ a) → Memory.read pbuf a = Memory.read s.pbuf a))

/-- PK_FLUSH: BAD_STATE when closed; CAPACITY when a partial byte waits and PBUF is full; else the partial byte, if
any, is appended, PK_PAD and RESULT0 are `(8 - K) mod 8` and the stream is closed (43_bit_packer.md R223). Nothing else
changes. -/
def Obligations.PkFlushClosesTheStream : Prop :=
  decodeWord 0x32000000#32 = .ok .pkFlush
  ∧ ∀ s : State,
    (s.pk.closed = true → exec .pkFlush s = .next (failedWith s .badState))
    ∧ (s.pk.closed = false → s.pk.k ≠ 0#3 → s.pk.nbytes = s.cfg.pbufSize →
        exec .pkFlush s = .next (failedWith s .capacity))
    ∧ (s.pk.closed = false → s.pk.k = 0#3 → exec .pkFlush s = .next
        { s with
          pk := { s.pk with k := 0#3, acc := 0#8, closed := true, pad := 0#3 },
          result := { s.result with r0 := 0#32 }, status := completionStatus s .noError })
    ∧ (s.pk.closed = false → s.pk.k ≠ 0#3 → s.pk.nbytes < s.cfg.pbufSize →
      ∃ pbuf, exec .pkFlush s = .next
          { s with
            pbuf := pbuf,
            pk := { k := 0#3, acc := 0#8, closed := true, nbytes := s.pk.nbytes + 1,
                    pad := BitVec.ofNat 3 (8 - s.pk.k.toNat) },
            result := { s.result with r0 := BitVec.ofNat 32 (8 - s.pk.k.toNat) },
            status := completionStatus s .noError }
        ∧ Memory.read pbuf s.pk.nbytes = some s.pk.acc
        ∧ ∀ a, a ≠ s.pk.nbytes → Memory.read pbuf a = Memory.read s.pbuf a)

/-- PK_DRAIN: PK_NBYTES is 0 and nothing else changes (43_bit_packer.md R225). -/
def Obligations.PkDrainEmptiesPbuf : Prop :=
  decodeWord 0x33000000#32 = .ok .pkDrain
  ∧ ∀ s : State, exec .pkDrain s = .next
    { s with pk := { s.pk with nbytes := 0 }, status := completionStatus s .noError }

/-- PK_UNPACK: its errors, and the first `8 - pad` bits of the byte, right-aligned, in RESULT0 with their number in
RESULT1; no packer state is read or written (43_bit_packer.md R228, R230). -/
def Obligations.PkUnpackKeepsTheFirstBits : Prop :=
  (∀ w : Word, (w &&& 0xFFFE0000#32) = 0x34000000#32 →
    decodeWord w = .ok (.pkUnpack (w.getLsbD 16) (w.extractLsb' 8 8) (w.extractLsb' 0 8)))
  ∧ ∀ (pad byte : Byte) (s : State),
    (pad ≠ 0#8 → exec (.pkUnpack false pad byte) s = .next (failedWith s .illegalCommand))
    ∧ (8 ≤ pad.toNat → exec (.pkUnpack true pad byte) s = .next (failedWith s .malformedContainer))
    ∧ exec (.pkUnpack false 0#8 byte) s = .next
        { s with
          result := { s.result with r0 := BitVec.ofNat 32 byte.toNat, r1 := 8#32 },
          status := completionStatus s .noError }
    ∧ (pad.toNat < 8 →
        exec (.pkUnpack true pad byte) s = .next
          { s with
            result := { s.result with
              r0 := BitVec.ofNat 32 (byte.toNat / 2 ^ pad.toNat), r1 := BitVec.ofNat 32 (8 - pad.toNat) },
            status := completionStatus s .noError }
        ∧ lowBits (8 - pad.toNat) (BitVec.ofNat 32 (byte.toNat / 2 ^ pad.toNat))
            = (byteBits byte).take (8 - pad.toNat))

/-- A stream is closed by a successful PK_FLUSH alone and opened again by PK_CLEAR, SOFT_RESET or reset alone; while
closed, PK_BITS and PK_FLUSH raise BAD_STATE and the other packer commands behave as when it is open
(43_bit_packer.md R226). -/
def Obligations.StreamStateChanges : Prop :=
  (∀ s t : State, step s = .next t →
    (s.pk.closed = false → t.pk.closed = true →
      engineNext s ∧ s.status.busy = true ∧ decodeWord s.lcmd = .ok .pkFlush ∧ t.status.err = .noError)
    ∧ (s.pk.closed = true → t.pk.closed = false →
      s.sched.head? = some .reset
      ∨ (engineNext s ∧ s.status.busy = true
        ∧ (decodeWord s.lcmd = .ok .pkClear ∨ decodeWord s.lcmd = .ok .softReset))))
  ∧ (∀ s t : State, exec .pkFlush s = .next t → t.status.err = .noError → t.pk.closed = true)
  ∧ ∀ s : State, s.pk.closed = true →
    (∀ n d, 1 ≤ n.toNat → n.toNat ≤ 16 → d.toNat < 2 ^ n.toNat →
      exec (.pkBits n d) s = .next (failedWith s .badState))
    ∧ exec .pkFlush s = .next (failedWith s .badState)
    ∧ exec .pkClear s = exec .pkClear { s with pk := { s.pk with closed := false } }
    ∧ ∀ i, (i = .pkDrain ∨ ∃ last pad byte, i = .pkUnpack last pad byte) →
      ∃ t, exec i s = .next t
        ∧ exec i { s with pk := { s.pk with closed := false } }
          = .next { t with pk := { t.pk with closed := false } }

/-- PBUF_SIZE >= 2 guarantees that after a PK_DRAIN every PK_BITS and every PK_FLUSH fits (43_bit_packer.md R234). -/
def Obligations.RoomAfterDrain : Prop :=
  ∀ s : State, s.cfg.Legal → s.pk.closed = false →
    ∃ t, exec .pkDrain s = .next t
      ∧ (∀ n d, 1 ≤ n.toNat → n.toNat ≤ 16 → d.toNat < 2 ^ n.toNat →
          ∃ u, exec (.pkBits n d) t = .next u ∧ u.status.err = .noError ∧ u.pk.nbytes ≤ s.cfg.pbufSize)
      ∧ ∃ u, exec .pkFlush t = .next u ∧ u.status.err = .noError ∧ u.pk.nbytes ≤ s.cfg.pbufSize

/-- A stream of successful PK_BITS, drained anywhere, then flushed, packs its bits as HUF's `pack` does: the bytes the
host collects, and PK_PAD the padding count; a PK_BITS or PK_FLUSH that fails with CAPACITY changes nothing
(43_bit_packer.md R224, R227). -/
def Obligations.PackedStreamIsHufPack : Prop :=
  (∀ (s s0 s1 s2 : State) (ops : List StreamOp) (got : List Byte),
    exec .pkClear s = .next s0 → runStream ops s0 [] = some (s1, got) → runsTo .pkFlush s1 = some s2 →
    got ++ packedBytes s2 = hufPack (streamBits ops)
    ∧ s1.pk.k.toNat = (streamBits ops).length % 8
    ∧ s2.pk.pad.toNat = hufPad (streamBits ops)
    ∧ (got ++ packedBytes s2).length = ((streamBits ops).length + 7) / 8)
  ∧ ∀ (i : Instr) (s t : State), (i = .pkFlush ∨ ∃ n d, i = .pkBits n d) →
    exec i s = .next t → t.status.err = .capacity → t = failedWith s .capacity

/-- Unpacking a payload byte by byte with PK_UNPACK gives HUF's `unpack`, for a padding count of at most 7
(43_bit_packer.md R229). -/
def Obligations.UnpackingIsHufUnpack : Prop :=
  ∀ (bytes : List Byte) (pad : Byte) (s : State), bytes ≠ [] → pad.toNat ≤ 7 →
    runUnpack pad bytes s = some (hufUnpack bytes pad.toNat)

/-- Unpacking the bytes of a packed stream with its padding count gives the stream's bits back
(43_bit_packer.md R232). -/
def Obligations.UnpackInvertsPack : Prop :=
  ∀ (s s0 s1 s2 u : State) (ops : List StreamOp) (got : List Byte),
    exec .pkClear s = .next s0 → runStream ops s0 [] = some (s1, got) → runsTo .pkFlush s1 = some s2 →
    runUnpack (0#5 ++ s2.pk.pad) (got ++ packedBytes s2) u = some (streamBits ops)

/-- The packer's registers: PK_STATE's fields (10_state.md R46), the accumulator invariant (R47) and PK_NBYTES
(R48). -/
def Obligations.PackerRegisters : Prop :=
  (∀ s : State, s.status.busy = false →
    (busValue s 0x048).toNat = s.pk.k.toNat + 2 ^ 8 * s.pk.closed.toNat + 2 ^ 16 * s.pk.acc.toNat
    ∧ (busValue s 0x050).toNat = s.pk.pad.toNat
    ∧ (s.Inv →
      (∀ j, j < 8 - s.pk.k.toNat → s.pk.acc.getLsbD j = false)
      ∧ (s.pk.k = 0#3 → s.pk.acc = 0#8)
      ∧ (s.pk.closed = true → s.pk.k = 0#3 ∧ s.pk.acc = 0#8)
      ∧ (busValue s 0x04C).toNat = s.pk.nbytes ∧ s.pk.nbytes ≤ s.cfg.pbufSize
      ∧ (packedBytes s).length = s.pk.nbytes))
  ∧ (∀ (s : State) (v : Word), busWrite 0x048 v s = s ∧ busWrite 0x04C v s = s ∧ busWrite 0x050 v s = s)
  ∧ busValue State.reset 0x048 = 0#32 ∧ busValue State.reset 0x04C = 0#32 ∧ busValue State.reset 0x050 = 0#32

/-! ### Errors (spec/60_exceptions.md) -/

/-- Errors are precise: a command that raises one changes no state but STATUS, except that SER_PARSE with CORRUPT_HEADER
leaves the tree builder cleared (60_exceptions.md R253). Draws are the model's own (log entry 16). -/
def Obligations.ErrorsArePrecise : Prop :=
  ∀ (i : Instr) (s t : State), exec i s = .next t → t.status.err ≠ .noError →
    (t = failedWith s t.status.err ∧ ¬ (i = .serParse ∧ t.status.err = .corruptHeader))
    ∨ (i = .serParse ∧ t.status.err = .corruptHeader
      ∧ t = { s with
          tb := { phase := .empty, leafCount := 0, root := none, nodes := [], heap := [], seen := [] },
          status := completionStatus s .corruptHeader, draws := t.draws })

/-- UNKNOWN_SYMBOL and TRUNCATED_STREAM are never raised and ERRCODE is never 2, 3 or 10 to 15
(60_exceptions.md R251). -/
def Obligations.ErrcodeNeverUnknownOrTruncated : Prop :=
  (∀ s t : State, step s = .next t → s.status.err ≠ .unknownSymbol → s.status.err ≠ .truncatedStream →
    t.status.err ≠ .unknownSymbol ∧ t.status.err ≠ .truncatedStream)
  ∧ (∀ c : Config, (State.resetOf c).status.err ≠ .unknownSymbol ∧ (State.resetOf c).status.err ≠ .truncatedStream)
  ∧ ∀ st : Status, st.err ≠ .unknownSymbol → st.err ≠ .truncatedStream →
    ((statusWord st).extractLsb' 4 4).toNat ∉ [2, 3, 10, 11, 12, 13, 14, 15]

/-- The codes, and which command raises each, in which case (60_exceptions.md R250); CORRUPT_HEADER is raised for a
malformed token stream: the parse fails, and the bytes are no tree's header. A byte nothing has written is a draw
(log entry 16); a word that decodes to no command
is covered by `DecodingIsByMaskAndMatch`. -/
def Obligations.ErrorCausesAreTheTable : Prop :=
  ([ErrorCode.noError, .emptyAlphabet, .unknownSymbol, .truncatedStream, .corruptHeader, .malformedContainer,
      .illegalCommand, .duplicateSymbol, .capacity, .badState].map (fun e => e.code.toNat)
    = [0, 1, 2, 3, 4, 5, 6, 7, 8, 9])
  ∧ ∀ (i : Instr) (s t : State), exec i s = .next t →
    match t.status.err with
    | .noError => True
    | .emptyAlphabet => i = .tbBuild ∧ s.tb.phase = .empty
    | .unknownSymbol | .truncatedStream => False
    | .corruptHeader =>
      i = .serParse ∧ s.hdrLen.toNat ≤ s.cfg.hbufSize ∧ parseHeader s.cfg (implicitHeader s s.hdrLen.toNat) = none
      ∧ (s.cfg.Legal → ¬ ∃ T : HufTree, T.header s.cfg.sb = implicitHeader s s.hdrLen.toNat
          ∧ (∀ x ∈ T.symbols, x < 2 ^ s.cfg.symW) ∧ T.leaves ≤ s.cfg.maxLeaves)
    | .malformedContainer => ∃ pad byte, i = .pkUnpack true pad byte ∧ 8 ≤ pad.toNat
    | .illegalCommand =>
      (∃ sym, i = .tbInsert sym ∧ 2 ^ s.cfg.symW ≤ sym.toNat)
      ∨ (∃ n d, i = .pkBits n d ∧ (n.toNat = 0 ∨ 16 < n.toNat ∨ 2 ^ n.toNat ≤ d.toNat))
      ∨ (∃ pad byte, i = .pkUnpack false pad byte ∧ pad ≠ 0#8)
    | .duplicateSymbol => ∃ sym, i = .tbInsert sym ∧ sym.toNat ∈ s.tb.seen
    | .capacity =>
      (∃ sym, i = .tbInsert sym ∧ s.tb.leafCount = s.cfg.maxLeaves)
      ∨ (i = .serParse ∧ s.cfg.hbufSize < s.hdrLen.toNat)
      ∨ (∃ n d, i = .pkBits n d ∧ s.cfg.pbufSize < s.pk.nbytes + (s.pk.k.toNat + n.toNat) / 8)
      ∨ (i = .pkFlush ∧ s.pk.k ≠ 0#3 ∧ s.pk.nbytes = s.cfg.pbufSize)
    | .badState =>
      (∃ sym, i = .tbInsert sym ∧ s.tb.phase = .built)
      ∨ (i = .tbMerge ∧ (s.tb.phase ≠ .loading ∨ s.tb.heap.length < 2))
      ∨ (i = .tbBuild ∧ s.tb.phase = .built)
      ∨ (i = .tbPeek ∧ s.tb.phase ≠ .loading)
      ∨ (∃ h, i = .tbReadNode h ∧ s.tb.nodes.length ≤ h.toNat)
      ∨ (i = .serEmit ∧ s.tb.phase ≠ .built)
      ∨ (∃ n d, i = .pkBits n d ∧ s.pk.closed = true)
      ∨ (i = .pkFlush ∧ s.pk.closed = true)

/-! ### The whole machine -/

/-- What each command leaves unchanged, family by family: no command but those named writes a unit, a buffer, the result
registers, HDR_LEN or CTRL (10_state.md R36, R41, R45, R56, R57; 40_control.md R145; 41_tree_builder.md R158, R166;
42_serializer.md R193, R204; 43_bit_packer.md R220 to R228). -/
def Obligations.CommandsChangeOnlyTheirUnits : Prop :=
  ∀ (i : Instr) (s t : State), exec i s = .next t →
    (t.cfg = s.cfg ∧ t.ie = s.ie ∧ t.prog = s.prog ∧ t.sched = s.sched ∧ t.reads = s.reads)
    ∧ (i ≠ .softReset → t.cmd = s.cmd ∧ t.lcmd = s.lcmd ∧ t.wdata = s.wdata)
    ∧ (i ≠ .softReset → i ≠ .serEmit → t.hdrLen = s.hdrLen)
    ∧ (i ≠ .serEmit → ∀ a, Memory.read t.hbuf a = Memory.read s.hbuf a)
    ∧ (i ≠ .pkFlush → (∀ n d, i ≠ .pkBits n d) → ∀ a, Memory.read t.pbuf a = Memory.read s.pbuf a)
    ∧ (i ∉ [.softReset, .pkClear, .pkFlush, .pkDrain] → (∀ n d, i ≠ .pkBits n d) → t.pk = s.pk)
    ∧ (i ∉ [.softReset, .tbClear, .tbMerge, .tbBuild, .serParse] → (∀ sym, i ≠ .tbInsert sym) → t.tb = s.tb)
    ∧ (i ∈ [.nop, .tbClear, .pkClear, .pkDrain] ∨ (∃ n d, i = .pkBits n d) → t.result = s.result)
    ∧ (i = .serEmit ∨ i = .pkFlush → t.result = { s.result with r0 := t.result.r0 })
    ∧ ((∃ last pad byte, i = .pkUnpack last pad byte) →
        t.result = { s.result with r0 := t.result.r0, r1 := t.result.r1 })

/-- The invariant holds after reset, in every legal configuration and in the reference configuration. -/
def Obligations.InvHoldsAtReset : Prop :=
  (∀ c : Config, c.Legal → (State.resetOf c).Inv) ∧ State.reset.Inv

/-- Every step keeps the invariant: the canonical form of the buffers, the phase and ROOT invariants (10_state.md R42,
R44), the count bounds (R43), the heap order (R53), the strict tree (00_scope.md R17), the exact weights (R18;
41_tree_builder.md R170), the distinct keys (R153), the accumulator (10_state.md R47) and the error codes
(60_exceptions.md R251). -/
def Obligations.StepKeepsInv : Prop :=
  ∀ s t : State, s.Inv → step s = .next t → t.Inv

end
end

