-- ==== Sys2Proof/Laws/Heap.lean ====
section
/-! SUPPORT. What the heap operations do: each permutes the handles, `heap_insert` and `heap_extract` keep the min-heap
property, and slot 0 of an ordered heap is a minimum (spec/41_tree_builder.md R152, R155, R156). -/

namespace Sys2Proof.Machine

/-! ### The key order -/

theorem keyLt_iff (a b : Node) :
    keyLt a b = true ↔ a.weight < b.weight ∨ (a.weight = b.weight ∧ a.minsym < b.minsym) := by
  simp [keyLt]

theorem keyLt_false_iff (a b : Node) :
    keyLt a b = false ↔ b.weight < a.weight ∨ (a.weight = b.weight ∧ b.minsym ≤ a.minsym) := by
  rw [Bool.eq_false_iff, ne_eq, keyLt_iff]
  omega

/-- "Not lt" is transitive: `c` is no smaller than `b`, `b` no smaller than `a`, so `c` no smaller than `a`. -/
theorem keyLt_false_trans {a b c : Node} (h₁ : keyLt b a = false) (h₂ : keyLt c b = false) :
    keyLt c a = false := by
  rw [keyLt_false_iff] at *
  omega

theorem keyLt_asymm {a b : Node} (h : keyLt a b = true) : keyLt b a = false := by
  rw [keyLt_iff] at h
  rw [keyLt_false_iff]
  omega

@[simp] theorem keyLt_self (a : Node) : keyLt a a = false := by
  rw [keyLt_false_iff]
  omega

/-! ### Slots -/

theorem slotAt_eq (heap : List Nat) (i : Nat) (h : i < heap.length) : slotAt heap i = heap[i] := by
  simp [slotAt, h]

@[simp] theorem swapSlots_length (heap : List Nat) (i j : Nat) : (swapSlots heap i j).length = heap.length := by
  simp [swapSlots]

/-- The slots after a swap. -/
theorem slotAt_swapSlots (heap : List Nat) (i j k : Nat) (hi : i < heap.length) (hj : j < heap.length) :
    slotAt (swapSlots heap i j) k
      = if k = j then slotAt heap i else if k = i then slotAt heap j else slotAt heap k := by
  unfold swapSlots slotAt
  rw [List.getElem?_set, List.getElem?_set]
  by_cases hkj : k = j
  · subst hkj; simp [hj]
  · by_cases hki : k = i
    · subst hki; simp [hi, hkj, Ne.symm hkj]
    · simp [hkj, hki, Ne.symm hkj, Ne.symm hki]

/-- A swap permutes the handles. -/
theorem swapSlots_perm (heap : List Nat) (i j : Nat) (hi : i < heap.length) (hj : j < heap.length) :
    (swapSlots heap i j).Perm heap := by
  unfold swapSlots
  rw [slotAt_eq _ _ hi, slotAt_eq _ _ hj]
  rw [List.perm_iff_count]
  intro x
  by_cases hij : i = j
  · subst hij; simp
  · have hc := List.count_set (l := heap.set i heap[j]) (i := j) (a := heap[i]) (b := x) (by simpa using hj)
    have hc' := List.count_set (l := heap) (i := i) (a := heap[j]) (b := x) hi
    have hji : (heap.set i heap[j])[j]'(by simpa using hj) = heap[j] := by
      rw [List.getElem_set_ne hij]
    rw [hc, hji, hc']
    have h1 : heap[i] = x → 1 ≤ heap.count x := fun h => List.count_pos_iff.2 (h ▸ List.getElem_mem hi)
    by_cases ha : heap[i] = x <;> by_cases hb : heap[j] = x <;> simp [ha, hb]
    all_goals have := h1 ha; omega

/-! ### Sift up -/

theorem siftUp_perm (nodes : List Node) (fuel : Nat) (heap : List Nat) (i : Nat) (hi : i < heap.length) :
    (siftUp nodes fuel heap i).Perm heap := by
  induction fuel generalizing heap i with
  | zero => exact .refl _
  | succ fuel ih =>
    unfold siftUp
    split
    · have hp : (i - 1) / 2 < heap.length := by omega
      exact (ih _ _ (by simpa using hp)).trans (swapSlots_perm heap _ _ hi hp)
    · exact .refl _

/-- `heap_insert` adds the handle to the others. -/
theorem heapInsert_perm (nodes : List Node) (heap : List Nat) (h : Nat) :
    (heapInsert nodes heap h).Perm (h :: heap) := by
  refine (siftUp_perm nodes _ _ _ (by simp)).trans ?_
  exact List.perm_append_singleton h heap

@[simp] theorem heapInsert_length (nodes : List Node) (heap : List Nat) (h : Nat) :
    (heapInsert nodes heap h).length = heap.length + 1 := by
  simpa using (heapInsert_perm nodes heap h).length_eq

/-- Every slot but `i` is ordered with its parent, and the children of `i` are no smaller than the parent of `i`: what
the loop of `heap_insert` keeps. -/
def UpOrdered (nodes : List Node) (heap : List Nat) (i : Nat) : Prop :=
  (∀ j, 0 < j → j < heap.length → j ≠ i → slotLt nodes heap j ((j - 1) / 2) = false)
  ∧ (0 < i → ∀ j, 0 < j → j < heap.length → (j - 1) / 2 = i → slotLt nodes heap j ((i - 1) / 2) = false)

theorem siftUp_ordered (nodes : List Node) (fuel : Nat) (heap : List Nat) (i : Nat) (hi : i < heap.length)
    (hf : i ≤ fuel) (h : UpOrdered nodes heap i) : HeapOrdered nodes (siftUp nodes fuel heap i) := by
  induction fuel generalizing heap i with
  | zero =>
    obtain rfl : i = 0 := by omega
    exact fun j h0 hj => h.1 j h0 hj (by omega)
  | succ fuel ih =>
    unfold siftUp
    split
    · next hc =>
      obtain ⟨h0, hlt⟩ := hc
      have hp : (i - 1) / 2 < heap.length := by omega
      refine ih _ _ (by simpa using hp) (by omega) ⟨fun j hj0 hj hjne => ?_, fun hp0 j hj0 hj hjp => ?_⟩
      · rw [swapSlots_length] at hj
        unfold slotLt at hlt ⊢
        rw [slotAt_swapSlots _ _ _ _ hi hp, slotAt_swapSlots _ _ _ _ hi hp]
        by_cases hji : j = i
        · subst hji
          rw [if_neg hjne, if_pos rfl, if_pos rfl]
          exact keyLt_asymm hlt
        · rw [if_neg hjne, if_neg hji]
          by_cases hpar : (j - 1) / 2 = (i - 1) / 2
          · rw [if_pos hpar]
            have := h.1 j hj0 hj hji
            unfold slotLt at this
            rw [hpar] at this
            exact keyLt_false_trans (keyLt_asymm hlt) this
          · rw [if_neg hpar]
            by_cases hpi : (j - 1) / 2 = i
            · rw [if_pos hpi]
              exact h.2 h0 j hj0 hj hpi
            · rw [if_neg hpi]
              exact h.1 j hj0 hj hji
      · rw [swapSlots_length] at hj
        have hj' := h.1 j hj0 hj
        have hpp := h.1 ((i - 1) / 2) hp0 hp (by omega)
        unfold slotLt at hlt hj' hpp ⊢
        rw [slotAt_swapSlots _ _ _ _ hi hp, slotAt_swapSlots _ _ _ _ hi hp]
        rw [if_neg (by omega : ¬ j = (i - 1) / 2), if_neg (by omega : ¬ ((i - 1) / 2 - 1) / 2 = (i - 1) / 2),
          if_neg (by omega : ¬ ((i - 1) / 2 - 1) / 2 = i)]
        by_cases hji : j = i
        · rw [if_pos hji]; exact hpp
        · rw [if_neg hji]
          have := hj' hji
          rw [hjp] at this
          exact keyLt_false_trans hpp this
    · next hc =>
      intro j hj0 hj
      by_cases hji : j = i
      · subst hji
        by_contra hne
        exact hc ⟨hj0, by simpa using hne⟩
      · exact h.1 j hj0 hj hji

/-- `heap_insert` keeps the min-heap property (41_tree_builder.md R155). -/
theorem heapInsert_ordered (nodes : List Node) (heap : List Nat) (h : Nat) (ho : HeapOrdered nodes heap) :
    HeapOrdered nodes (heapInsert nodes heap h) := by
  refine siftUp_ordered nodes _ _ _ (by simp) (Nat.le_refl _) ⟨fun j hj0 hj hjne => ?_, fun _ j _ hj hjp => ?_⟩
  · have hj' : j < heap.length := by simp at hj; omega
    have := ho j hj0 hj'
    unfold slotLt slotAt at this ⊢
    rwa [List.getElem?_append_left hj', List.getElem?_append_left (by omega)]
  · simp at hj; omega

/-! ### Sift down -/

/-- The chosen slot is in the heap, and is `i` or one of its children. -/
theorem smallestChild_cases (nodes : List Node) (heap : List Nat) (i : Nat) :
    smallestChild nodes heap i = i
    ∨ (smallestChild nodes heap i = 2 * i + 1 ∧ 2 * i + 1 < heap.length)
    ∨ (smallestChild nodes heap i = 2 * i + 2 ∧ 2 * i + 2 < heap.length) := by
  unfold smallestChild
  split <;> rename_i h1 <;> dsimp only <;> split <;> rename_i h2 <;> simp_all

/-- The chosen slot's key is lt that of `i` when it is a child. -/
theorem smallestChild_lt (nodes : List Node) (heap : List Nat) (i : Nat) (h : smallestChild nodes heap i ≠ i) :
    slotLt nodes heap (smallestChild nodes heap i) i = true := by
  unfold smallestChild at *
  by_cases h1 : 2 * i + 1 < heap.length ∧ slotLt nodes heap (2 * i + 1) i = true
  · have a := h1.2
    simp only [if_pos h1] at h ⊢
    split
    · next h2 =>
      have b := h2.2
      unfold slotLt at *
      rw [keyLt_iff] at *
      omega
    · exact a
  · simp only [if_neg h1] at h ⊢
    split
    · next h2 => exact h2.2
    · next h2 => rw [if_neg h2] at h; exact absurd rfl h

/-- No child of `i`, and not `i` itself, is lt the chosen slot. -/
theorem smallestChild_min (nodes : List Node) (heap : List Nat) (i : Nat) :
    (∀ j, 0 < j → j < heap.length → (j - 1) / 2 = i → slotLt nodes heap j (smallestChild nodes heap i) = false)
    ∧ slotLt nodes heap i (smallestChild nodes heap i) = false := by
  have key : ∀ j, (j = i ∨ (j < heap.length ∧ (j = 2 * i + 1 ∨ j = 2 * i + 2))) →
      slotLt nodes heap j (smallestChild nodes heap i) = false := by
    intro j hj
    unfold smallestChild
    by_cases h1 : 2 * i + 1 < heap.length ∧ slotLt nodes heap (2 * i + 1) i = true
    · simp only [h1, and_self, if_true]
      by_cases h2 : 2 * i + 2 < heap.length ∧ slotLt nodes heap (2 * i + 2) (2 * i + 1) = true
      · simp only [h2, and_self, if_true]
        have a := h1.2; have b := h2.2
        unfold slotLt at *
        rw [keyLt_iff] at a b
        rw [keyLt_false_iff]
        rcases hj with rfl | ⟨_, rfl | rfl⟩ <;> omega
      · simp only [h2, if_false]
        have a := h1.2
        have b : 2 * i + 2 < heap.length → slotLt nodes heap (2 * i + 2) (2 * i + 1) = false := by
          intro hl; by_contra hn; exact h2 ⟨hl, by simpa using hn⟩
        unfold slotLt at *
        rw [keyLt_iff] at a
        rcases hj with rfl | ⟨hl, rfl | rfl⟩
        · rw [keyLt_false_iff]; omega
        · exact keyLt_self _
        · exact b hl
    · simp only [h1, if_false]
      have a : 2 * i + 1 < heap.length → slotLt nodes heap (2 * i + 1) i = false := by
        intro hl; by_contra hn; exact h1 ⟨hl, by simpa using hn⟩
      by_cases h2 : 2 * i + 2 < heap.length ∧ slotLt nodes heap (2 * i + 2) i = true
      · simp only [h2, and_self, if_true]
        have b := h2.2
        unfold slotLt at *
        rcases hj with rfl | ⟨hl, rfl | rfl⟩
        · exact keyLt_asymm b
        · exact keyLt_false_trans (keyLt_asymm b) (a hl)
        · exact keyLt_self _
      · simp only [h2, if_false]
        have b : 2 * i + 2 < heap.length → slotLt nodes heap (2 * i + 2) i = false := by
          intro hl; by_contra hn; exact h2 ⟨hl, by simpa using hn⟩
        rcases hj with rfl | ⟨hl, rfl | rfl⟩
        · unfold slotLt; exact keyLt_self _
        · exact a hl
        · exact b hl
  refine ⟨fun j hj0 hj hp => key j (.inr ⟨hj, ?_⟩), key i (.inl rfl)⟩
  omega

theorem siftDown_perm (nodes : List Node) (fuel : Nat) (heap : List Nat) (i : Nat) (hi : i < heap.length) :
    (siftDown nodes fuel heap i).Perm heap := by
  induction fuel generalizing heap i with
  | zero => exact .refl _
  | succ fuel ih =>
    unfold siftDown
    split
    · exact .refl _
    · next hne =>
      have hs : smallestChild nodes heap i < heap.length := by
        rcases smallestChild_cases nodes heap i with h | h | h <;> omega
      exact (ih _ _ (by simpa using hs)).trans (swapSlots_perm heap _ _ hi hs)

/-- Every slot whose parent is not `i` is ordered with it, and the children of `i` are no smaller than the parent of
`i`: what the loop of `heap_extract` keeps. -/
def DownOrdered (nodes : List Node) (heap : List Nat) (i : Nat) : Prop :=
  (∀ j, 0 < j → j < heap.length → (j - 1) / 2 ≠ i → slotLt nodes heap j ((j - 1) / 2) = false)
  ∧ (0 < i → ∀ j, 0 < j → j < heap.length → (j - 1) / 2 = i → slotLt nodes heap j ((i - 1) / 2) = false)

theorem siftDown_ordered (nodes : List Node) (fuel : Nat) (heap : List Nat) (i : Nat) (hi : i < heap.length)
    (hf : heap.length ≤ fuel + i) (h : DownOrdered nodes heap i) :
    HeapOrdered nodes (siftDown nodes fuel heap i) := by
  induction fuel generalizing heap i with
  | zero => omega
  | succ fuel ih =>
    unfold siftDown
    split
    · next heq =>
      intro j hj0 hj
      by_cases hp : (j - 1) / 2 = i
      · have := (smallestChild_min nodes heap i).1 j hj0 hj hp
        rw [heq] at this
        rwa [hp]
      · exact h.1 j hj0 hj hp
    · next hne =>
      have hlt := smallestChild_lt nodes heap i hne
      have hmin := (smallestChild_min nodes heap i).1
      have hcase := smallestChild_cases nodes heap i
      generalize smallestChild nodes heap i = c at *
      have hs : c < heap.length := by omega
      have hpc : (c - 1) / 2 = i := by omega
      have hci : i < c := by omega
      refine ih _ _ (by simpa using hs) (by simp; omega) ⟨fun j hj0 hj hjne => ?_, fun _ j hj0 hj hjp => ?_⟩
      · rw [swapSlots_length] at hj
        unfold slotLt at hlt ⊢
        rw [slotAt_swapSlots _ _ _ _ hi hs, slotAt_swapSlots _ _ _ _ hi hs, if_neg hjne]
        by_cases hjc : j = c
        · subst hjc
          rw [if_pos rfl, if_pos hpc]
          exact keyLt_asymm hlt
        · rw [if_neg hjc]
          by_cases hji : j = i
          · subst hji
            rw [if_pos rfl, if_neg (by omega)]
            exact h.2 hj0 c (by omega) hs hpc
          · rw [if_neg hji]
            by_cases hp : (j - 1) / 2 = i
            · rw [if_pos hp]
              exact hmin j hj0 hj hp
            · rw [if_neg hp]
              exact h.1 j hj0 hj hp
      · rw [swapSlots_length] at hj
        have := h.1 j hj0 hj (by omega)
        unfold slotLt at this hlt ⊢
        rw [slotAt_swapSlots _ _ _ _ hi hs, slotAt_swapSlots _ _ _ _ hi hs, if_neg (by omega), if_neg (by omega),
          if_neg (by omega), if_pos hpc]
        rwa [hjp] at this

/-- Slot 0 of an ordered heap is a minimum: no entry is lt it. -/
theorem heap_min (nodes : List Node) (heap : List Nat) (ho : HeapOrdered nodes heap) (i : Nat)
    (hi : i < heap.length) : slotLt nodes heap i 0 = false := by
  induction i using Nat.strong_induction_on with
  | _ i ih =>
    by_cases h0 : i = 0
    · subst h0; unfold slotLt; exact keyLt_self _
    · have h1 := ih ((i - 1) / 2) (by omega) (by omega)
      have h2 := ho i (by omega) hi
      unfold slotLt at *
      exact keyLt_false_trans h1 h2

/-- The heap with its last handle moved to slot 0 is the old one without slot 0. -/
theorem moveLast_perm (heap : List Nat) (h : 2 ≤ heap.length) :
    ((heap.set 0 (slotAt heap (heap.length - 1))).take (heap.length - 1)).Perm heap.tail := by
  obtain ⟨x, xs, rfl⟩ : ∃ x xs, heap = x :: xs := by
    cases heap with
    | nil => simp at h
    | cons x xs => exact ⟨x, xs, rfl⟩
  obtain ⟨ys, y, rfl⟩ : ∃ ys y, xs = ys ++ [y] := by
    rcases List.eq_nil_or_concat xs with rfl | ⟨ys, y, rfl⟩
    · simp at h
    · exact ⟨ys, y, by simp⟩
  have : slotAt (x :: (ys ++ [y])) ((x :: (ys ++ [y])).length - 1) = y := by simp [slotAt]
  rw [this]
  simp
  exact (List.perm_append_singleton y ys).symm

/-- `heap_extract` splits the heap into the handle it returns and the heap it leaves. -/
theorem heapExtract_perm (nodes : List Node) (heap : List Nat) (h : heap ≠ []) :
    heap.Perm (slotAt heap 0 :: heapRest nodes heap) := by
  obtain ⟨x, xs, rfl⟩ : ∃ x xs, heap = x :: xs := by
    cases heap with
    | nil => exact absurd rfl h
    | cons x xs => exact ⟨x, xs, rfl⟩
  have h0 : slotAt (x :: xs) 0 = x := by simp [slotAt]
  rw [h0]
  refine List.Perm.cons x ?_
  unfold heapRest
  split
  · next hl =>
    have hm := moveLast_perm (x :: xs) (by simp at hl ⊢; omega)
    exact (((siftDown_perm nodes _ _ _ (by simp at hl ⊢; omega)).trans hm).symm)
  · next hl =>
    have : xs = [] := by cases xs <;> simp_all
    subst this
    exact .refl _

@[simp] theorem heapRest_length (nodes : List Node) (heap : List Nat) :
    (heapRest nodes heap).length = heap.length - 1 := by
  cases heap with
  | nil => simp [heapRest]
  | cons x xs =>
    have := (heapExtract_perm nodes (x :: xs) (by simp)).length_eq
    simp at this ⊢
    omega

/-- `heap_extract` keeps the min-heap property (41_tree_builder.md R156). -/
theorem heapRest_ordered (nodes : List Node) (heap : List Nat) (ho : HeapOrdered nodes heap) :
    HeapOrdered nodes (heapRest nodes heap) := by
  unfold heapRest
  split
  · next hl =>
    have hlen : ((heap.set 0 (slotAt heap (heap.length - 1))).take (heap.length - 1)).length = heap.length - 1 := by
      simp
    refine siftDown_ordered nodes _ _ _ (by rw [hlen]; exact hl) (by rw [hlen]; omega)
      ⟨fun j hj0 hj hp => ?_, fun h => absurd h (by omega)⟩
    rw [hlen] at hj
    have := ho j hj0 (by omega)
    unfold slotLt slotAt at this ⊢
    rw [List.getElem?_take_of_lt hj, List.getElem?_take_of_lt (by omega), List.getElem?_set_ne (by omega),
      List.getElem?_set_ne (by omega)]
    exact this
  · intro j _ hj
    simp at hj

/-- The handle that `heap_extract` returns: no entry of the heap is lt it. -/
theorem heapExtract_min (nodes : List Node) (heap : List Nat) (ho : HeapOrdered nodes heap) (h : Nat)
    (hh : h ∈ heap) : keyLt (nodeAt nodes h) (nodeAt nodes (slotAt heap 0)) = false := by
  obtain ⟨i, hi, rfl⟩ := List.getElem_of_mem hh
  have := heap_min nodes heap ho i hi
  unfold slotLt at this
  rwa [slotAt_eq heap i hi] at this

end Sys2Proof.Machine
end

