-- ==== Sys2Proof/Laws/Forest.lean ====
section
/-! SUPPORT. The node store as a forest: what adding a leaf and adding a parent keep, for the tree builder and for the
parser alike (spec/00_scope.md R16 to R18; 41_tree_builder.md R154). -/

namespace Sys2Proof.Machine

/-! ### The store grows at its end -/

theorem nodeAt_eq (nodes : List Node) (h : Nat) (hh : h < nodes.length) : nodeAt nodes h = nodes[h] := by
  simp [nodeAt, hh]

theorem nodeAt_append_left (nodes : List Node) (n : Node) (h : Nat) (hh : h < nodes.length) :
    nodeAt (nodes ++ [n]) h = nodeAt nodes h := by
  simp [nodeAt, List.getElem?_append_left hh]

@[simp] theorem nodeAt_append_last (nodes : List Node) (n : Node) : nodeAt (nodes ++ [n]) nodes.length = n := by
  simp [nodeAt]

theorem getElem?_nodeAt (nodes : List Node) (h : Nat) (n : Node) (hn : nodes[h]? = some n) :
    h < nodes.length ∧ nodeAt nodes h = n := by
  obtain ⟨hh, rfl⟩ := List.getElem?_eq_some_iff.1 hn
  exact ⟨hh, nodeAt_eq nodes h hh⟩

theorem childHandles_append (nodes : List Node) (n : Node) :
    childHandles (nodes ++ [n]) = childHandles nodes ++ (if n.leaf then [] else [n.left, n.right]) := by
  simp [childHandles]

/-- Handles below NODE_COUNT keep their keys when the store grows, so the heap stays ordered. -/
theorem heapOrdered_append (nodes : List Node) (n : Node) (heap : List Nat)
    (hb : ∀ h ∈ heap, h < nodes.length) : HeapOrdered (nodes ++ [n]) heap ↔ HeapOrdered nodes heap := by
  have key : ∀ i, 0 < i → i < heap.length →
      slotLt (nodes ++ [n]) heap i ((i - 1) / 2) = slotLt nodes heap i ((i - 1) / 2) := by
    intro i h0 hi
    have hp : (i - 1) / 2 < heap.length := by omega
    unfold slotLt
    rw [slotAt_eq heap i hi, slotAt_eq heap _ hp, nodeAt_append_left _ _ _ (hb _ (List.getElem_mem hi)),
      nodeAt_append_left _ _ _ (hb _ (List.getElem_mem hp))]
  exact ⟨fun h i h0 hi => by rw [← key i h0 hi]; exact h i h0 hi,
    fun h i h0 hi => by rw [key i h0 hi]; exact h i h0 hi⟩

/-! ### The forest -/

/-- The store `nodes` is a forest with the given roots: the node-store part of the tree builder's invariant. -/
structure Forest (c : Config) (nodes : List Node) (roots : List Nat) (leaves : Nat) : Prop where
  counted : leaves = nodes.countP (fun n => n.leaf)
  handles : (childHandles nodes ++ roots).Perm (List.range nodes.length)
  children : ∀ (h : Nat) (n : Node), nodes[h]? = some n → n.leaf = false → n.left < h ∧ n.right < h
  parents : ∀ (h : Nat) (n : Node), nodes[h]? = some n → n.leaf = false →
    n.minsym = min (nodeAt nodes n.left).minsym (nodeAt nodes n.right).minsym
    ∧ n.weight = (nodeAt nodes n.left).weight + (nodeAt nodes n.right).weight
  widths : ∀ n ∈ nodes, n.minsym < 2 ^ c.symW ∧ n.weight < 2 ^ c.nw
  weightSum : (roots.map (fun h => (nodeAt nodes h).weight)).sum ≤ leaves * (2 ^ c.lw - 1)

theorem Forest.nil (c : Config) : Forest c [] [] 0 where
  counted := rfl
  handles := .refl _
  children := by simp
  parents := by simp
  widths := by simp
  weightSum := by simp

variable {c : Config} {nodes : List Node} {roots : List Nat} {leaves : Nat}

theorem Forest.root_lt (f : Forest c nodes roots leaves) {h : Nat} (hh : h ∈ roots) : h < nodes.length := by
  have := f.handles.mem_iff (a := h)
  simp [hh] at this
  exact this

theorem Forest.root_mem (f : Forest c nodes roots leaves) {h : Nat} (hh : h ∈ roots) : nodeAt nodes h ∈ nodes := by
  rw [nodeAt_eq _ _ (f.root_lt hh)]
  exact List.getElem_mem _

/-- The roots may be listed in any order. -/
theorem Forest.perm (f : Forest c nodes roots leaves) {roots' : List Nat} (p : roots'.Perm roots) :
    Forest c nodes roots' leaves :=
  { f with
    handles := (List.Perm.append_left _ p).trans f.handles
    weightSum := by rw [(p.map _).sum_eq]; exact f.weightSum }

theorem countP_childHandles (nodes : List Node) :
    (childHandles nodes).length + 2 * nodes.countP (fun n => n.leaf) = 2 * nodes.length := by
  induction nodes with
  | nil => rfl
  | cons n ns ih =>
    have : childHandles (n :: ns) = (if n.leaf then [] else [n.left, n.right]) ++ childHandles ns := by
      simp [childHandles]
    rw [this, List.countP_cons]
    cases hl : n.leaf <;> simp <;> omega

/-- NODE_COUNT + roots = 2 LEAF_COUNT: a forest of strict binary trees (41_tree_builder.md R165). -/
theorem Forest.count (f : Forest c nodes roots leaves) : nodes.length + roots.length = 2 * leaves := by
  have h1 := f.handles.length_eq
  have h2 := countP_childHandles nodes
  have h3 := f.counted
  simp at h1
  omega

theorem two_pow_nw (c : Config) : c.maxLeaves * 2 ^ c.lw ≤ 2 ^ c.nw := by
  have h : c.maxLeaves ≤ 2 ^ Config.ceilLog2 c.maxLeaves := by
    unfold Config.ceilLog2
    split
    · simpa using ‹_›
    · have := Nat.lt_log2_self (n := c.maxLeaves - 1)
      omega
  rw [Config.nw, Nat.add_comm, Nat.pow_add]
  exact Nat.mul_le_mul_right _ h

/-- No weight sum of roots reaches 2^NW (41_tree_builder.md R170). -/
theorem Forest.sum_lt (f : Forest c nodes roots leaves) (hm : 0 < c.maxLeaves) (hl : leaves ≤ c.maxLeaves) :
    (roots.map (fun h => (nodeAt nodes h).weight)).sum < 2 ^ c.nw := by
  have h1 := f.weightSum
  have h2 : leaves * (2 ^ c.lw - 1) ≤ c.maxLeaves * (2 ^ c.lw - 1) := Nat.mul_le_mul_right _ hl
  have h3 : c.maxLeaves * (2 ^ c.lw - 1) < c.maxLeaves * 2 ^ c.lw :=
    Nat.mul_lt_mul_of_pos_left (by have := Nat.two_pow_pos c.lw; omega) hm
  have h4 := two_pow_nw c
  omega

theorem sum_map_congr_store (nodes : List Node) (n : Node) (rs : List Nat) (h : ∀ r ∈ rs, r < nodes.length) :
    rs.map (fun h => (nodeAt (nodes ++ [n]) h).weight) = rs.map (fun h => (nodeAt nodes h).weight) :=
  List.map_congr_left (fun r hr => by rw [nodeAt_append_left _ _ _ (h r hr)])

/-- What `alloc` keeps of the old entries, for any new entry whose own clauses hold. -/
theorem Forest.grow (f : Forest c nodes roots leaves) (n : Node) {roots' : List Nat} {leaves' : Nat}
    (hcount : leaves' = leaves + (if n.leaf then 1 else 0))
    (hhandles : (childHandles (nodes ++ [n]) ++ roots').Perm (List.range (nodes.length + 1)))
    (hchild : n.leaf = false → n.left < nodes.length ∧ n.right < nodes.length)
    (hparent : n.leaf = false →
      n.minsym = min (nodeAt nodes n.left).minsym (nodeAt nodes n.right).minsym
      ∧ n.weight = (nodeAt nodes n.left).weight + (nodeAt nodes n.right).weight)
    (hwidth : n.minsym < 2 ^ c.symW ∧ n.weight < 2 ^ c.nw)
    (hsum : (roots'.map (fun h => (nodeAt (nodes ++ [n]) h).weight)).sum ≤ leaves' * (2 ^ c.lw - 1)) :
    Forest c (nodes ++ [n]) roots' leaves' where
  counted := by
    rw [List.countP_append, ← f.counted, hcount, List.countP_singleton]
  handles := by simpa using hhandles
  children := by
    intro h m hm hleaf
    by_cases hh : h < nodes.length
    · rw [List.getElem?_append_left hh] at hm
      exact f.children h m hm hleaf
    · have hh' : h = nodes.length := by
        have := (List.getElem?_eq_some_iff.1 hm).1
        simp at this; omega
      subst hh'
      simp at hm
      subst hm
      exact hchild hleaf
  parents := by
    intro h m hm hleaf
    by_cases hh : h < nodes.length
    · rw [List.getElem?_append_left hh] at hm
      obtain ⟨hl, hr⟩ := f.children h m hm hleaf
      rw [nodeAt_append_left _ _ _ (by omega), nodeAt_append_left _ _ _ (by omega)]
      exact f.parents h m hm hleaf
    · have hh' : h = nodes.length := by
        have := (List.getElem?_eq_some_iff.1 hm).1
        simp at this; omega
      subst hh'
      simp at hm
      subst hm
      obtain ⟨hl, hr⟩ := hchild hleaf
      rw [nodeAt_append_left _ _ _ hl, nodeAt_append_left _ _ _ hr]
      exact hparent hleaf
  widths := by
    intro m hm
    rcases List.mem_append.1 hm with hm | hm
    · exact f.widths m hm
    · rw [List.mem_singleton.1 hm]; exact hwidth
  weightSum := hsum

/-- Adding a leaf (41_tree_builder.md R160; 42_serializer.md R194). -/
theorem Forest.addLeaf (f : Forest c nodes roots leaves) (sym w : Nat) {roots' : List Nat}
    (hs : sym < 2 ^ c.symW) (hw : w < 2 ^ c.lw) (p : roots'.Perm (nodes.length :: roots)) :
    Forest c (nodes ++ [leafNode sym w]) roots' (leaves + 1) := by
  have hlw : 2 ^ c.lw ≤ 2 ^ c.nw := Nat.pow_le_pow_right (by decide) (by unfold Config.nw; omega)
  refine (f.grow (leafNode sym w) (roots' := nodes.length :: roots) (leaves' := leaves + 1) rfl ?_ (by simp [leafNode]) (by simp [leafNode])
    ⟨hs, Nat.lt_of_lt_of_le hw hlw⟩ ?_).perm p
  · rw [childHandles_append, List.range_succ]
    simp only [leafNode, if_true, List.append_nil]
    exact List.perm_middle.trans ((f.handles.cons _).trans (List.perm_append_singleton _ _).symm)
  · rw [List.map_cons, List.sum_cons, nodeAt_append_last, sum_map_congr_store _ _ _ (fun r hr => f.root_lt hr)]
    have h1 := f.weightSum
    have h2 : (leafNode sym w).weight = w := rfl
    rw [h2, Nat.add_mul]
    omega

/-- Adding the parent of two roots, with their exact weight sum (41_tree_builder.md R157; 42_serializer.md R194). -/
theorem Forest.addParent (f : Forest c nodes roots leaves) (a b w : Nat) {rest roots' : List Nat}
    (hroots : roots.Perm (a :: b :: rest)) (hw : w = (nodeAt nodes a).weight + (nodeAt nodes b).weight)
    (hlt : w < 2 ^ c.nw) (p : roots'.Perm (nodes.length :: rest)) :
    Forest c (nodes ++ [parentNode nodes a b w]) roots' leaves := by
  have g := f.perm hroots.symm
  have ha := g.root_lt (h := a) (by simp)
  have hb := g.root_lt (h := b) (by simp)
  have hwa := (f.widths _ (f.root_mem (h := a) (hroots.mem_iff.2 (by simp)))).1
  have hwb := (f.widths _ (f.root_mem (h := b) (hroots.mem_iff.2 (by simp)))).1
  refine (f.grow (parentNode nodes a b w) (roots' := nodes.length :: rest) (by simp [parentNode]) ?_
    (fun _ => ⟨ha, hb⟩) (fun _ => ⟨rfl, hw⟩) ⟨by simp only [parentNode]; omega, hlt⟩ ?_).perm p
  · rw [childHandles_append, List.range_succ]
    have h1 : (childHandles nodes ++ (a :: b :: rest)).Perm (List.range nodes.length) := g.handles
    have h2 : (if (parentNode nodes a b w).leaf then [] else
        [(parentNode nodes a b w).left, (parentNode nodes a b w).right]) = [a, b] := rfl
    rw [h2]
    refine (List.perm_middle).trans (((List.Perm.cons _ ?_)).trans (List.perm_append_singleton _ _).symm)
    simpa using h1
  · have h1 := g.weightSum
    rw [List.map_cons, List.map_cons, List.sum_cons, List.sum_cons] at h1
    rw [List.map_cons, List.sum_cons, nodeAt_append_last,
      sum_map_congr_store _ _ _ (fun r hr => g.root_lt (by simp [hr]))]
    have h2 : (parentNode nodes a b w).weight = w := rfl
    rw [h2]
    omega

end Sys2Proof.Machine
end

