-- ==== Sys2Proof/Laws/HostBus.lean ====
section
/-! SUPPORT. The laws of the bus: the offset of a legal access, and what each byte of a window word reads as
(spec/20_memory.md R81, R85 to R88). -/

namespace Sys2Proof.Machine

/-- A word at a multiple of 4 of the register space has its offset from HUFB_BASE. -/
theorem accessOffset_word (c : Config) (addr : Nat) (lo : c.hufbBase ≤ addr) (hi : addr < c.hufbBase + 0x4000)
    (al : (addr - c.hufbBase) % 4 = 0) : accessOffset c addr 4 = .ok (addr - c.hufbBase) := by
  simp [accessOffset, al, Nat.not_lt.mpr lo, Nat.not_le.mpr hi]

/-- A byte of the buffer that has been written reads as written. -/
theorem windowByte_written (size : Nat) (m : Memory) (j draw : Nat) (b : Byte) (hj : j < size)
    (hb : Memory.read m j = some b) : windowByte size m j draw = b := by
  simp [windowByte, hj, byteOrDraw, hb]

/-- A byte of the buffer that nothing has written reads as the draw it is given. -/
theorem windowByte_unwritten (size : Nat) (m : Memory) (j draw : Nat) (hj : j < size)
    (hb : Memory.read m j = none) : windowByte size m j draw = Config.freeByte draw := by
  simp [windowByte, hj, byteOrDraw, hb]

/-- A byte at or above the buffer's size reads 0. -/
theorem windowByte_above (size : Nat) (m : Memory) (j draw : Nat) (hj : size ≤ j) :
    windowByte size m j draw = 0#8 := by
  simp [windowByte, Nat.not_lt.mpr hj]

/-- Byte `k` of a big-endian word, whatever the other bytes are. -/
theorem windowWord_extract (size : Nat) (m : Memory) (j draw k : Nat) (hk : k < 4) :
    (windowWord size m j draw).extractLsb' (24 - 8 * k) 8 = windowByte size m (j + k) (draw + k) := by
  have key : ∀ a b c d : Byte,
      (a ++ b ++ c ++ d).extractLsb' 24 8 = a ∧ (a ++ b ++ c ++ d).extractLsb' 16 8 = b
      ∧ (a ++ b ++ c ++ d).extractLsb' 8 8 = c ∧ (a ++ b ++ c ++ d).extractLsb' 0 8 = d := by
    intro a b c d
    refine ⟨?_, ?_, ?_, ?_⟩ <;>
      (ext i hi
       rw [BitVec.getElem_extractLsb', ← BitVec.getLsbD_eq_getElem]
       repeat rw [BitVec.getLsbD_append]
       split_ifs <;> first | omega | (congr 1; omega))
  obtain ⟨h0, h1, h2, h3⟩ := key (windowByte size m j draw) (windowByte size m (j + 1) (draw + 1))
    (windowByte size m (j + 2) (draw + 2)) (windowByte size m (j + 3) (draw + 3))
  match k, hk with
  | 0, _ => exact h0
  | 1, _ => exact h1
  | 2, _ => exact h2
  | 3, _ => exact h3

/-- A word of which every byte below the size has been written is the same whatever draws the read is given. -/
theorem windowWord_draws (size : Nat) (m : Memory) (j draw draw' : Nat)
    (h : ∀ k, k < 4 → j + k < size → (Memory.read m (j + k)).isSome = true) :
    windowWord size m j draw = windowWord size m j draw' := by
  have byte : ∀ k d d', k < 4 → windowByte size m (j + k) d = windowByte size m (j + k) d' := by
    intro k d d' hk
    rcases Nat.lt_or_ge (j + k) size with hs | hs
    · obtain ⟨b, hb⟩ := Option.isSome_iff_exists.mp (h k hk hs)
      rw [windowByte_written _ _ _ _ b hs hb, windowByte_written _ _ _ _ b hs hb]
    · rw [windowByte_above _ _ _ _ hs, windowByte_above _ _ _ _ hs]
  unfold windowWord
  rw [byte 1 _ (draw' + 1) (by decide), byte 2 _ (draw' + 2) (by decide), byte 3 _ (draw' + 3) (by decide)]
  congr 3
  exact byte 0 draw draw' (by decide)

end Sys2Proof.Machine
end

