-- ==== Sys2Proof/Laws/Memory.lean ====
section
/-! SUPPORT. The laws of the byte buffers: read after write, frame, and that every operation keeps the canonical
form. -/

namespace Sys2Proof.Machine

@[simp] theorem read_nil (a : Nat) : Memory.read [] a = none := rfl

theorem read_cons (c : Host.Cell) (m : Memory) (a : Nat) :
    Memory.read (c :: m) a = if a = c.1 then some c.2 else Memory.read m a := rfl

/-- An address that no entry has holds no value. -/
theorem read_eq_none_of_forall (m : Memory) (a : Nat) (h : ∀ c ∈ m, c.1 ≠ a) : Memory.read m a = none := by
  induction m with
  | nil => rfl
  | cons c m ih =>
    rw [read_cons, if_neg (fun e => h c (by simp) e.symm)]
    exact ih (fun d hd => h d (by simp [hd]))

/-- A value read is an entry's. -/
theorem mem_of_read (m : Memory) (a : Nat) (b : Byte) (h : Memory.read m a = some b) : (a, b) ∈ m := by
  induction m with
  | nil => simp at h
  | cons c m ih =>
    rw [read_cons] at h
    split at h
    · next e => cases h; subst e; simp
    · simp [ih h]

/-- Read after write at the same address. -/
theorem read_write_same (m : Memory) (a : Nat) (b : Byte) : Memory.read (Memory.write m a b) a = some b := by
  induction m with
  | nil => simp [Memory.write, read_cons]
  | cons c m ih =>
    obtain ⟨x, v⟩ := c
    unfold Memory.write
    split
    · simp [read_cons]
    · split
      · simp [read_cons]
      · next h => simp [read_cons, h, ih]

/-- A write leaves every other address alone. -/
theorem read_write_other (m : Memory) (a x : Nat) (b : Byte) (hx : x ≠ a) :
    Memory.read (Memory.write m a b) x = Memory.read m x := by
  induction m with
  | nil => simp [Memory.write, read_cons, hx]
  | cons c m ih =>
    obtain ⟨y, v⟩ := c
    unfold Memory.write
    split
    · simp [read_cons, hx]
    · split
      · next h => subst h; simp [read_cons, hx]
      · simp [read_cons, ih]

/-- Read after write. -/
theorem read_write (m : Memory) (a x : Nat) (b : Byte) :
    Memory.read (Memory.write m a b) x = if x = a then some b else Memory.read m x := by
  split
  · next h => subst h; exact read_write_same m x b
  · next h => exact read_write_other m a x b h

/-- The entries after a write are the new one and old ones. -/
theorem mem_write (m : Memory) (a : Nat) (b : Byte) (c : Host.Cell) (h : c ∈ Memory.write m a b) :
    c = (a, b) ∨ c ∈ m := by
  induction m with
  | nil => simpa [Memory.write] using h
  | cons d m ih =>
    obtain ⟨x, v⟩ := d
    unfold Memory.write at h
    split at h
    · simpa using h
    · split at h
      · rcases List.mem_cons.1 h with h | h
        · exact .inl h
        · exact .inr (by simp [h])
      · rcases List.mem_cons.1 h with h | h
        · exact .inr (by simp [h])
        · rcases ih h with h | h
          · exact .inl h
          · exact .inr (by simp [h])

/-- A write keeps the canonical form. -/
theorem wf_write (m : Memory) (a : Nat) (b : Byte) (h : Memory.wf m) : Memory.wf (Memory.write m a b) := by
  refine ⟨?_, fun c _ => by simp [Memory.unlisted]⟩
  replace h := h.1
  induction m with
  | nil => simp [Memory.write]
  | cons d m ih =>
    obtain ⟨x, v⟩ := d
    obtain ⟨h₁, h₂⟩ := List.pairwise_cons.1 h
    unfold Memory.write
    split
    · next hlt =>
      refine List.pairwise_cons.2 ⟨fun c hc => ?_, h⟩
      rcases List.mem_cons.1 hc with rfl | hc
      · exact hlt
      · exact Nat.lt_trans hlt (h₁ c hc)
    · split
      · next heq => subst heq; exact List.pairwise_cons.2 ⟨h₁, h₂⟩
      · next hn hne =>
        refine List.pairwise_cons.2 ⟨fun c hc => ?_, ih h₂⟩
        rcases mem_write m a b c hc with rfl | hc
        · show x < a; omega
        · exact h₁ c hc

/-- `writeBelow`: the byte lands when the buffer has it. -/
theorem read_writeBelow (size : Nat) (m : Memory) (a x : Nat) (b : Byte) :
    Memory.read (Memory.writeBelow size m a b) x = if x = a ∧ a < size then some b else Memory.read m x := by
  unfold Memory.writeBelow
  split <;> simp_all [read_write]

theorem wf_writeBelow (size : Nat) (m : Memory) (a : Nat) (b : Byte) (h : Memory.wf m) :
    Memory.wf (Memory.writeBelow size m a b) := by
  unfold Memory.writeBelow
  split
  · exact wf_write m a b h
  · exact h

theorem bound_writeBelow (size : Nat) (m : Memory) (a : Nat) (b : Byte) (h : ∀ c ∈ m, c.1 < size) :
    ∀ c ∈ Memory.writeBelow size m a b, c.1 < size := by
  intro c hc
  unfold Memory.writeBelow at hc
  split at hc
  · next ha =>
    rcases mem_write m a b c hc with rfl | hc
    · exact ha
    · exact h c hc
  · exact h c hc

/-- `writeBytes`: byte `j` of the list lands at `a + j` when the buffer has it; every other address is left alone. -/
theorem read_writeBytes (size : Nat) (bs : List Byte) (m : Memory) (a x : Nat) :
    Memory.read (Memory.writeBytes size m a bs) x
      = if a ≤ x ∧ x < a + bs.length ∧ x < size then bs[x - a]? else Memory.read m x := by
  induction bs generalizing m a with
  | nil =>
    rw [if_neg (by simp; omega)]
    rfl
  | cons b bs ih =>
    rw [Memory.writeBytes, ih, read_writeBelow]
    by_cases hx : x = a
    · subst hx
      simp
    · by_cases hc : a ≤ x ∧ x < a + (b :: bs).length ∧ x < size
      · have h1 : a + 1 ≤ x ∧ x < a + 1 + bs.length ∧ x < size := by
          simp at hc; omega
        rw [if_pos h1, if_pos hc]
        have : x - a = (x - (a + 1)) + 1 := by omega
        simp [this]
      · have h1 : ¬ (a + 1 ≤ x ∧ x < a + 1 + bs.length ∧ x < size) := by
          simp at hc; omega
        rw [if_neg h1, if_neg hc, if_neg (fun h => hx h.1)]

theorem wf_writeBytes (size : Nat) (bs : List Byte) (m : Memory) (a : Nat) (h : Memory.wf m) :
    Memory.wf (Memory.writeBytes size m a bs) := by
  induction bs generalizing m a with
  | nil => exact h
  | cons b bs ih => exact ih _ _ (wf_writeBelow size m a b h)

theorem bound_writeBytes (size : Nat) (bs : List Byte) (m : Memory) (a : Nat) (h : ∀ c ∈ m, c.1 < size) :
    ∀ c ∈ Memory.writeBytes size m a bs, c.1 < size := by
  induction bs generalizing m a with
  | nil => exact h
  | cons b bs ih => exact ih _ _ (bound_writeBelow size m a b h)

/-- `forget`: the bytes of the range hold no value, every other address is left alone. -/
theorem read_forget (m : Memory) (a n x : Nat) :
    Memory.read (Memory.forget m a n) x = if a ≤ x ∧ x < a + n then none else Memory.read m x := by
  induction m with
  | nil => simp [Memory.forget]
  | cons c m ih =>
    have step : Memory.forget (c :: m) a n
        = if a ≤ c.1 ∧ c.1 < a + n then Memory.forget m a n else c :: Memory.forget m a n := by
      unfold Memory.forget
      rw [List.filter_cons]
      by_cases h : a ≤ c.1 ∧ c.1 < a + n <;> simp [h]
    rw [step]
    by_cases h : a ≤ c.1 ∧ c.1 < a + n
    · rw [if_pos h, ih, read_cons]
      by_cases hx : x = c.1
      · subst hx; simp [h]
      · simp [hx]
    · rw [if_neg h, read_cons, ih, read_cons]
      by_cases hx : x = c.1
      · subst hx; simp [h]
      · simp [hx]

theorem wf_forget (m : Memory) (a n : Nat) (h : Memory.wf m) : Memory.wf (Memory.forget m a n) :=
  ⟨h.1.filter _, fun _ _ => by simp [Memory.unlisted]⟩

theorem bound_forget (size : Nat) (m : Memory) (a n : Nat) (h : ∀ c ∈ m, c.1 < size) :
    ∀ c ∈ Memory.forget m a n, c.1 < size :=
  fun c hc => h c (List.mem_of_mem_filter hc)

end Sys2Proof.Machine
end

