-- ==== Sys2Proof/Laws/Packer.lean ====
section
/-! SUPPORT. The packer's shifts and masks as operations on lists of bits (spec/43_bit_packer.md R221, R222, R233). -/

namespace Sys2Proof.Machine

/-- The value of a list of bits, most significant first. -/
def bitsVal (bits : List Bool) : Nat := bits.foldl (fun v b => 2 * v + b.toNat) 0

theorem bitsVal_foldl (bits : List Bool) (v : Nat) :
    bits.foldl (fun v b => 2 * v + b.toNat) v = v * 2 ^ bits.length + bitsVal bits := by
  unfold bitsVal
  induction bits generalizing v with
  | nil => simp
  | cons b bs ih =>
    rw [List.foldl_cons, ih, List.foldl_cons, ih (2 * 0 + b.toNat), List.length_cons, pow_succ]
    ring

@[simp] theorem bitsVal_nil : bitsVal [] = 0 := rfl

theorem bitsVal_append (a b : List Bool) : bitsVal (a ++ b) = bitsVal a * 2 ^ b.length + bitsVal b := by
  unfold bitsVal
  rw [List.foldl_append, bitsVal_foldl]
  rfl

theorem bitsVal_cons (b : Bool) (bs : List Bool) : bitsVal (b :: bs) = b.toNat * 2 ^ bs.length + bitsVal bs := by
  rw [← List.singleton_append, bitsVal_append]
  simp [bitsVal]

theorem bitsVal_lt (bits : List Bool) : bitsVal bits < 2 ^ bits.length := by
  induction bits with
  | nil => simp
  | cons b bs ih =>
    rw [bitsVal_cons, List.length_cons, pow_succ]
    cases b <;> simp <;> omega

/-- Equal values and lengths, equal bits. -/
theorem bitsVal_inj (a b : List Bool) (hl : a.length = b.length) (hv : bitsVal a = bitsVal b) : a = b := by
  induction a generalizing b with
  | nil => exact (List.eq_nil_of_length_eq_zero hl.symm).symm
  | cons x xs ih =>
    cases b with
    | nil => simp at hl
    | cons y ys =>
      have hl' : xs.length = ys.length := by simpa using hl
      rw [bitsVal_cons, bitsVal_cons, hl'] at hv
      have h1 := bitsVal_lt xs
      have h2 := bitsVal_lt ys
      rw [hl'] at h1
      have hxy : x = y := by cases x <;> cases y <;> (simp_all; try omega)
      subst hxy
      rw [ih ys hl' (by omega)]

@[simp] theorem bitsVal_replicate_false (n : Nat) : bitsVal (List.replicate n false) = 0 := by
  induction n with
  | zero => rfl
  | succ n ih => rw [List.replicate_succ, bitsVal_cons, ih]; simp

/-- The value of the bits from `i` on, `m` of them: a shift and a mask (43_bit_packer.md R233). -/
theorem bitsVal_slice (bits : List Bool) (i m : Nat) (h : i + m ≤ bits.length) :
    bitsVal ((bits.drop i).take m) = (bitsVal bits / 2 ^ (bits.length - i - m)) % 2 ^ m := by
  have e : bits = bits.take i ++ ((bits.drop i).take m ++ (bits.drop i).drop m) := by simp
  have l1 : ((bits.drop i).drop m).length = bits.length - i - m := by simp; omega
  have l2 : ((bits.drop i).take m).length = m := by simp; omega
  have h3 := bitsVal_lt ((bits.drop i).drop m)
  have h2 := bitsVal_lt ((bits.drop i).take m)
  rw [l1] at h3
  rw [l2] at h2
  conv_rhs => rw [e]
  rw [bitsVal_append, bitsVal_append, List.length_append, l1, l2]
  have : bitsVal (bits.take i) * 2 ^ (m + (bits.length - i - m))
      + (bitsVal ((bits.drop i).take m) * 2 ^ (bits.length - i - m) + bitsVal ((bits.drop i).drop m))
      = bitsVal ((bits.drop i).drop m)
        + (bitsVal (bits.take i) * 2 ^ m + bitsVal ((bits.drop i).take m)) * 2 ^ (bits.length - i - m) := by
    rw [pow_add]; ring
  rw [show ((bits.take i ++ ((bits.drop i).take m ++ (bits.drop i).drop m))).length = bits.length from by rw [← e],
    this, Nat.add_mul_div_right _ _ (Nat.two_pow_pos _), Nat.div_eq_of_lt h3, Nat.zero_add,
    Nat.mul_add_mod', Nat.mod_eq_of_lt h2]

/-! ### Bytes -/

@[simp] theorem byteBits_length (b : Byte) : (byteBits b).length = 8 := by simp [byteBits]

theorem bitsVal_byteBits (b : Byte) : bitsVal (byteBits b) = b.toNat := by
  have key : ∀ b : Byte, bitsVal (byteBits b) = b.toNat := by decide +kernel
  exact key b

/-- A byte of at most 8 bits has their value, shifted to the top (43_bit_packer.md R221). -/
theorem bitsByte_toNat (bits : List Bool) (h : bits.length ≤ 8) :
    (bitsByte bits).toNat = bitsVal bits * 2 ^ (8 - bits.length) := by
  have key : ∀ l : List Bool, l.length = 8 →
      (List.range 8).foldl (fun v i => 2 * v + (l.getD i false).toNat) 0 = bitsVal l := by
    intro l hl
    match l, hl with
    | [a, b, c, d, e, f, g, i], _ => simp [bitsVal, List.range, List.range.loop]
  have hlt : bitsVal bits * 2 ^ (8 - bits.length) < 256 := by
    have h1 := bitsVal_lt bits
    calc bitsVal bits * 2 ^ (8 - bits.length) < 2 ^ bits.length * 2 ^ (8 - bits.length) :=
          Nat.mul_lt_mul_of_pos_right h1 (Nat.two_pow_pos _)
      _ = 256 := by rw [← pow_add, Nat.add_sub_cancel' h]; rfl
  have hpad := key (bits ++ List.replicate (8 - bits.length) false) (by simp; omega)
  rw [bitsVal_append, bitsVal_replicate_false, List.length_replicate] at hpad
  have hget : ∀ i, (bits ++ List.replicate (8 - bits.length) false).getD i false = bits.getD i false := by
    intro i
    simp only [List.getD_eq_getElem?_getD, List.getElem?_append, List.getElem?_replicate]
    split
    · rfl
    · next hi =>
      rw [List.getElem?_eq_none (by omega : bits.length ≤ i)]
      split <;> rfl
  simp only [hget] at hpad
  unfold bitsByte
  rw [hpad, BitVec.toNat_ofNat]
  exact Nat.mod_eq_of_lt (by omega)

theorem bitsByte_byteBits (b : Byte) : bitsByte (byteBits b) = b := by
  apply BitVec.eq_of_toNat_eq
  rw [bitsByte_toNat _ (by simp), bitsVal_byteBits, byteBits_length]
  simp

/-- Expanding a packed byte gives its bits and then the padding zeros (43_bit_packer.md R221). -/
theorem byteBits_bitsByte (bits : List Bool) (h : bits.length ≤ 8) :
    byteBits (bitsByte bits) = bits ++ List.replicate (8 - bits.length) false := by
  apply bitsVal_inj
  · simp; omega
  · rw [bitsVal_byteBits, bitsByte_toNat _ h, bitsVal_append, bitsVal_replicate_false, List.length_replicate]
    rfl

/-! ### PK_BITS -/

@[simp] theorem chunkBits_length (n : BitVec 5) (d : BitVec 16) : (chunkBits n d).length = n.toNat := by
  simp [chunkBits]

@[simp] theorem waitingBits_length (pk : Packer) : (waitingBits pk).length = pk.k.toNat := by
  have := pk.k.isLt
  simp [waitingBits]; omega

theorem bitsVal_range (f : Nat → Bool) (n : Nat) :
    bitsVal ((List.range n).map (fun i => f (n - 1 - i))) = ∑ i ∈ Finset.range n, (f i).toNat * 2 ^ i := by
  induction n with
  | zero => rfl
  | succ n ih =>
    rw [List.range_succ_eq_map, List.map_cons, bitsVal_cons, Finset.sum_range_succ, ← ih]
    simp only [List.length_map, List.length_range, List.map_map, Nat.add_sub_cancel, Nat.sub_zero]
    rw [Nat.add_comm]
    congr 2
    apply List.map_congr_left
    intro i hi
    simp only [List.mem_range] at hi
    simp only [Function.comp]
    congr 1
    omega

theorem sum_testBit (v n : Nat) : ∑ i ∈ Finset.range n, (v.testBit i).toNat * 2 ^ i = v % 2 ^ n := by
  induction n with
  | zero => simp [Nat.mod_one]
  | succ n ih =>
    rw [Finset.sum_range_succ, ih, Nat.mod_pow_succ, Nat.toNat_testBit]
    ring

theorem bitsVal_chunkBits (n : BitVec 5) (d : BitVec 16) : bitsVal (chunkBits n d) = d.toNat % 2 ^ n.toNat := by
  rw [chunkBits, bitsVal_range (fun i => d.getLsbD i)]
  exact sum_testBit d.toNat n.toNat

theorem bitsVal_lowBits (cnt : Nat) (w : Word) : bitsVal (lowBits cnt w) = w.toNat % 2 ^ cnt := by
  rw [lowBits, bitsVal_range (fun i => w.getLsbD i)]
  exact sum_testBit w.toNat cnt

theorem bitsVal_waitingBits (pk : Packer) : bitsVal (waitingBits pk) = pk.acc.toNat / 2 ^ (8 - pk.k.toNat) := by
  have hk := pk.k.isLt
  have h := bitsVal_slice (byteBits pk.acc) 0 pk.k.toNat (by simp; omega)
  simp only [List.drop_zero, byteBits_length, Nat.sub_zero, bitsVal_byteBits] at h
  rw [waitingBits, h]
  apply Nat.mod_eq_of_lt
  have h2 := pk.acc.isLt
  rw [Nat.div_lt_iff_lt_mul (Nat.two_pow_pos _), ← pow_add, Nat.add_sub_cancel' (by omega)]
  exact h2

/-- `v` of PK_BITS is the waiting bits and then the chunk's (43_bit_packer.md R222). -/
theorem pkValue_eq (pk : Packer) (n : BitVec 5) (d : BitVec 16) :
    pkValue pk n d = bitsVal (waitingBits pk ++ chunkBits n d) := by
  have h := Nat.mod_lt d.toNat (Nat.two_pow_pos n.toNat)
  rw [bitsVal_append, chunkBits_length, bitsVal_chunkBits, bitsVal_waitingBits, pkValue, Nat.shiftRight_eq_div_pow,
    ← Nat.shiftLeft_add_eq_or_of_lt h, Nat.shiftLeft_eq]

/-- A full byte of PK_BITS is the byte of its eight bits (43_bit_packer.md R222, R233). -/
theorem pkByte_eq (bits : List Bool) (j : Nat) (h : 8 * j + 8 ≤ bits.length) :
    pkByte (bitsVal bits) bits.length j = bitsByte ((bits.drop (8 * j)).take 8) := by
  apply BitVec.eq_of_toNat_eq
  have hl : ((bits.drop (8 * j)).take 8).length = 8 := by simp; omega
  rw [bitsByte_toNat _ (by omega), hl, bitsVal_slice _ _ _ h, pkByte, BitVec.toNat_ofNat,
    Nat.shiftRight_eq_div_pow, show (0xFF : Nat) = 2 ^ 8 - 1 from rfl, Nat.and_two_pow_sub_one_eq_mod,
    show bits.length - 8 * j - 8 = bits.length - 8 - 8 * j from by omega]
  simp

/-- The bits left over wait in the accumulator (43_bit_packer.md R222, R233). -/
theorem pkRest_eq (bits : List Bool) (nb : Nat) (h : 8 * nb + bits.length % 8 = bits.length) :
    pkRest (bitsVal bits) (bits.length % 8) = bitsByte (bits.drop (8 * nb)) := by
  have hr : bits.length % 8 < 8 := Nat.mod_lt _ (by decide)
  have hl : (bits.drop (8 * nb)).length = bits.length % 8 := by simp; omega
  have hs := bitsVal_slice bits (8 * nb) (bits.length % 8) (by omega)
  rw [List.take_of_length_le (by omega)] at hs
  rw [show bits.length - 8 * nb - bits.length % 8 = 0 from by omega, pow_zero, Nat.div_one] at hs
  unfold pkRest
  split
  · next h0 => rw [List.eq_nil_of_length_eq_zero (hl.trans h0)]; rfl
  · apply BitVec.eq_of_toNat_eq
    have hlt := bitsVal_lt (bits.drop (8 * nb))
    rw [hl] at hlt
    rw [bitsByte_toNat _ (by omega), hl, Nat.and_two_pow_sub_one_eq_mod, ← hs, Nat.shiftLeft_eq,
      show (0xFF : Nat) = 2 ^ 8 - 1 from rfl, Nat.and_two_pow_sub_one_eq_mod, BitVec.toNat_ofNat, Nat.mod_mod]
    apply Nat.mod_eq_of_lt
    calc _ < 2 ^ (bits.length % 8) * 2 ^ (8 - bits.length % 8) :=
          Nat.mul_lt_mul_of_pos_right hlt (Nat.two_pow_pos _)
      _ = 2 ^ 8 := by rw [← pow_add, Nat.add_sub_cancel' (by omega)]

end Sys2Proof.Machine
end

