-- ==== Sys2Proof/Laws/Tree.lean ====
section
/-! SUPPORT. The tree builder's operations keep its invariant (spec/41_tree_builder.md R153 to R165), and what one
merge and the build loop do. -/

namespace Sys2Proof.Machine

variable {c : Config} {tb : TreeBuilder}

/-! ### SEEN -/

theorem mem_markSeen (sym : Nat) (seen : List Nat) (x : Nat) : x ∈ markSeen sym seen ↔ x = sym ∨ x ∈ seen := by
  induction seen with
  | nil => simp [markSeen]
  | cons y ys ih =>
    unfold markSeen
    split
    · simp
    · split
      · next h => subst h; simp
      · simp only [List.mem_cons, ih]; tauto

theorem markSeen_sorted (sym : Nat) (seen : List Nat) (h : seen.Pairwise (fun a b => a < b)) :
    (markSeen sym seen).Pairwise (fun a b => a < b) := by
  induction seen with
  | nil => simp [markSeen]
  | cons y ys ih =>
    obtain ⟨h₁, h₂⟩ := List.pairwise_cons.1 h
    unfold markSeen
    split
    · next hlt =>
      refine List.pairwise_cons.2 ⟨fun z hz => ?_, h⟩
      rcases List.mem_cons.1 hz with rfl | hz
      · exact hlt
      · exact Nat.lt_trans hlt (h₁ z hz)
    · split
      · exact h
      · next hn hne =>
        refine List.pairwise_cons.2 ⟨fun z hz => ?_, ih h₂⟩
        rcases (mem_markSeen sym ys z).1 hz with rfl | hz
        · omega
        · exact h₁ z hz

theorem markSeen_length (sym : Nat) (seen : List Nat) (h : sym ∉ seen) :
    (markSeen sym seen).length = seen.length + 1 := by
  induction seen with
  | nil => rfl
  | cons y ys ih =>
    obtain ⟨h₁, h₂⟩ := not_or.1 (mt List.mem_cons.2 h)
    unfold markSeen
    split
    · rfl
    · simp [ih h₂]

/-! ### The invariant and the forest -/

theorem TreeBuilder.Inv.toForest (h : tb.Inv c) : Forest c tb.nodes tb.roots tb.leafCount where
  counted := h.leaves
  handles := h.forest
  children := h.children
  parents := h.parents
  widths := h.widths
  weightSum := h.weightSum

theorem TreeBuilder.Inv.root_none (h : tb.Inv c) (hp : tb.phase ≠ .built) : tb.root = none := by
  cases hr : tb.root with
  | none => rfl
  | some r => exact absurd (h.root.1 (by simp [hr])) hp

theorem TreeBuilder.Inv.roots_heap (h : tb.Inv c) (hp : tb.phase ≠ .built) : tb.roots = tb.heap := by
  simp [TreeBuilder.roots, h.root_none hp]

/-- The roots of a built tree are its root alone. -/
theorem TreeBuilder.Inv.roots_built (h : tb.Inv c) (hp : tb.phase = .built) :
    ∃ r, tb.root = some r ∧ tb.roots = [r] ∧ r < tb.nodes.length := by
  obtain ⟨r, hr⟩ := Option.isSome_iff_exists.1 (h.root.2 hp)
  have hroots : tb.roots = [r] := by simp [TreeBuilder.roots, hr, h.built hp]
  exact ⟨r, hr, hroots, h.toForest.root_lt (by simp [hroots])⟩

theorem TreeBuilder.Inv.heap_lt (h : tb.Inv c) {x : Nat} (hx : x ∈ tb.heap) : x < tb.nodes.length :=
  h.toForest.root_lt (by simp [TreeBuilder.roots, hx])

theorem cleared_inv (c : Config) : TreeBuilder.cleared.Inv c where
  empty := by simp [TreeBuilder.cleared]
  loading := by simp [TreeBuilder.cleared]
  built := by simp [TreeBuilder.cleared]
  root := by simp [TreeBuilder.cleared]
  heapBound := by simp [TreeBuilder.cleared]
  leafBound := by simp [TreeBuilder.cleared]
  nodeBound := by simp [TreeBuilder.cleared]
  leaves := rfl
  forest := (Forest.nil c).handles
  children := (Forest.nil c).children
  parents := (Forest.nil c).parents
  widths := (Forest.nil c).widths
  weightSum := (Forest.nil c).weightSum
  seenSorted := by simp [TreeBuilder.cleared]
  seenWidth := by simp [TreeBuilder.cleared]
  seenLeaves := by simp [TreeBuilder.cleared]
  seenCount := by simp [TreeBuilder.cleared]
  heapSeen := by simp [TreeBuilder.cleared]
  heapKeys := by simp [TreeBuilder.cleared]
  heapOrder := by intro i h0 hi; simp [TreeBuilder.cleared] at hi

/-! ### Insertion -/

theorem map_minsym_append (nodes : List Node) (n : Node) (heap : List Nat) (h : ∀ x ∈ heap, x < nodes.length) :
    heap.map (fun x => (nodeAt (nodes ++ [n]) x).minsym) = heap.map (fun x => (nodeAt nodes x).minsym) :=
  List.map_congr_left (fun x hx => by rw [nodeAt_append_left _ _ _ (h x hx)])

/-- TB_INSERT's tree keeps the invariant (41_tree_builder.md R160). -/
theorem insertLeaf_inv (sym w : Nat) (h : tb.Inv c) (hp : tb.phase ≠ .built)
    (hs : sym < 2 ^ c.symW) (hn : sym ∉ tb.seen) (hc : tb.leafCount < c.maxLeaves) (hw : w < 2 ^ c.lw) :
    (insertLeaf sym w tb).Inv c := by
  have hroots := h.roots_heap hp
  have hf : Forest c tb.nodes tb.heap tb.leafCount := hroots ▸ h.toForest
  have hperm := heapInsert_perm (tb.nodes ++ [leafNode sym w]) tb.heap tb.nodes.length
  have hg := hf.addLeaf sym w hs hw hperm
  have hr : (insertLeaf sym w tb).roots
      = heapInsert (tb.nodes ++ [leafNode sym w]) tb.heap tb.nodes.length := by
    simp [TreeBuilder.roots, insertLeaf, h.root_none hp]
  have hcount := hg.count
  have hlt : ∀ x ∈ tb.heap, x < tb.nodes.length := fun x hx => h.heap_lt hx
  simp only [List.length_append, List.length_singleton, heapInsert_length] at hcount
  exact {
    empty := by simp [insertLeaf]
    loading := by simp [insertLeaf]
    built := by simp [insertLeaf]
    root := by simp [insertLeaf, h.root_none hp]
    heapBound := by
      have := hf.count
      have hge : tb.heap.length ≤ tb.nodes.length := by
        have := hf.handles.length_eq
        simp at this; omega
      simp only [insertLeaf, heapInsert_length, Config.heapCap]; omega
    leafBound := by simp only [insertLeaf]; omega
    nodeBound := by simp only [insertLeaf, List.length_append, List.length_singleton, Config.nodeCap]; omega
    leaves := hg.counted
    forest := by rw [hr]; exact hg.handles
    children := hg.children
    parents := hg.parents
    widths := hg.widths
    weightSum := by rw [hr]; exact hg.weightSum
    seenSorted := markSeen_sorted sym _ h.seenSorted
    seenWidth := by
      intro x hx
      rcases (mem_markSeen sym tb.seen x).1 hx with rfl | hx
      · exact hs
      · exact h.seenWidth x hx
    seenLeaves := by
      intro _ x
      show x ∈ markSeen sym tb.seen ↔ _
      rw [mem_markSeen, h.seenLeaves hp x]
      simp only [insertLeaf, List.mem_append, List.mem_singleton]
      constructor
      · rintro (rfl | ⟨n, hn, hl⟩)
        · exact ⟨_, .inr rfl, rfl, rfl⟩
        · exact ⟨n, .inl hn, hl⟩
      · rintro ⟨n, hn | rfl, hl⟩
        · exact .inr ⟨n, hn, hl⟩
        · exact .inl hl.2.symm
    seenCount := fun _ => by
      show (markSeen sym tb.seen).length = tb.leafCount + 1
      rw [markSeen_length sym _ hn, h.seenCount hp]
    heapSeen := by
      intro x hx
      show _ ∈ markSeen sym tb.seen
      rw [mem_markSeen]
      rcases List.mem_cons.1 (hperm.mem_iff.1 hx) with rfl | hx'
      · exact .inl (by simp [insertLeaf, leafNode])
      · right
        simp only [insertLeaf]
        rw [nodeAt_append_left _ _ _ (hlt x hx')]
        exact h.heapSeen x hx'
    heapKeys := by
      refine (hperm.map _).nodup_iff.2 ?_
      simp only [insertLeaf]
      rw [List.map_cons, map_minsym_append _ _ _ hlt, nodeAt_append_last]
      refine List.nodup_cons.2 ⟨fun hmem => ?_, h.heapKeys⟩
      obtain ⟨x, hx, he⟩ := List.mem_map.1 hmem
      have hseen := h.heapSeen x hx
      rw [he] at hseen
      exact hn hseen
    heapOrder := heapInsert_ordered _ _ _ ((heapOrdered_append _ _ _ hlt).2 h.heapOrder) }

/-! ### One merge -/

/-- In an ordered heap whose keys are distinct, slot 0 is the unique minimum (41_tree_builder.md R153, R156). -/
theorem slot0_isHeapMin (nodes : List Node) (heap : List Nat) (hne : heap ≠ []) (ho : HeapOrdered nodes heap)
    (hk : (heap.map (fun h => (nodeAt nodes h).minsym)).Nodup) : IsHeapMin nodes heap (slotAt heap 0) := by
  have hmem : slotAt heap 0 ∈ heap := (heapExtract_perm nodes heap hne).mem_iff.2 (by simp)
  refine ⟨hmem, fun x hx hxm => ?_⟩
  have h1 := heapExtract_min nodes heap ho x hx
  have h2 : (nodeAt nodes x).minsym ≠ (nodeAt nodes (slotAt heap 0)).minsym := fun e =>
    hxm (List.inj_on_of_nodup_map hk hx hmem e)
  rw [keyLt_false_iff] at h1
  rw [keyLt_iff]
  omega

/-- What one merge step does (41_tree_builder.md R157): `a` and `b` are the first and the second minimum, and the new
node over them, with their exact weight sum, takes their place. -/
theorem mergeStep_spec (h : tb.Inv c) (hp : tb.phase = .loading) (h2 : 2 ≤ tb.heap.length)
    (hm : 0 < c.maxLeaves) :
    ∃ a b rest,
      tb.heap.Perm (a :: b :: rest)
      ∧ IsHeapMin tb.nodes tb.heap a ∧ IsHeapMin tb.nodes (b :: rest) b
      ∧ (mergeStep c tb).nodes = tb.nodes
          ++ [parentNode tb.nodes a b ((nodeAt tb.nodes a).weight + (nodeAt tb.nodes b).weight)]
      ∧ (mergeStep c tb).heap.Perm (tb.nodes.length :: rest)
      ∧ mergeStep c tb = { tb with nodes := (mergeStep c tb).nodes, heap := (mergeStep c tb).heap }
      ∧ (nodeAt tb.nodes a).weight + (nodeAt tb.nodes b).weight < 2 ^ c.nw
      ∧ HeapOrdered (mergeStep c tb).nodes (mergeStep c tb).heap := by
  have hne : tb.heap ≠ [] := by intro e; simp [e] at h2
  have hp' : tb.phase ≠ .built := by simp [hp]
  have hf : Forest c tb.nodes tb.heap tb.leafCount := h.roots_heap hp' ▸ h.toForest
  have p1 := heapExtract_perm tb.nodes tb.heap hne
  have hne2 : heapRest tb.nodes tb.heap ≠ [] := by
    intro e
    have := heapRest_length tb.nodes tb.heap
    rw [e] at this; simp at this; omega
  have p2 := heapExtract_perm tb.nodes _ hne2
  have ho1 := heapRest_ordered tb.nodes tb.heap h.heapOrder
  have ho2 := heapRest_ordered tb.nodes _ ho1
  have hk1 : ((heapRest tb.nodes tb.heap).map (fun h => (nodeAt tb.nodes h).minsym)).Nodup := by
    have := (p1.map (fun h => (nodeAt tb.nodes h).minsym)).nodup_iff.1 h.heapKeys
    exact (List.nodup_cons.1 this).2
  have pab := p1.trans (p2.cons _)
  have hsum : (nodeAt tb.nodes (slotAt tb.heap 0)).weight
      + (nodeAt tb.nodes (slotAt (heapRest tb.nodes tb.heap) 0)).weight < 2 ^ c.nw := by
    have h1 := hf.sum_lt hm h.leafBound
    rw [(pab.map _).sum_eq] at h1
    simp only [List.map_cons, List.sum_cons] at h1
    omega
  refine ⟨slotAt tb.heap 0, slotAt (heapRest tb.nodes tb.heap) 0, heapRest tb.nodes (heapRest tb.nodes tb.heap),
    pab, slot0_isHeapMin _ _ hne h.heapOrder h.heapKeys, ?_, ?_, heapInsert_perm _ _ _, rfl, hsum, ?_⟩
  · have := slot0_isHeapMin _ _ hne2 ho1 hk1
    exact ⟨by simp, fun x hx hxm => this.2 x (p2.mem_iff.2 hx) hxm⟩
  · simp only [mergeStep, heapExtract, mergedWeight, Nat.mod_eq_of_lt hsum]
  · refine heapInsert_ordered _ _ _ ((heapOrdered_append _ _ _ (fun x hx => ?_)).2 ho2)
    exact h.heap_lt (pab.mem_iff.2 (by simp [heapExtract] at hx; simp [hx]))

/-- A merge shortens the heap by one (41_tree_builder.md R165). -/
theorem mergeStep_heap_length (c : Config) (tb : TreeBuilder) (h2 : 2 ≤ tb.heap.length) :
    (mergeStep c tb).heap.length = tb.heap.length - 1 := by
  simp only [mergeStep, heapExtract, heapInsert_length, heapRest_length]
  omega

theorem mergeStep_nodes_length (c : Config) (tb : TreeBuilder) :
    (mergeStep c tb).nodes.length = tb.nodes.length + 1 := by
  simp [mergeStep]

/-- A merge step keeps the invariant (41_tree_builder.md R157). -/
theorem mergeStep_inv (h : tb.Inv c) (hp : tb.phase = .loading) (h2 : 2 ≤ tb.heap.length)
    (hm : 0 < c.maxLeaves) : (mergeStep c tb).Inv c := by
  obtain ⟨a, b, rest, pab, -, -, hnodes, hheap, hrec, hsum, hord⟩ := mergeStep_spec h hp h2 hm
  have hp' : tb.phase ≠ .built := by simp [hp]
  have hf : Forest c tb.nodes tb.heap tb.leafCount := h.roots_heap hp' ▸ h.toForest
  have hg := hf.addParent a b _ pab rfl hsum hheap
  rw [← hnodes] at hg
  have e1 : (mergeStep c tb).phase = tb.phase := by rw [hrec]
  have e2 : (mergeStep c tb).root = none := by rw [hrec]; exact h.root_none hp'
  have e3 : (mergeStep c tb).leafCount = tb.leafCount := by rw [hrec]
  have e4 : (mergeStep c tb).seen = tb.seen := by rw [hrec]
  have hlen := mergeStep_heap_length c tb h2
  have hr : (mergeStep c tb).roots = (mergeStep c tb).heap := by simp [TreeBuilder.roots, e2]
  have hcount := hg.count
  have hrest : ∀ x ∈ rest, x < tb.nodes.length := fun x hx => h.heap_lt (pab.mem_iff.2 (by simp [hx]))
  have hmin : ∀ x ∈ rest, (nodeAt (mergeStep c tb).nodes x).minsym = (nodeAt tb.nodes x).minsym := by
    intro x hx; rw [hnodes, nodeAt_append_left _ _ _ (hrest x hx)]
  have hkeys := (pab.map (fun h => (nodeAt tb.nodes h).minsym)).nodup_iff.1 h.heapKeys
  have hnew : (nodeAt (mergeStep c tb).nodes tb.nodes.length).minsym
      = min (nodeAt tb.nodes a).minsym (nodeAt tb.nodes b).minsym := by
    rw [hnodes, nodeAt_append_last]; rfl
  have hnew' : (nodeAt (mergeStep c tb).nodes tb.nodes.length).minsym = (nodeAt tb.nodes a).minsym
      ∨ (nodeAt (mergeStep c tb).nodes tb.nodes.length).minsym = (nodeAt tb.nodes b).minsym := by
    rw [hnew]; omega
  exact {
    empty := by rw [e1, hp]; simp
    loading := by intro _; omega
    built := by rw [e1, hp]; simp
    root := by rw [e1, e2, hp]; simp
    heapBound := by have := h.heapBound; omega
    leafBound := by rw [e3]; exact h.leafBound
    nodeBound := by
      have := h.leafBound
      unfold Config.nodeCap; omega
    leaves := by rw [e3]; exact hg.counted
    forest := by rw [hr]; exact hg.handles
    children := hg.children
    parents := hg.parents
    widths := hg.widths
    weightSum := by rw [hr, e3]; exact hg.weightSum
    seenSorted := by rw [e4]; exact h.seenSorted
    seenWidth := by rw [e4]; exact h.seenWidth
    seenLeaves := by
      intro _ x
      rw [e4, h.seenLeaves hp' x, hnodes]
      constructor
      · rintro ⟨n, hn, hl⟩
        exact ⟨n, List.mem_append_left _ hn, hl⟩
      · rintro ⟨n, hn, hl⟩
        rcases List.mem_append.1 hn with hn | hn
        · exact ⟨n, hn, hl⟩
        · rw [List.mem_singleton.1 hn] at hl
          simp [parentNode] at hl
    seenCount := fun _ => by rw [e4, e3]; exact h.seenCount hp'
    heapSeen := by
      intro x hx
      rw [e4]
      rcases List.mem_cons.1 (hheap.mem_iff.1 hx) with rfl | hx'
      · rcases hnew' with e | e <;> rw [e]
        · exact h.heapSeen a (pab.mem_iff.2 (by simp))
        · exact h.heapSeen b (pab.mem_iff.2 (by simp))
      · rw [hmin x hx']
        exact h.heapSeen x (pab.mem_iff.2 (by simp [hx']))
    heapKeys := by
      refine (hheap.map _).nodup_iff.2 ?_
      simp only [List.map_cons, List.nodup_cons, List.mem_cons, not_or] at hkeys
      rw [List.map_cons, List.map_congr_left hmin]
      refine List.nodup_cons.2 ⟨?_, hkeys.2.2⟩
      rcases hnew' with e | e <;> rw [e]
      · exact hkeys.1.2
      · exact hkeys.2.1
    heapOrder := hord }

/-! ### The build -/

/-- The build loop keeps the invariant, ends with one handle in the heap, adds one node for each handle it removes, and
keeps every old node (41_tree_builder.md R162, R165). -/
theorem mergeAll_spec (fuel : Nat) (h : tb.Inv c) (hp : tb.phase = .loading) (hf : tb.heap.length ≤ fuel + 1)
    (hm : 0 < c.maxLeaves) :
    (mergeAll c fuel tb).Inv c ∧ (mergeAll c fuel tb).phase = .loading
    ∧ (mergeAll c fuel tb).heap.length = 1
    ∧ (mergeAll c fuel tb).nodes.length = tb.nodes.length + (tb.heap.length - 1)
    ∧ tb.nodes <+: (mergeAll c fuel tb).nodes
    ∧ (mergeAll c fuel tb).leafCount = tb.leafCount ∧ (mergeAll c fuel tb).seen = tb.seen := by
  have h1 := h.loading hp
  induction fuel generalizing tb with
  | zero => exact ⟨h, hp, by simp only [mergeAll]; omega, by simp only [mergeAll]; omega, List.prefix_refl _, rfl, rfl⟩
  | succ fuel ih =>
    unfold mergeAll
    split
    · next h2 =>
      have hp' : (mergeStep c tb).phase = .loading := hp
      have hl := mergeStep_heap_length c tb h2
      have hn := mergeStep_nodes_length c tb
      obtain ⟨i1, i2, i3, i4, i5, i6, i7⟩ := ih (mergeStep_inv h hp h2 hm) hp' (by omega) (by omega)
      exact ⟨i1, i2, i3, by omega, (List.prefix_append _ _).trans i5, i6, i7⟩
    · exact ⟨h, hp, by omega, by omega, List.prefix_refl _, rfl, rfl⟩

/-- TB_BUILD's tree keeps the invariant, and what it holds (41_tree_builder.md R162, R165). -/
theorem buildTree_spec (h : tb.Inv c) (hp : tb.phase = .loading) (hm : 0 < c.maxLeaves) :
    (buildTree c tb).Inv c ∧ (buildTree c tb).phase = .built ∧ (buildTree c tb).heap = []
    ∧ (buildTree c tb).nodes.length = tb.nodes.length + (tb.heap.length - 1)
    ∧ tb.nodes <+: (buildTree c tb).nodes
    ∧ (buildTree c tb).leafCount = tb.leafCount ∧ (buildTree c tb).seen = tb.seen := by
  obtain ⟨i1, i2, i3, i4, i5, i6, i7⟩ := mergeAll_spec tb.heap.length h hp (by omega) hm
  have hrest : (buildTree c tb).heap = [] := by
    apply List.eq_nil_of_length_eq_zero
    simp only [buildTree, heapExtract, heapRest_length]
    omega
  refine ⟨?_, rfl, hrest, i4, i5, i6, i7⟩
  obtain ⟨r, hr⟩ := List.length_eq_one_iff.1 i3
  have hroot : (buildTree c tb).root = some r := by simp [buildTree, heapExtract, hr, slotAt]
  have hroots : (buildTree c tb).roots = (mergeAll c tb.heap.length tb).roots := by
    simp only [TreeBuilder.roots, hroot, hrest, hr, i1.root_none (by simp [i2])]
    rfl
  exact {
    empty := by simp [buildTree]
    loading := by simp [buildTree]
    built := fun _ => hrest
    root := by simp [buildTree]
    heapBound := by simp [hrest]
    leafBound := i1.leafBound
    nodeBound := i1.nodeBound
    leaves := i1.leaves
    forest := by rw [hroots]; exact i1.forest
    children := i1.children
    parents := i1.parents
    widths := i1.widths
    weightSum := by rw [hroots]; exact i1.weightSum
    seenSorted := i1.seenSorted
    seenWidth := i1.seenWidth
    seenLeaves := by simp [buildTree]
    seenCount := by simp [buildTree]
    heapSeen := by simp [hrest]
    heapKeys := by simp [hrest]
    heapOrder := by intro i _ hi; simp [hrest] at hi }

end Sys2Proof.Machine
end

