-- ==== Sys2Proof/Laws/Serialize.lean ====
section
/-! SUPPORT. Headers and the node store: the labelled tree at a handle, its header, and what the parser builds
(spec/42_serializer.md R190 to R198, R203). -/

namespace Sys2Proof.Machine

/-! ### Big-endian bytes -/

@[simp] theorem bytesBE_length (v k : Nat) : (bytesBE v k).length = k := by
  induction k with
  | zero => rfl
  | succ k ih => simp [bytesBE, ih]

theorem valueBE_foldl (bs : List Byte) (v : Nat) :
    bs.foldl (fun v b => v * 256 + b.toNat) v = v * 256 ^ bs.length + valueBE bs := by
  unfold valueBE
  induction bs generalizing v with
  | nil => simp
  | cons b bs ih =>
    rw [List.foldl_cons, List.foldl_cons, ih, ih (0 * 256 + b.toNat), List.length_cons, Nat.pow_succ]
    ring

theorem valueBE_cons (b : Byte) (bs : List Byte) : valueBE (b :: bs) = b.toNat * 256 ^ bs.length + valueBE bs := by
  have := valueBE_foldl bs (0 * 256 + b.toNat)
  unfold valueBE at *
  rw [List.foldl_cons, this]
  simp

theorem valueBE_lt (bs : List Byte) : valueBE bs < 256 ^ bs.length := by
  induction bs with
  | nil => simp [valueBE]
  | cons b bs ih =>
    rw [valueBE_cons, List.length_cons, Nat.pow_succ]
    have hb : b.toNat ≤ 255 := by have := b.isLt; omega
    have := Nat.mul_le_mul_right (256 ^ bs.length) hb
    omega

/-- `value_be(bytes_be(v, k)) = v mod 2^(8k)`. -/
theorem valueBE_bytesBE (v k : Nat) : valueBE (bytesBE v k) = v % 256 ^ k := by
  induction k with
  | zero => simp [bytesBE, valueBE, Nat.mod_one]
  | succ k ih =>
    rw [bytesBE, valueBE_cons, ih, bytesBE_length, BitVec.toNat_ofNat, Nat.shiftRight_eq_div_pow, Nat.pow_mul]
    have h : v % 256 ^ (k + 1) = v % 256 ^ k + 256 ^ k * (v / 256 ^ k % 256) := by
      rw [Nat.pow_succ, Nat.mod_mul]
    rw [h]
    simp only [show (2 : Nat) ^ 8 = 256 from rfl]
    ring

/-- `bytes_be(value_be(bytes), k) = bytes` for k bytes. -/
theorem bytesBE_valueBE (bs : List Byte) : bytesBE (valueBE bs) bs.length = bs := by
  have gen : ∀ (bs : List Byte) (u : Nat), bytesBE (u * 256 ^ bs.length + valueBE bs) bs.length = bs := by
    intro bs
    induction bs with
    | nil => intro u; rfl
    | cons b bs ih =>
      intro u
      rw [List.length_cons, bytesBE, valueBE_cons]
      have e : u * 256 ^ (bs.length + 1) + (b.toNat * 256 ^ bs.length + valueBE bs)
          = (u * 256 + b.toNat) * 256 ^ bs.length + valueBE bs := by rw [Nat.pow_succ]; ring
      rw [e, ih]
      congr 1
      apply BitVec.eq_of_toNat_eq
      rw [BitVec.toNat_ofNat, Nat.shiftRight_eq_div_pow, Nat.pow_mul]
      simp only [show (2 : Nat) ^ 8 = 256 from rfl]
      rw [Nat.add_comm, Nat.add_mul_div_right _ _ (Nat.pow_pos (by decide)), Nat.div_eq_of_lt (valueBE_lt bs)]
      have := b.isLt
      omega
  simpa using gen bs 0

/-! ### The labelled tree at a handle -/

/-- The store's children have smaller handles (00_scope.md R17). -/
def ChildrenBelow (nodes : List Node) : Prop :=
  ∀ (h : Nat) (n : Node), nodes[h]? = some n → n.leaf = false → n.left < h ∧ n.right < h

theorem ChildrenBelow.at {nodes : List Node} (hc : ChildrenBelow nodes) {h : Nat} (hh : h < nodes.length)
    (hl : (nodeAt nodes h).leaf = false) : (nodeAt nodes h).left < h ∧ (nodeAt nodes h).right < h :=
  hc h _ (by rw [nodeAt_eq _ _ hh]; simp [hh]) hl

/-- Every allocated handle has a labelled tree, found within `h + 1` nodes of depth. -/
theorem treeAt_isSome {nodes : List Node} (hc : ChildrenBelow nodes) (depth h : Nat) (hh : h < nodes.length)
    (hd : h < depth) : ∃ t, treeAt nodes depth h = some t := by
  induction depth generalizing h with
  | zero => omega
  | succ d ih =>
    unfold treeAt
    cases hl : (nodeAt nodes h).leaf with
    | true => simp
    | false =>
      obtain ⟨h1, h2⟩ := hc.at hh hl
      obtain ⟨l, el⟩ := ih (nodeAt nodes h).left (by omega) (by omega)
      obtain ⟨r, er⟩ := ih (nodeAt nodes h).right (by omega) (by omega)
      simp [el, er]

/-- A tree found within a depth is found within any greater one. -/
theorem treeAt_mono {nodes : List Node} (d e h : Nat) (t : HufTree) (hd : d ≤ e) (ht : treeAt nodes d h = some t) :
    treeAt nodes e h = some t := by
  induction d generalizing e h t with
  | zero => simp [treeAt] at ht
  | succ d ih =>
    obtain ⟨e, rfl⟩ : ∃ e', e = e' + 1 := ⟨e - 1, by omega⟩
    unfold treeAt at ht ⊢
    cases hl : (nodeAt nodes h).leaf with
    | true => simpa [hl] using ht
    | false =>
      simp only [hl, Bool.false_eq_true, if_false] at ht ⊢
      split at ht
      · next l r el er =>
        rw [ih e _ _ (by omega) el, ih e _ _ (by omega) er]
        exact ht
      · simp at ht

/-- The tree at an old handle is the same when the store grows. -/
theorem treeAt_append {nodes : List Node} (hc : ChildrenBelow nodes) (n : Node) (depth h : Nat)
    (hh : h < nodes.length) : treeAt (nodes ++ [n]) depth h = treeAt nodes depth h := by
  induction depth generalizing h with
  | zero => rfl
  | succ d ih =>
    unfold treeAt
    rw [nodeAt_append_left _ _ _ hh]
    cases hl : (nodeAt nodes h).leaf with
    | true => rfl
    | false =>
      obtain ⟨h1, h2⟩ := hc.at hh hl
      simp only [Bool.false_eq_true, if_false]
      rw [ih _ (by omega), ih _ (by omega)]

/-- `ser(h)` is the header of the labelled tree at `h` (42_serializer.md R191). -/
theorem serialize_eq (sb : Nat) (nodes : List Node) (depth h : Nat) :
    serialize sb nodes depth h = (treeAt nodes depth h).map (HufTree.header sb) := by
  induction depth generalizing h with
  | zero => rfl
  | succ d ih =>
    unfold serialize treeAt
    cases hl : (nodeAt nodes h).leaf with
    | true => simp [HufTree.header]
    | false =>
      simp only [Bool.false_eq_true, if_false, ih]
      cases treeAt nodes d (nodeAt nodes h).left <;> cases treeAt nodes d (nodeAt nodes h).right <;>
        simp [HufTree.header]

/-! ### Trees and their headers -/

/-- L leaf tokens and L - 1 merge tokens (42_serializer.md R192). -/
theorem header_length (sb : Nat) (t : HufTree) : (t.header sb).length + 1 = t.leaves * (2 + sb) := by
  induction t with
  | leaf s w => simp [HufTree.header, HufTree.leaves]; omega
  | node w l r ihl ihr =>
    simp only [HufTree.header, HufTree.leaves, List.length_append, List.length_singleton, Nat.add_mul]
    omega

theorem leaves_pos (t : HufTree) : 1 ≤ t.leaves := by
  induction t with
  | leaf s w => exact Nat.le_refl _
  | node w l r ihl ihr => simp only [HufTree.leaves]; omega

@[simp] theorem header_zeroWeights (sb : Nat) (t : HufTree) : t.zeroWeights.header sb = t.header sb := by
  induction t with
  | leaf s w => rfl
  | node w l r ihl ihr => simp [HufTree.zeroWeights, HufTree.header, ihl, ihr]

@[simp] theorem leaves_zeroWeights (t : HufTree) : t.zeroWeights.leaves = t.leaves := by
  induction t with
  | leaf s w => rfl
  | node w l r ihl ihr => simp [HufTree.zeroWeights, HufTree.leaves, ihl, ihr]

/-! ### Counting leaves -/

/-- The leaves of the labelled tree at a handle. -/
def leavesAt (nodes : List Node) (h : Nat) : Nat := ((treeAt nodes (h + 1) h).map HufTree.leaves).getD 0

theorem leavesAt_leaf {nodes : List Node} {h : Nat} (hl : (nodeAt nodes h).leaf = true) : leavesAt nodes h = 1 := by
  simp [leavesAt, treeAt, hl, HufTree.leaves]

theorem leavesAt_node {nodes : List Node} (hc : ChildrenBelow nodes) {h : Nat} (hh : h < nodes.length)
    (hl : (nodeAt nodes h).leaf = false) :
    leavesAt nodes h = leavesAt nodes (nodeAt nodes h).left + leavesAt nodes (nodeAt nodes h).right := by
  obtain ⟨h1, h2⟩ := hc.at hh hl
  obtain ⟨l, el⟩ := treeAt_isSome hc ((nodeAt nodes h).left + 1) (nodeAt nodes h).left (by omega) (by omega)
  obtain ⟨r, er⟩ := treeAt_isSome hc ((nodeAt nodes h).right + 1) (nodeAt nodes h).right (by omega) (by omega)
  have el' := treeAt_mono _ h _ l (by omega) el
  have er' := treeAt_mono _ h _ r (by omega) er
  unfold leavesAt
  rw [el, er, treeAt]
  simp [hl, el', er', HufTree.leaves]

/-- The leaves of the trees at the roots are the leaves of the store (00_scope.md R17: no sharing). -/
theorem Forest.leaves_sum {c : Config} {nodes : List Node} {roots : List Nat} {leaves : Nat}
    (f : Forest c nodes roots leaves) : (roots.map (leavesAt nodes)).sum = leaves := by
  have h1 := (f.handles.map (leavesAt nodes)).sum_eq
  rw [List.map_append, List.sum_append] at h1
  have h2 : ((List.range nodes.length).map (leavesAt nodes)).sum
      = leaves + ((childHandles nodes).map (leavesAt nodes)).sum := by
    rw [f.counted]
    have gen : ∀ ns : List Node, ∀ g : Nat → Nat, (∀ i (hi : i < ns.length),
        g i = if ns[i].leaf then 1 else leavesAt nodes ns[i].left + leavesAt nodes ns[i].right) →
        ((List.range ns.length).map g).sum
          = ns.countP (fun n => n.leaf) + ((childHandles ns).map (leavesAt nodes)).sum := by
      intro ns
      induction ns with
      | nil => intro g _; rfl
      | cons n ns ih =>
        intro g hg
        have h0 := hg 0 (by simp)
        have hs := ih (fun i => g (i + 1)) (fun i hi => by
          have := hg (i + 1) (by simpa using hi)
          simpa using this)
        have e : childHandles (n :: ns) = (if n.leaf then [] else [n.left, n.right]) ++ childHandles ns := by
          simp [childHandles]
        rw [List.length_cons, List.range_succ_eq_map, List.map_cons, List.map_map, List.sum_cons, e, List.countP_cons]
        simp only [Function.comp_def, Nat.succ_eq_add_one]
        rw [hs, h0]
        cases hl : n.leaf <;> simp [hl] <;> omega
    refine gen nodes (leavesAt nodes) (fun i hi => ?_)
    have e := nodeAt_eq nodes i hi
    rw [← e]
    cases hl : (nodeAt nodes i).leaf with
    | true => simp [leavesAt_leaf hl]
    | false => simpa using leavesAt_node f.children hi hl
  omega

/-- The tree HUFB holds has LEAF_COUNT leaves and is found at ROOT (42_serializer.md R192). -/
theorem TreeBuilder.Inv.builtTree_some {c : Config} {tb : TreeBuilder} (h : tb.Inv c) (hp : tb.phase = .built) :
    ∃ r t, tb.root = some r ∧ r < tb.nodes.length ∧ treeAt tb.nodes (r + 1) r = some t
      ∧ builtTree tb = some t ∧ t.leaves = tb.leafCount := by
  obtain ⟨r, hr, hroots, hlt⟩ := h.roots_built hp
  obtain ⟨t, ht⟩ := treeAt_isSome h.children (r + 1) r hlt (by omega)
  refine ⟨r, t, hr, hlt, ht, by simp [builtTree, hr, ht], ?_⟩
  have := h.toForest.leaves_sum
  rw [hroots] at this
  simpa [leavesAt, ht] using this

/-! ### The scan -/

/-- The scan of `bytes`, with as many rounds as it can need. -/
def scan (c : Config) (bytes : List Byte) (p : Parse) : Option Parse := scanTokens c bytes.length bytes p

theorem scanTokens_fuel (c : Config) (f g : Nat) (bytes : List Byte) (p : Parse) (hf : bytes.length ≤ f)
    (hg : bytes.length ≤ g) : scanTokens c f bytes p = scanTokens c g bytes p := by
  induction f generalizing g bytes p with
  | zero =>
    obtain rfl : bytes = [] := List.eq_nil_of_length_eq_zero (by omega)
    cases g <;> rfl
  | succ f ih =>
    cases bytes with
    | nil => cases g <;> rfl
    | cons t rest =>
      simp only [List.length_cons] at hf hg
      obtain ⟨g, rfl⟩ : ∃ g', g = g' + 1 := ⟨g - 1, by omega⟩
      unfold scanTokens
      rw [ih g (rest.drop c.sb) _ (by simp; omega) (by simp; omega)]
      split
      · rfl
      · split
        · split
          · split
            · rfl
            · exact ih g _ _ (by omega) (by omega)
          · rfl
        · rfl

@[simp] theorem scan_nil (c : Config) (p : Parse) : scan c [] p = some p := rfl

/-- The scan's rounds (42_serializer.md R194). -/
theorem scan_cons (c : Config) (t : Byte) (rest : List Byte) (p : Parse) :
    scan c (t :: rest) p =
      if t = markerLeaf then
        if rest.length < c.sb then none
        else if 2 ^ c.symW ≤ valueBE (rest.take c.sb) then none
        else if p.nodes.length = c.nodeCap then none
        else scan c (rest.drop c.sb) (pushLeaf (valueBE (rest.take c.sb)) p)
      else if t = markerMerge then
        match p.stack with
        | b :: a :: below =>
          if p.nodes.length = c.nodeCap then none
          else scan c rest (pushParent a b below p)
        | _ => none
      else none := by
  unfold scan
  rw [List.length_cons, scanTokens]
  rw [scanTokens_fuel c rest.length (rest.drop c.sb).length (rest.drop c.sb) _ (by simp) (Nat.le_refl _)]
  all_goals rfl

theorem scan_leaf (c : Config) (payload rest : List Byte) (p : Parse) (hl : payload.length = c.sb)
    (hs : valueBE payload < 2 ^ c.symW) (hcap : p.nodes.length ≠ c.nodeCap) :
    scan c (markerLeaf :: (payload ++ rest)) p = scan c rest (pushLeaf (valueBE payload) p) := by
  rw [scan_cons, if_pos rfl, if_neg (by simp; omega), List.take_append_of_le_length (by omega), ← hl, List.take_length,
    if_neg (by omega), if_neg hcap, List.drop_left]

theorem scan_merge (c : Config) (rest : List Byte) (p : Parse) (a b : Nat) (below : List Nat)
    (hp : p.stack = b :: a :: below) (hcap : p.nodes.length ≠ c.nodeCap) :
    scan c (markerMerge :: rest) p = scan c rest (pushParent a b below p) := by
  rw [scan_cons, if_neg (by decide), if_pos rfl, hp]
  simp [hcap]

/-! ### What the parser's data stand for -/

/-- The parser's store is a forest of the stacked handles, every weight 0, within NODE_CAP. -/
structure Parse.Ok (c : Config) (p : Parse) : Prop where
  forest : Forest c p.nodes p.stack p.leaves
  zero : ∀ n ∈ p.nodes, n.weight = 0
  bound : p.nodes.length ≤ c.nodeCap

theorem Parse.start_ok (c : Config) : Parse.Ok c { nodes := [], stack := [], leaves := 0 } :=
  ⟨Forest.nil c, by simp, by simp⟩

theorem Parse.Ok.pushLeaf {c : Config} {p : Parse} (h : p.Ok c) (sym : Nat) (hs : sym < 2 ^ c.symW)
    (hcap : p.nodes.length ≠ c.nodeCap) : (pushLeaf sym p).Ok c where
  forest := h.forest.addLeaf sym 0 hs (Nat.two_pow_pos _) (.refl _)
  zero := by
    intro n hn
    rcases List.mem_append.1 hn with hn | hn
    · exact h.zero n hn
    · rw [List.mem_singleton.1 hn]; rfl
  bound := by
    have := h.bound
    simp [Machine.pushLeaf]; omega

theorem Parse.Ok.pushParent {c : Config} {p : Parse} (h : p.Ok c) (a b : Nat) (below : List Nat)
    (hp : p.stack = b :: a :: below) (hcap : p.nodes.length ≠ c.nodeCap) : (pushParent a b below p).Ok c where
  forest := by
    have wa := h.zero _ (h.forest.root_mem (h := a) (by simp [hp]))
    have wb := h.zero _ (h.forest.root_mem (h := b) (by simp [hp]))
    exact h.forest.addParent a b 0 (rest := below) (by rw [hp]; exact List.Perm.swap _ _ _) (by rw [wa, wb])
      (Nat.two_pow_pos _) (.refl _)
  zero := by
    intro n hn
    rcases List.mem_append.1 hn with hn | hn
    · exact h.zero n hn
    · rw [List.mem_singleton.1 hn]; rfl
  bound := by
    have := h.bound
    simp [Machine.pushParent]; omega

/-- A scan keeps `Parse.Ok`. -/
theorem scan_ok (c : Config) (bytes : List Byte) (p q : Parse) (h : p.Ok c) (hq : scan c bytes p = some q) :
    q.Ok c := by
  induction hn : bytes.length using Nat.strong_induction_on generalizing bytes p with
  | _ n ih =>
    subst hn
    cases bytes with
    | nil => simp at hq; exact hq ▸ h
    | cons t rest =>
      rw [scan_cons] at hq
      split at hq
      · split at hq
        · simp at hq
        · split at hq
          · simp at hq
          · split at hq
            · simp at hq
            · exact ih _ (by simp) _ _ (h.pushLeaf _ (by omega) ‹_›) hq rfl
      · split at hq
        · split at hq
          · split at hq
            · simp at hq
            · exact ih _ (by simp) _ _ (h.pushParent _ _ _ ‹_› ‹_›) hq rfl
          · simp at hq
        · simp at hq

/-- The tree that SER_PARSE leaves keeps the invariant (42_serializer.md R195). -/
theorem parseHeader_inv (c : Config) (bytes : List Byte) (tb : TreeBuilder) (hm : 0 < c.maxLeaves)
    (h : parseHeader c bytes = some tb) : tb.Inv c := by
  unfold parseHeader at h
  split at h
  · next nodes r leaves hs =>
    cases h
    have hok := scan_ok c bytes _ _ (Parse.start_ok c) hs
    have hf := hok.forest
    have hcount := hf.count
    have hb := hok.bound
    simp only [List.length_singleton] at hcount
    unfold Config.nodeCap at hb
    dsimp only at hb
    exact {
      empty := by simp
      loading := by simp
      built := by simp
      root := by simp
      heapBound := by simp
      leafBound := by dsimp only; omega
      nodeBound := hok.bound
      leaves := hf.counted
      forest := hf.handles
      children := hf.children
      parents := hf.parents
      widths := hf.widths
      weightSum := hf.weightSum
      seenSorted := by simp
      seenWidth := by simp
      seenLeaves := by simp
      seenCount := by simp
      heapSeen := by simp
      heapKeys := by simp
      heapOrder := by intro i _ hi; simp at hi }
  · simp at h

/-! ### The parser and the labelled trees -/

/-- The trees the stacked handles stand for, top first. -/
def StackTrees (p : Parse) (trees : List HufTree) : Prop :=
  p.stack.map (fun h => treeAt p.nodes (h + 1) h) = trees.map some

theorem stackTrees_store {c : Config} {p : Parse} (h : p.Ok c) (n : Node) (stack : List Nat)
    (hs : ∀ x ∈ stack, x < p.nodes.length) :
    stack.map (fun h => treeAt (p.nodes ++ [n]) (h + 1) h) = stack.map (fun h => treeAt p.nodes (h + 1) h) :=
  List.map_congr_left (fun x hx => treeAt_append h.forest.children n _ x (hs x hx))

theorem stackTrees_pushLeaf {c : Config} {p : Parse} (h : p.Ok c) (sym : Nat) (trees : List HufTree)
    (ht : StackTrees p trees) : StackTrees (pushLeaf sym p) (.leaf sym 0 :: trees) := by
  unfold StackTrees pushLeaf
  dsimp only
  rw [List.map_cons, List.map_cons, stackTrees_store h _ _ (fun x hx => h.forest.root_lt hx), ht]
  congr 1
  simp [treeAt, leafNode]

theorem stackTrees_pushParent {c : Config} {p : Parse} (h : p.Ok c) (a b : Nat) (below : List Nat)
    (hp : p.stack = b :: a :: below) (l r : HufTree) (trees : List HufTree)
    (ht : StackTrees p (r :: l :: trees)) : StackTrees (pushParent a b below p) (.node 0 l r :: trees) := by
  have hlt : ∀ x ∈ p.stack, x < p.nodes.length := fun x hx => h.forest.root_lt hx
  have ha := hlt a (by simp [hp])
  have hb := hlt b (by simp [hp])
  unfold StackTrees at ht
  rw [hp] at ht
  simp only [List.map_cons, List.cons.injEq] at ht
  obtain ⟨hr, hl, hrest⟩ := ht
  unfold StackTrees pushParent
  dsimp only
  rw [List.map_cons, List.map_cons, stackTrees_store h _ _ (fun x hx => hlt x (by simp [hp, hx])), hrest]
  congr 1
  rw [treeAt, nodeAt_append_last]
  simp only [parentNode, Bool.false_eq_true, if_false]
  rw [treeAt_append h.forest.children _ _ _ ha, treeAt_append h.forest.children _ _ _ hb,
    treeAt_mono _ _ _ _ (by omega) hl, treeAt_mono _ _ _ _ (by omega) hr]

/-- Scanning the header of a tree pushes that tree with weights 0 (42_serializer.md R194): the handles it takes, the
leaves it counts, and what is left to scan. -/
theorem scan_header (c : Config) (t : HufTree) (rest : List Byte) (p : Parse) (trees : List HufTree) (h : p.Ok c)
    (ht : StackTrees p trees) (hsym : ∀ s ∈ t.symbols, s < 2 ^ c.symW) (hsb : c.symW ≤ 8 * c.sb)
    (hcap : p.nodes.length + (2 * t.leaves - 1) ≤ c.nodeCap) :
    ∃ q, q.Ok c ∧ StackTrees q (t.zeroWeights :: trees) ∧ q.leaves = p.leaves + t.leaves
      ∧ q.nodes.length = p.nodes.length + (2 * t.leaves - 1)
      ∧ (∃ top, q.stack = top :: p.stack ∧ top + 1 = q.nodes.length)
      ∧ scan c (t.header c.sb ++ rest) p = scan c rest q := by
  induction t generalizing rest p trees with
  | leaf s w =>
    have hs := hsym s (by simp [HufTree.symbols])
    have hv : valueBE (bytesBE s c.sb) = s := by
      rw [valueBE_bytesBE, show (256 : Nat) = 2 ^ 8 from rfl, ← Nat.pow_mul]
      exact Nat.mod_eq_of_lt (Nat.lt_of_lt_of_le hs (Nat.pow_le_pow_right (by decide) hsb))
    have hne : p.nodes.length ≠ c.nodeCap := by simp [HufTree.leaves] at hcap; omega
    refine ⟨pushLeaf s p, h.pushLeaf s hs hne, stackTrees_pushLeaf h s trees ht, rfl, ?_, ⟨p.nodes.length, rfl, ?_⟩, ?_⟩
    · simp [pushLeaf, HufTree.leaves]
    · simp [pushLeaf]
    · have := scan_leaf c (bytesBE s c.sb) rest p (bytesBE_length s c.sb) (by rw [hv]; exact hs) hne
      rw [hv] at this
      exact this
  | node w l r ihl ihr =>
    have hl1 := leaves_pos l
    have hr1 := leaves_pos r
    simp only [HufTree.symbols, List.mem_append] at hsym
    simp only [HufTree.leaves] at hcap
    obtain ⟨q1, ok1, st1, lv1, nl1, ⟨t1, sk1, tp1⟩, sc1⟩ :=
      ihl (r.header c.sb ++ ([markerMerge] ++ rest)) p trees h ht (fun s hs => hsym s (.inl hs)) (by omega)
    obtain ⟨q2, ok2, st2, lv2, nl2, ⟨t2, sk2, tp2⟩, sc2⟩ :=
      ihr ([markerMerge] ++ rest) q1 _ ok1 st1 (fun s hs => hsym s (.inr hs)) (by omega)
    have hne : q2.nodes.length ≠ c.nodeCap := by omega
    have hsk : q2.stack = t2 :: t1 :: p.stack := by rw [sk2, sk1]
    refine ⟨pushParent t1 t2 p.stack q2, ok2.pushParent _ _ _ hsk hne, ?_, ?_, ?_, ⟨q2.nodes.length, rfl, ?_⟩, ?_⟩
    · exact stackTrees_pushParent ok2 _ _ _ hsk _ _ _ st2
    · simp only [pushParent, HufTree.leaves]; omega
    · simp only [pushParent, HufTree.leaves, List.length_append, List.length_singleton]; omega
    · simp [pushParent]
    · have e : (HufTree.node w l r).header c.sb ++ rest
          = l.header c.sb ++ (r.header c.sb ++ ([markerMerge] ++ rest)) := by simp [HufTree.header]
      rw [e, sc1, sc2]
      exact scan_merge c rest q2 t1 t2 p.stack hsk hne

/-- What a scan has read is the headers of the trees it has stacked, the oldest first. -/
theorem scan_sound (c : Config) (bytes : List Byte) (p q : Parse) (trees : List HufTree) (h : p.Ok c)
    (ht : StackTrees p trees) (hsym : ∀ t ∈ trees, ∀ s ∈ t.symbols, s < 2 ^ c.symW)
    (hq : scan c bytes p = some q) :
    ∃ trees', StackTrees q trees' ∧ (∀ t ∈ trees', ∀ s ∈ t.symbols, s < 2 ^ c.symW)
      ∧ trees'.reverse.flatMap (HufTree.header c.sb) = trees.reverse.flatMap (HufTree.header c.sb) ++ bytes := by
  induction hn : bytes.length using Nat.strong_induction_on generalizing bytes p trees with
  | _ n ih =>
    subst hn
    cases bytes with
    | nil => simp at hq; subst hq; exact ⟨trees, ht, hsym, by simp⟩
    | cons t rest =>
      rw [scan_cons] at hq
      split at hq
      · next htm =>
        split at hq
        · simp at hq
        · next hlen =>
          split at hq
          · simp at hq
          · split at hq
            · simp at hq
            · next hval hcap =>
              obtain ⟨trees', h1, h2, h3⟩ := ih _ (by simp) (rest.drop c.sb) _ _ (h.pushLeaf _ (by omega) hcap)
                (stackTrees_pushLeaf h _ trees ht)
                (by
                  intro t' ht' s hs
                  rcases List.mem_cons.1 ht' with rfl | ht'
                  · simp only [HufTree.symbols, List.mem_singleton] at hs
                    subst hs; omega
                  · exact hsym t' ht' s hs) hq rfl
              refine ⟨trees', h1, h2, ?_⟩
              have htake : (rest.take c.sb).length = c.sb := by simp; omega
              have hb := bytesBE_valueBE (rest.take c.sb)
              rw [htake] at hb
              rw [h3, htm]
              simp only [List.reverse_cons, List.flatMap_append, List.flatMap_cons, List.flatMap_nil,
                HufTree.header, hb]
              simp
      · split at hq
        · next htm =>
          split at hq
          · next b a below hsk =>
            split at hq
            · simp at hq
            · next hcap =>
              obtain ⟨r, l, trees0, rfl⟩ : ∃ r l ts, trees = r :: l :: ts := by
                have := congrArg List.length ht
                rw [hsk] at this
                match trees, this with
                | r :: l :: ts, _ => exact ⟨r, l, ts, rfl⟩
              obtain ⟨trees', h1, h2, h3⟩ := ih _ (by simp) rest _ _ (h.pushParent a b below hsk hcap)
                (stackTrees_pushParent h a b below hsk l r trees0 ht)
                (by
                  intro t' ht' s hs
                  rcases List.mem_cons.1 ht' with rfl | ht'
                  · simp only [HufTree.symbols, List.mem_append] at hs
                    rcases hs with hs | hs
                    · exact hsym l (by simp) s hs
                    · exact hsym r (by simp) s hs
                  · exact hsym t' (by simp [ht']) s hs) hq rfl
              refine ⟨trees', h1, h2, ?_⟩
              rw [h3, htm]
              simp [HufTree.header]
          · simp at hq
        · simp at hq

/-- SER_PARSE's parser accepts the header of any labelled tree whose symbols and nodes fit, and leaves that tree with
weights 0 (42_serializer.md R195, R203). -/
theorem parseHeader_header (c : Config) (t : HufTree) (hsym : ∀ s ∈ t.symbols, s < 2 ^ c.symW)
    (hsb : c.symW ≤ 8 * c.sb) (hcap : 2 * t.leaves - 1 ≤ c.nodeCap) :
    ∃ tb, parseHeader c (t.header c.sb) = some tb ∧ builtTree tb = some t.zeroWeights
      ∧ tb.leafCount = t.leaves ∧ tb.nodes.length = 2 * t.leaves - 1 ∧ tb.root = some (2 * t.leaves - 2)
      ∧ tb.phase = .built ∧ tb.heap = [] ∧ tb.seen = [] ∧ (∀ n ∈ tb.nodes, n.weight = 0) := by
  obtain ⟨q, ok, st, lv, nl, ⟨top, sk, tp⟩, sc⟩ :=
    scan_header c t [] { nodes := [], stack := [], leaves := 0 } [] (Parse.start_ok c) rfl hsym hsb (by simpa using hcap)
  rw [List.append_nil, scan_nil] at sc
  obtain ⟨nodes, stack, leaves⟩ := q
  dsimp only at *
  subst sk
  have h1 := leaves_pos t
  refine ⟨{ phase := .built, leafCount := leaves, root := some top, nodes := nodes, heap := [], seen := [] },
    ?_, ?_, by simpa using lv, by simpa using nl, ?_, rfl, rfl, rfl, ok.zero⟩
  · unfold scan at sc
    unfold parseHeader
    rw [sc]
  · unfold StackTrees at st
    simpa [builtTree] using st
  · simp at nl
    simp only [Option.some.injEq]; omega

/-- What SER_PARSE's parser accepts is a header: of the tree it leaves, byte for byte (42_serializer.md R203). -/
theorem parseHeader_sound (c : Config) (bytes : List Byte) (tb : TreeBuilder) (h : parseHeader c bytes = some tb) :
    ∃ t, builtTree tb = some t ∧ t.header c.sb = bytes ∧ (∀ s ∈ t.symbols, s < 2 ^ c.symW) := by
  unfold parseHeader at h
  split at h
  · next nodes r leaves hs =>
    cases h
    obtain ⟨trees, st, hsym, hb⟩ := scan_sound c bytes _ _ [] (Parse.start_ok c) rfl (by simp) hs
    unfold StackTrees at st
    obtain ⟨t, rfl⟩ : ∃ t, trees = [t] :=
      List.length_eq_one_iff.1 (by simpa using (congrArg List.length st).symm)
    simp at st hb hsym
    exact ⟨t, by simpa [builtTree] using st, hb, hsym⟩
  · simp at h

end Sys2Proof.Machine
end

