-- ==== Sys2Proof/Laws/State.lean ====
section
/-! SUPPORT. One lemma per field per shared update of the state, so that no later proof unfolds a record update. -/

namespace Sys2Proof.Machine

/-! ### `complete` -/

@[simp] theorem complete_cfg (c : ErrorCode) (s : State) : (complete c s).cfg = s.cfg := rfl
@[simp] theorem complete_ie (c : ErrorCode) (s : State) : (complete c s).ie = s.ie := rfl
@[simp] theorem complete_status (c : ErrorCode) (s : State) : (complete c s).status = { s.status with busy := false, done := true, err := c } := rfl
@[simp] theorem complete_cmd (c : ErrorCode) (s : State) : (complete c s).cmd = s.cmd := rfl
@[simp] theorem complete_wdata (c : ErrorCode) (s : State) : (complete c s).wdata = s.wdata := rfl
@[simp] theorem complete_result (c : ErrorCode) (s : State) : (complete c s).result = s.result := rfl
@[simp] theorem complete_tb (c : ErrorCode) (s : State) : (complete c s).tb = s.tb := rfl
@[simp] theorem complete_hdrLen (c : ErrorCode) (s : State) : (complete c s).hdrLen = s.hdrLen := rfl
@[simp] theorem complete_pk (c : ErrorCode) (s : State) : (complete c s).pk = s.pk := rfl
@[simp] theorem complete_hbuf (c : ErrorCode) (s : State) : (complete c s).hbuf = s.hbuf := rfl
@[simp] theorem complete_pbuf (c : ErrorCode) (s : State) : (complete c s).pbuf = s.pbuf := rfl
@[simp] theorem complete_lcmd (c : ErrorCode) (s : State) : (complete c s).lcmd = s.lcmd := rfl
@[simp] theorem complete_prog (c : ErrorCode) (s : State) : (complete c s).prog = s.prog := rfl
@[simp] theorem complete_sched (c : ErrorCode) (s : State) : (complete c s).sched = s.sched := rfl
@[simp] theorem complete_reads (c : ErrorCode) (s : State) : (complete c s).reads = s.reads := rfl
@[simp] theorem complete_draws (c : ErrorCode) (s : State) : (complete c s).draws = s.draws := rfl

/-! ### `raiseError` -/

@[simp] theorem raiseError_cfg (e : ErrorCode) (s : State) : (raiseError e s).cfg = s.cfg := rfl
@[simp] theorem raiseError_ie (e : ErrorCode) (s : State) : (raiseError e s).ie = s.ie := rfl
@[simp] theorem raiseError_status (e : ErrorCode) (s : State) : (raiseError e s).status = { s.status with busy := false, done := true, err := e } := rfl
@[simp] theorem raiseError_cmd (e : ErrorCode) (s : State) : (raiseError e s).cmd = s.cmd := rfl
@[simp] theorem raiseError_wdata (e : ErrorCode) (s : State) : (raiseError e s).wdata = s.wdata := rfl
@[simp] theorem raiseError_result (e : ErrorCode) (s : State) : (raiseError e s).result = s.result := rfl
@[simp] theorem raiseError_tb (e : ErrorCode) (s : State) : (raiseError e s).tb = s.tb := rfl
@[simp] theorem raiseError_hdrLen (e : ErrorCode) (s : State) : (raiseError e s).hdrLen = s.hdrLen := rfl
@[simp] theorem raiseError_pk (e : ErrorCode) (s : State) : (raiseError e s).pk = s.pk := rfl
@[simp] theorem raiseError_hbuf (e : ErrorCode) (s : State) : (raiseError e s).hbuf = s.hbuf := rfl
@[simp] theorem raiseError_pbuf (e : ErrorCode) (s : State) : (raiseError e s).pbuf = s.pbuf := rfl
@[simp] theorem raiseError_lcmd (e : ErrorCode) (s : State) : (raiseError e s).lcmd = s.lcmd := rfl
@[simp] theorem raiseError_prog (e : ErrorCode) (s : State) : (raiseError e s).prog = s.prog := rfl
@[simp] theorem raiseError_sched (e : ErrorCode) (s : State) : (raiseError e s).sched = s.sched := rfl
@[simp] theorem raiseError_reads (e : ErrorCode) (s : State) : (raiseError e s).reads = s.reads := rfl
@[simp] theorem raiseError_draws (e : ErrorCode) (s : State) : (raiseError e s).draws = s.draws := rfl

/-! ### `acknowledge` -/

@[simp] theorem acknowledge_cfg (v : Word) (s : State) : (acknowledge v s).cfg = s.cfg := rfl
@[simp] theorem acknowledge_ie (v : Word) (s : State) : (acknowledge v s).ie = s.ie := rfl
@[simp] theorem acknowledge_status (v : Word) (s : State) : (acknowledge v s).status = { s.status with done := s.status.done && !v.getLsbD 1, ovr := s.status.ovr && !v.getLsbD 3 } := rfl
@[simp] theorem acknowledge_cmd (v : Word) (s : State) : (acknowledge v s).cmd = s.cmd := rfl
@[simp] theorem acknowledge_wdata (v : Word) (s : State) : (acknowledge v s).wdata = s.wdata := rfl
@[simp] theorem acknowledge_result (v : Word) (s : State) : (acknowledge v s).result = s.result := rfl
@[simp] theorem acknowledge_tb (v : Word) (s : State) : (acknowledge v s).tb = s.tb := rfl
@[simp] theorem acknowledge_hdrLen (v : Word) (s : State) : (acknowledge v s).hdrLen = s.hdrLen := rfl
@[simp] theorem acknowledge_pk (v : Word) (s : State) : (acknowledge v s).pk = s.pk := rfl
@[simp] theorem acknowledge_hbuf (v : Word) (s : State) : (acknowledge v s).hbuf = s.hbuf := rfl
@[simp] theorem acknowledge_pbuf (v : Word) (s : State) : (acknowledge v s).pbuf = s.pbuf := rfl
@[simp] theorem acknowledge_lcmd (v : Word) (s : State) : (acknowledge v s).lcmd = s.lcmd := rfl
@[simp] theorem acknowledge_prog (v : Word) (s : State) : (acknowledge v s).prog = s.prog := rfl
@[simp] theorem acknowledge_sched (v : Word) (s : State) : (acknowledge v s).sched = s.sched := rfl
@[simp] theorem acknowledge_reads (v : Word) (s : State) : (acknowledge v s).reads = s.reads := rfl
@[simp] theorem acknowledge_draws (v : Word) (s : State) : (acknowledge v s).draws = s.draws := rfl

/-! ### `acceptCommand` -/

@[simp] theorem acceptCommand_cfg (w : Word) (s : State) : (acceptCommand w s).cfg = s.cfg := rfl
@[simp] theorem acceptCommand_ie (w : Word) (s : State) : (acceptCommand w s).ie = s.ie := rfl
@[simp] theorem acceptCommand_status (w : Word) (s : State) : (acceptCommand w s).status = { s.status with busy := true, done := false } := rfl
@[simp] theorem acceptCommand_cmd (w : Word) (s : State) : (acceptCommand w s).cmd = w := rfl
@[simp] theorem acceptCommand_wdata (w : Word) (s : State) : (acceptCommand w s).wdata = s.wdata := rfl
@[simp] theorem acceptCommand_result (w : Word) (s : State) : (acceptCommand w s).result = s.result := rfl
@[simp] theorem acceptCommand_tb (w : Word) (s : State) : (acceptCommand w s).tb = s.tb := rfl
@[simp] theorem acceptCommand_hdrLen (w : Word) (s : State) : (acceptCommand w s).hdrLen = s.hdrLen := rfl
@[simp] theorem acceptCommand_pk (w : Word) (s : State) : (acceptCommand w s).pk = s.pk := rfl
@[simp] theorem acceptCommand_hbuf (w : Word) (s : State) : (acceptCommand w s).hbuf = s.hbuf := rfl
@[simp] theorem acceptCommand_pbuf (w : Word) (s : State) : (acceptCommand w s).pbuf = s.pbuf := rfl
@[simp] theorem acceptCommand_lcmd (w : Word) (s : State) : (acceptCommand w s).lcmd = w := rfl
@[simp] theorem acceptCommand_prog (w : Word) (s : State) : (acceptCommand w s).prog = s.prog := rfl
@[simp] theorem acceptCommand_sched (w : Word) (s : State) : (acceptCommand w s).sched = s.sched := rfl
@[simp] theorem acceptCommand_reads (w : Word) (s : State) : (acceptCommand w s).reads = s.reads := rfl
@[simp] theorem acceptCommand_draws (w : Word) (s : State) : (acceptCommand w s).draws = s.draws := rfl

/-! ### `dropWrite` -/

@[simp] theorem dropWrite_cfg (s : State) : (dropWrite s).cfg = s.cfg := rfl
@[simp] theorem dropWrite_ie (s : State) : (dropWrite s).ie = s.ie := rfl
@[simp] theorem dropWrite_status (s : State) : (dropWrite s).status = { s.status with ovr := true } := rfl
@[simp] theorem dropWrite_cmd (s : State) : (dropWrite s).cmd = s.cmd := rfl
@[simp] theorem dropWrite_wdata (s : State) : (dropWrite s).wdata = s.wdata := rfl
@[simp] theorem dropWrite_result (s : State) : (dropWrite s).result = s.result := rfl
@[simp] theorem dropWrite_tb (s : State) : (dropWrite s).tb = s.tb := rfl
@[simp] theorem dropWrite_hdrLen (s : State) : (dropWrite s).hdrLen = s.hdrLen := rfl
@[simp] theorem dropWrite_pk (s : State) : (dropWrite s).pk = s.pk := rfl
@[simp] theorem dropWrite_hbuf (s : State) : (dropWrite s).hbuf = s.hbuf := rfl
@[simp] theorem dropWrite_pbuf (s : State) : (dropWrite s).pbuf = s.pbuf := rfl
@[simp] theorem dropWrite_lcmd (s : State) : (dropWrite s).lcmd = s.lcmd := rfl
@[simp] theorem dropWrite_prog (s : State) : (dropWrite s).prog = s.prog := rfl
@[simp] theorem dropWrite_sched (s : State) : (dropWrite s).sched = s.sched := rfl
@[simp] theorem dropWrite_reads (s : State) : (dropWrite s).reads = s.reads := rfl
@[simp] theorem dropWrite_draws (s : State) : (dropWrite s).draws = s.draws := rfl

/-! ### `setTree` -/

@[simp] theorem setTree_cfg (x : TreeBuilder) (s : State) : (setTree x s).cfg = s.cfg := rfl
@[simp] theorem setTree_ie (x : TreeBuilder) (s : State) : (setTree x s).ie = s.ie := rfl
@[simp] theorem setTree_status (x : TreeBuilder) (s : State) : (setTree x s).status = s.status := rfl
@[simp] theorem setTree_cmd (x : TreeBuilder) (s : State) : (setTree x s).cmd = s.cmd := rfl
@[simp] theorem setTree_wdata (x : TreeBuilder) (s : State) : (setTree x s).wdata = s.wdata := rfl
@[simp] theorem setTree_result (x : TreeBuilder) (s : State) : (setTree x s).result = s.result := rfl
@[simp] theorem setTree_tb (x : TreeBuilder) (s : State) : (setTree x s).tb = x := rfl
@[simp] theorem setTree_hdrLen (x : TreeBuilder) (s : State) : (setTree x s).hdrLen = s.hdrLen := rfl
@[simp] theorem setTree_pk (x : TreeBuilder) (s : State) : (setTree x s).pk = s.pk := rfl
@[simp] theorem setTree_hbuf (x : TreeBuilder) (s : State) : (setTree x s).hbuf = s.hbuf := rfl
@[simp] theorem setTree_pbuf (x : TreeBuilder) (s : State) : (setTree x s).pbuf = s.pbuf := rfl
@[simp] theorem setTree_lcmd (x : TreeBuilder) (s : State) : (setTree x s).lcmd = s.lcmd := rfl
@[simp] theorem setTree_prog (x : TreeBuilder) (s : State) : (setTree x s).prog = s.prog := rfl
@[simp] theorem setTree_sched (x : TreeBuilder) (s : State) : (setTree x s).sched = s.sched := rfl
@[simp] theorem setTree_reads (x : TreeBuilder) (s : State) : (setTree x s).reads = s.reads := rfl
@[simp] theorem setTree_draws (x : TreeBuilder) (s : State) : (setTree x s).draws = s.draws := rfl

/-! ### `setPacker` -/

@[simp] theorem setPacker_cfg (x : Packer) (s : State) : (setPacker x s).cfg = s.cfg := rfl
@[simp] theorem setPacker_ie (x : Packer) (s : State) : (setPacker x s).ie = s.ie := rfl
@[simp] theorem setPacker_status (x : Packer) (s : State) : (setPacker x s).status = s.status := rfl
@[simp] theorem setPacker_cmd (x : Packer) (s : State) : (setPacker x s).cmd = s.cmd := rfl
@[simp] theorem setPacker_wdata (x : Packer) (s : State) : (setPacker x s).wdata = s.wdata := rfl
@[simp] theorem setPacker_result (x : Packer) (s : State) : (setPacker x s).result = s.result := rfl
@[simp] theorem setPacker_tb (x : Packer) (s : State) : (setPacker x s).tb = s.tb := rfl
@[simp] theorem setPacker_hdrLen (x : Packer) (s : State) : (setPacker x s).hdrLen = s.hdrLen := rfl
@[simp] theorem setPacker_pk (x : Packer) (s : State) : (setPacker x s).pk = x := rfl
@[simp] theorem setPacker_hbuf (x : Packer) (s : State) : (setPacker x s).hbuf = s.hbuf := rfl
@[simp] theorem setPacker_pbuf (x : Packer) (s : State) : (setPacker x s).pbuf = s.pbuf := rfl
@[simp] theorem setPacker_lcmd (x : Packer) (s : State) : (setPacker x s).lcmd = s.lcmd := rfl
@[simp] theorem setPacker_prog (x : Packer) (s : State) : (setPacker x s).prog = s.prog := rfl
@[simp] theorem setPacker_sched (x : Packer) (s : State) : (setPacker x s).sched = s.sched := rfl
@[simp] theorem setPacker_reads (x : Packer) (s : State) : (setPacker x s).reads = s.reads := rfl
@[simp] theorem setPacker_draws (x : Packer) (s : State) : (setPacker x s).draws = s.draws := rfl

/-! ### `setResults` -/

@[simp] theorem setResults_cfg (r : Results) (s : State) : (setResults r s).cfg = s.cfg := rfl
@[simp] theorem setResults_ie (r : Results) (s : State) : (setResults r s).ie = s.ie := rfl
@[simp] theorem setResults_status (r : Results) (s : State) : (setResults r s).status = s.status := rfl
@[simp] theorem setResults_cmd (r : Results) (s : State) : (setResults r s).cmd = s.cmd := rfl
@[simp] theorem setResults_wdata (r : Results) (s : State) : (setResults r s).wdata = s.wdata := rfl
@[simp] theorem setResults_result (r : Results) (s : State) : (setResults r s).result = r := rfl
@[simp] theorem setResults_tb (r : Results) (s : State) : (setResults r s).tb = s.tb := rfl
@[simp] theorem setResults_hdrLen (r : Results) (s : State) : (setResults r s).hdrLen = s.hdrLen := rfl
@[simp] theorem setResults_pk (r : Results) (s : State) : (setResults r s).pk = s.pk := rfl
@[simp] theorem setResults_hbuf (r : Results) (s : State) : (setResults r s).hbuf = s.hbuf := rfl
@[simp] theorem setResults_pbuf (r : Results) (s : State) : (setResults r s).pbuf = s.pbuf := rfl
@[simp] theorem setResults_lcmd (r : Results) (s : State) : (setResults r s).lcmd = s.lcmd := rfl
@[simp] theorem setResults_prog (r : Results) (s : State) : (setResults r s).prog = s.prog := rfl
@[simp] theorem setResults_sched (r : Results) (s : State) : (setResults r s).sched = s.sched := rfl
@[simp] theorem setResults_reads (r : Results) (s : State) : (setResults r s).reads = s.reads := rfl
@[simp] theorem setResults_draws (r : Results) (s : State) : (setResults r s).draws = s.draws := rfl

/-! ### `setResult0` -/

@[simp] theorem setResult0_cfg (w : Word) (s : State) : (setResult0 w s).cfg = s.cfg := rfl
@[simp] theorem setResult0_ie (w : Word) (s : State) : (setResult0 w s).ie = s.ie := rfl
@[simp] theorem setResult0_status (w : Word) (s : State) : (setResult0 w s).status = s.status := rfl
@[simp] theorem setResult0_cmd (w : Word) (s : State) : (setResult0 w s).cmd = s.cmd := rfl
@[simp] theorem setResult0_wdata (w : Word) (s : State) : (setResult0 w s).wdata = s.wdata := rfl
@[simp] theorem setResult0_result (w : Word) (s : State) : (setResult0 w s).result = { s.result with r0 := w } := rfl
@[simp] theorem setResult0_tb (w : Word) (s : State) : (setResult0 w s).tb = s.tb := rfl
@[simp] theorem setResult0_hdrLen (w : Word) (s : State) : (setResult0 w s).hdrLen = s.hdrLen := rfl
@[simp] theorem setResult0_pk (w : Word) (s : State) : (setResult0 w s).pk = s.pk := rfl
@[simp] theorem setResult0_hbuf (w : Word) (s : State) : (setResult0 w s).hbuf = s.hbuf := rfl
@[simp] theorem setResult0_pbuf (w : Word) (s : State) : (setResult0 w s).pbuf = s.pbuf := rfl
@[simp] theorem setResult0_lcmd (w : Word) (s : State) : (setResult0 w s).lcmd = s.lcmd := rfl
@[simp] theorem setResult0_prog (w : Word) (s : State) : (setResult0 w s).prog = s.prog := rfl
@[simp] theorem setResult0_sched (w : Word) (s : State) : (setResult0 w s).sched = s.sched := rfl
@[simp] theorem setResult0_reads (w : Word) (s : State) : (setResult0 w s).reads = s.reads := rfl
@[simp] theorem setResult0_draws (w : Word) (s : State) : (setResult0 w s).draws = s.draws := rfl

/-! ### `setResult01` -/

@[simp] theorem setResult01_cfg (v w : Word) (s : State) : (setResult01 v w s).cfg = s.cfg := rfl
@[simp] theorem setResult01_ie (v w : Word) (s : State) : (setResult01 v w s).ie = s.ie := rfl
@[simp] theorem setResult01_status (v w : Word) (s : State) : (setResult01 v w s).status = s.status := rfl
@[simp] theorem setResult01_cmd (v w : Word) (s : State) : (setResult01 v w s).cmd = s.cmd := rfl
@[simp] theorem setResult01_wdata (v w : Word) (s : State) : (setResult01 v w s).wdata = s.wdata := rfl
@[simp] theorem setResult01_result (v w : Word) (s : State) : (setResult01 v w s).result = { s.result with r0 := v, r1 := w } := rfl
@[simp] theorem setResult01_tb (v w : Word) (s : State) : (setResult01 v w s).tb = s.tb := rfl
@[simp] theorem setResult01_hdrLen (v w : Word) (s : State) : (setResult01 v w s).hdrLen = s.hdrLen := rfl
@[simp] theorem setResult01_pk (v w : Word) (s : State) : (setResult01 v w s).pk = s.pk := rfl
@[simp] theorem setResult01_hbuf (v w : Word) (s : State) : (setResult01 v w s).hbuf = s.hbuf := rfl
@[simp] theorem setResult01_pbuf (v w : Word) (s : State) : (setResult01 v w s).pbuf = s.pbuf := rfl
@[simp] theorem setResult01_lcmd (v w : Word) (s : State) : (setResult01 v w s).lcmd = s.lcmd := rfl
@[simp] theorem setResult01_prog (v w : Word) (s : State) : (setResult01 v w s).prog = s.prog := rfl
@[simp] theorem setResult01_sched (v w : Word) (s : State) : (setResult01 v w s).sched = s.sched := rfl
@[simp] theorem setResult01_reads (v w : Word) (s : State) : (setResult01 v w s).reads = s.reads := rfl
@[simp] theorem setResult01_draws (v w : Word) (s : State) : (setResult01 v w s).draws = s.draws := rfl

/-! ### `resetRegisters` -/

@[simp] theorem resetRegisters_cfg (s : State) : (resetRegisters s).cfg = s.cfg := rfl
@[simp] theorem resetRegisters_ie (s : State) : (resetRegisters s).ie = false := rfl
@[simp] theorem resetRegisters_status (s : State) : (resetRegisters s).status = .cleared := rfl
@[simp] theorem resetRegisters_cmd (s : State) : (resetRegisters s).cmd = 0#32 := rfl
@[simp] theorem resetRegisters_wdata (s : State) : (resetRegisters s).wdata = 0#32 := rfl
@[simp] theorem resetRegisters_result (s : State) : (resetRegisters s).result = .cleared := rfl
@[simp] theorem resetRegisters_tb (s : State) : (resetRegisters s).tb = .cleared := rfl
@[simp] theorem resetRegisters_hdrLen (s : State) : (resetRegisters s).hdrLen = 0#32 := rfl
@[simp] theorem resetRegisters_pk (s : State) : (resetRegisters s).pk = .cleared := rfl
@[simp] theorem resetRegisters_hbuf (s : State) : (resetRegisters s).hbuf = s.hbuf := rfl
@[simp] theorem resetRegisters_pbuf (s : State) : (resetRegisters s).pbuf = s.pbuf := rfl
@[simp] theorem resetRegisters_lcmd (s : State) : (resetRegisters s).lcmd = 0#32 := rfl
@[simp] theorem resetRegisters_prog (s : State) : (resetRegisters s).prog = s.prog := rfl
@[simp] theorem resetRegisters_sched (s : State) : (resetRegisters s).sched = s.sched := rfl
@[simp] theorem resetRegisters_reads (s : State) : (resetRegisters s).reads = s.reads := rfl
@[simp] theorem resetRegisters_draws (s : State) : (resetRegisters s).draws = s.draws := rfl

/-! ### `takeHeaderDraws` -/

@[simp] theorem takeHeaderDraws_cfg (s : State) : (takeHeaderDraws s).cfg = s.cfg := rfl
@[simp] theorem takeHeaderDraws_ie (s : State) : (takeHeaderDraws s).ie = s.ie := rfl
@[simp] theorem takeHeaderDraws_status (s : State) : (takeHeaderDraws s).status = s.status := rfl
@[simp] theorem takeHeaderDraws_cmd (s : State) : (takeHeaderDraws s).cmd = s.cmd := rfl
@[simp] theorem takeHeaderDraws_wdata (s : State) : (takeHeaderDraws s).wdata = s.wdata := rfl
@[simp] theorem takeHeaderDraws_result (s : State) : (takeHeaderDraws s).result = s.result := rfl
@[simp] theorem takeHeaderDraws_tb (s : State) : (takeHeaderDraws s).tb = s.tb := rfl
@[simp] theorem takeHeaderDraws_hdrLen (s : State) : (takeHeaderDraws s).hdrLen = s.hdrLen := rfl
@[simp] theorem takeHeaderDraws_pk (s : State) : (takeHeaderDraws s).pk = s.pk := rfl
@[simp] theorem takeHeaderDraws_hbuf (s : State) : (takeHeaderDraws s).hbuf = s.hbuf := rfl
@[simp] theorem takeHeaderDraws_pbuf (s : State) : (takeHeaderDraws s).pbuf = s.pbuf := rfl
@[simp] theorem takeHeaderDraws_lcmd (s : State) : (takeHeaderDraws s).lcmd = s.lcmd := rfl
@[simp] theorem takeHeaderDraws_prog (s : State) : (takeHeaderDraws s).prog = s.prog := rfl
@[simp] theorem takeHeaderDraws_sched (s : State) : (takeHeaderDraws s).sched = s.sched := rfl
@[simp] theorem takeHeaderDraws_reads (s : State) : (takeHeaderDraws s).reads = s.reads := rfl
@[simp] theorem takeHeaderDraws_draws (s : State) : (takeHeaderDraws s).draws = s.draws + s.hdrLen.toNat := rfl

/-! ### `busRead` -/

@[simp] theorem busRead_cfg (off : Nat) (s : State) : (busRead off s).cfg = s.cfg := rfl
@[simp] theorem busRead_ie (off : Nat) (s : State) : (busRead off s).ie = s.ie := rfl
@[simp] theorem busRead_status (off : Nat) (s : State) : (busRead off s).status = s.status := rfl
@[simp] theorem busRead_cmd (off : Nat) (s : State) : (busRead off s).cmd = s.cmd := rfl
@[simp] theorem busRead_wdata (off : Nat) (s : State) : (busRead off s).wdata = s.wdata := rfl
@[simp] theorem busRead_result (off : Nat) (s : State) : (busRead off s).result = s.result := rfl
@[simp] theorem busRead_tb (off : Nat) (s : State) : (busRead off s).tb = s.tb := rfl
@[simp] theorem busRead_hdrLen (off : Nat) (s : State) : (busRead off s).hdrLen = s.hdrLen := rfl
@[simp] theorem busRead_pk (off : Nat) (s : State) : (busRead off s).pk = s.pk := rfl
@[simp] theorem busRead_hbuf (off : Nat) (s : State) : (busRead off s).hbuf = s.hbuf := rfl
@[simp] theorem busRead_pbuf (off : Nat) (s : State) : (busRead off s).pbuf = s.pbuf := rfl
@[simp] theorem busRead_lcmd (off : Nat) (s : State) : (busRead off s).lcmd = s.lcmd := rfl
@[simp] theorem busRead_prog (off : Nat) (s : State) : (busRead off s).prog = s.prog := rfl
@[simp] theorem busRead_sched (off : Nat) (s : State) : (busRead off s).sched = s.sched := rfl
@[simp] theorem busRead_reads (off : Nat) (s : State) : (busRead off s).reads = busValue s off :: s.reads := rfl
@[simp] theorem busRead_draws (off : Nat) (s : State) : (busRead off s).draws = s.draws + 4 := rfl

/-! ### `finish` -/

@[simp] theorem finish_ok (s t : State) : finish s (.ok t) = complete .noError t := rfl
@[simp] theorem finish_error (s : State) (e : ErrorCode) : finish s (.error e) = complete e s := rfl

end Sys2Proof.Machine
end

