-- ==== Sys2Proof/Laws/Invariant.lean ====
section
/-! SUPPORT. The shared operations keep the machine's invariant, one lemma per operation. -/

namespace Sys2Proof.Machine

/-- A completion with a code that HUFB raises keeps the invariant (40_control.md R142). -/
theorem complete_inv {s : State} (e : ErrorCode) (he : e ≠ .unknownSymbol ∧ e ≠ .truncatedStream) (h : s.Inv) :
    (complete e s).Inv :=
  { h with errCode := he, busyDone := by simp [complete] }

theorem setTree_inv {s : State} (tb : TreeBuilder) (ht : tb.Inv s.cfg) (h : s.Inv) : (setTree tb s).Inv :=
  { h with tree := ht }

theorem setResults_inv {s : State} (r : Results) (h : s.Inv) : (setResults r s).Inv := { h with }

theorem setResult0_inv {s : State} (w : Word) (h : s.Inv) : (setResult0 w s).Inv := { h with }

theorem setResult01_inv {s : State} (w0 w1 : Word) (h : s.Inv) : (setResult01 w0 w1 s).Inv := { h with }

theorem takeHeaderDraws_inv {s : State} (h : s.Inv) : (takeHeaderDraws s).Inv := { h with }

theorem packer_cleared_inv (c : Config) (m : Memory) : Packer.cleared.Inv c m where
  nbytes := Nat.zero_le _
  waiting := by simp [Packer.cleared]
  closed := by simp [Packer.cleared]
  packed := by simp [Packer.cleared]

theorem setPacker_inv {s : State} (pk : Packer) (hp : pk.Inv s.cfg s.pbuf) (h : s.Inv) : (setPacker pk s).Inv :=
  { h with packer := hp }

/-- The reset of the registers, in a legal configuration with buffers in form, has the invariant. -/
theorem resetRegisters_inv {s : State} (h : s.Inv) : (resetRegisters s).Inv where
  legal := h.legal
  tree := cleared_inv _
  packer := packer_cleared_inv _ _
  hbufWf := h.hbufWf
  hbufBound := h.hbufBound
  pbufWf := h.pbufWf
  pbufBound := h.pbufBound
  wdata := Nat.two_pow_pos _
  errCode := by simp [resetRegisters, State.resetOf, Status.cleared]
  busyDone := by simp [resetRegisters, State.resetOf, Status.cleared]
  latched := rfl

/-- What a reset makes unknown: nothing, bytes of HBUF, or bytes of PBUF (70_reset_and_hazards.md R281). -/
theorem abandonWrites_cases (s : State) :
    abandonWrites s = s
    ∨ abandonWrites s = { s with hbuf := Memory.forget s.hbuf 0 s.cfg.hbufSize }
    ∨ abandonWrites s = { s with pbuf := Memory.forget s.pbuf s.pk.nbytes 3 } := by
  unfold abandonWrites
  cases s.status.busy with
  | false => exact .inl rfl
  | true =>
    cases decodeWord s.lcmd with
    | error e => exact .inl rfl
    | ok i => cases i <;> first | exact .inl rfl | exact .inr (.inl rfl) | exact .inr (.inr rfl)

theorem abandonWrites_inv {s : State} (h : s.Inv) : (resetRegisters (abandonWrites s)).Inv := by
  have key : ∀ t : State, t.cfg = s.cfg → Memory.wf t.hbuf → (∀ c ∈ t.hbuf, c.1 < s.cfg.hbufSize) →
      Memory.wf t.pbuf → (∀ c ∈ t.pbuf, c.1 < s.cfg.pbufSize) → (resetRegisters t).Inv := fun t hc h1 h2 h3 h4 =>
    { legal := by show t.cfg.Legal; rw [hc]; exact h.legal
      tree := cleared_inv _
      packer := packer_cleared_inv _ _
      hbufWf := h1
      hbufBound := by show ∀ c ∈ t.hbuf, c.1 < t.cfg.hbufSize; rw [hc]; exact h2
      pbufWf := h3
      pbufBound := by show ∀ c ∈ t.pbuf, c.1 < t.cfg.pbufSize; rw [hc]; exact h4
      wdata := Nat.two_pow_pos _
      errCode := by simp [resetRegisters, State.resetOf, Status.cleared]
      busyDone := by simp [resetRegisters, State.resetOf, Status.cleared]
      latched := rfl }
  rcases abandonWrites_cases s with e | e | e <;> rw [e]
  · exact resetRegisters_inv h
  · exact key _ rfl (wf_forget _ _ _ h.hbufWf) (bound_forget _ _ _ _ h.hbufBound) h.pbufWf h.pbufBound
  · exact key _ rfl h.hbufWf h.hbufBound (wf_forget _ _ _ h.pbufWf) (bound_forget _ _ _ _ h.pbufBound)

/-! ### The packer's writes -/

theorem pkBytes_length (pk : Packer) (n : BitVec 5) (d : BitVec 16) : (pkBytes pk n d).length = pkFullBytes pk n := by
  simp [pkBytes]

/-- The accumulator that PK_BITS leaves has zeros below its waiting bits (10_state.md R47). -/
theorem pkRest_waiting (v r : Nat) (hr : r < 8) : (pkRest v r).toNat % 2 ^ (8 - r) = 0 := by
  unfold pkRest
  split
  · simp
  · rw [BitVec.toNat_ofNat, show (0xFF : Nat) = 2 ^ 8 - 1 from rfl, Nat.and_two_pow_sub_one_eq_mod, Nat.mod_mod,
      Nat.mod_mod_of_dvd _ (pow_dvd_pow 2 (by omega)), Nat.shiftLeft_eq, Nat.mul_mod_left]

/-- PK_BITS' writes keep the invariant when its bytes fit (43_bit_packer.md R222). -/
theorem pushBits_inv {s : State} (n : BitVec 5) (d : BitVec 16) (hc : s.pk.closed = false)
    (hf : s.pk.nbytes + pkFullBytes s.pk n ≤ s.cfg.pbufSize) (h : s.Inv) : (pushBits n d s).Inv :=
  { h with
    pbufWf := wf_writeBytes _ _ _ _ h.pbufWf
    pbufBound := bound_writeBytes _ _ _ _ h.pbufBound
    packer := {
      nbytes := hf
      waiting := by
        have hr : pkTotal s.pk n % 8 < 8 := Nat.mod_lt _ (by decide)
        have := pkRest_waiting (pkValue s.pk n d) (pkTotal s.pk n % 8) hr
        simpa [pushBits, Nat.mod_eq_of_lt hr] using this
      closed := fun hcl => by
        have : s.pk.closed = true := hcl
        simp [hc] at this
      packed := fun j hj => by
        simp only [pushBits] at hj ⊢
        rw [read_writeBytes, pkBytes_length]
        split
        · next hin => rw [List.getElem?_eq_getElem (by rw [pkBytes_length]; omega)]; rfl
        · exact h.packer.packed j (by omega) } }

/-- PK_FLUSH's writes keep the invariant when its byte fits (43_bit_packer.md R223). -/
theorem flushStream_inv {s : State} (hf : s.pk.k ≠ 0#3 → s.pk.nbytes ≠ s.cfg.pbufSize) (h : s.Inv) :
    (flushStream s).Inv := by
  have hn := h.packer.nbytes
  exact
  { h with
    pbufWf := by
      simp only [flushStream, setResult0_pbuf]
      split
      · exact h.pbufWf
      · exact wf_writeBelow _ _ _ _ h.pbufWf
    pbufBound := by
      simp only [flushStream, setResult0_pbuf, setResult0_cfg]
      split
      · exact h.pbufBound
      · exact bound_writeBelow _ _ _ _ h.pbufBound
    packer := {
      nbytes := by
        simp only [flushStream, setResult0_pk, setResult0_cfg]
        split
        · exact hn
        · next h0 => have := hf h0; omega
      waiting := by simp [flushStream]
      closed := by simp [flushStream]
      packed := fun j hj => by
        simp only [flushStream, setResult0_pk, setResult0_pbuf] at hj ⊢
        split
        · next h0 => exact h.packer.packed j (by simpa [h0] using hj)
        · next h0 =>
          have := hf h0
          rw [read_writeBelow]
          split
          · rfl
          · next hne => exact h.packer.packed j (by simp [h0] at hj; omega) } }

/-- SER_EMIT's writes keep the invariant (42_serializer.md R193). -/
theorem emitHeader_inv {s : State} (t : List Byte) (h : s.Inv) : (emitHeader t s).Inv :=
  { h with
    hbufWf := wf_writeBytes _ _ _ _ h.hbufWf
    hbufBound := bound_writeBytes _ _ _ _ h.hbufBound }

/-! ### Command bodies -/

/-- A command keeps the invariant when its body's writes do and its error is one that HUFB raises. -/
theorem finish_inv {s : State} (r : Except ErrorCode State) (h : s.Inv) (ho : ∀ t, r = .ok t → t.Inv)
    (he : ∀ e, r = .error e → e ≠ .unknownSymbol ∧ e ≠ .truncatedStream) : (finish s r).Inv := by
  cases r with
  | ok t => exact complete_inv _ (by simp) (ho t rfl)
  | error e => exact complete_inv _ (he e rfl) h

theorem State.Inv.maxLeaves_pos {s : State} (h : s.Inv) : 0 < s.cfg.maxLeaves := by
  have := h.legal.2.2.1.1
  omega

/-- TB_INSERT (41_tree_builder.md R160). -/
theorem tbInsert_inv {s : State} (sym : BitVec 24) (h : s.Inv) : (finish s (tbInsertBody sym s)).Inv := by
  refine finish_inv _ h (fun t ht => ?_) (fun e ht => ?_) <;> unfold tbInsertBody at ht
  · split_ifs at ht with h1 h2 h3 h4
    cases ht
    exact setResults_inv _ (setTree_inv _ (insertLeaf_inv _ _ h.tree h2 (by simpa [symInRange] using h1) h3
      (by have := h.tree.leafBound; omega) (Nat.mod_lt _ (Nat.two_pow_pos _))) h)
  · split_ifs at ht <;> cases ht <;> simp

/-- TB_BUILD (41_tree_builder.md R162). -/
theorem tbBuild_inv {s : State} (h : s.Inv) : (finish s (tbBuildBody s)).Inv := by
  refine finish_inv _ h (fun t ht => ?_) (fun e ht => ?_) <;> unfold tbBuildBody at ht
  · split at ht <;> cases ht
    exact setResults_inv _ (setTree_inv _ (buildTree_spec h.tree (by assumption) h.maxLeaves_pos).1 h)
  · split at ht <;> cases ht <;> simp

/-! ### The host's writes -/

theorem acknowledge_inv {s : State} (v : Word) (h : s.Inv) : (acknowledge v s).Inv :=
  { h with busyDone := fun hb => by simp [acknowledge, h.busyDone hb] }

theorem acceptCommand_inv {s : State} (w : Word) (h : s.Inv) : (acceptCommand w s).Inv :=
  { h with busyDone := by simp [acceptCommand], latched := rfl }

theorem dropWrite_inv {s : State} (h : s.Inv) : (dropWrite s).Inv :=
  { h with }

theorem unlessBusy_inv {s : State} (f : State → State) (hf : (f s).Inv) (h : s.Inv) : (unlessBusy f s).Inv := by
  unfold unlessBusy
  split
  · exact dropWrite_inv h
  · exact hf

/-- A host write keeps the invariant (20_memory.md R84, R87). -/
theorem busWrite_inv {s : State} (off : Nat) (v : Word) (h : s.Inv) : (busWrite off v s).Inv := by
  unfold busWrite
  split
  · next r _ =>
    cases r <;> unfold writeReg <;> dsimp only
    case ctrl => exact { h with }
    case status => exact acknowledge_inv v h
    case cmd => exact unlessBusy_inv _ (acceptCommand_inv v h) h
    case wdata =>
      refine unlessBusy_inv _ { h with wdata := ?_ } h
      have hl : 2 ^ s.cfg.lw ≤ 2 ^ 32 := Nat.pow_le_pow_right (by decide) h.legal.2.1.2
      have := Nat.mod_lt v.toNat (Nat.two_pow_pos s.cfg.lw)
      simp only [wdataBits, BitVec.toNat_ofNat]
      rw [Nat.mod_eq_of_lt (by omega)]
      exact this
    case hdrLen => exact unlessBusy_inv _ { h with } h
    all_goals exact h
  · exact h
  · exact unlessBusy_inv _
      { h with hbufWf := wf_writeBytes _ _ _ _ h.hbufWf, hbufBound := bound_writeBytes _ _ _ _ h.hbufBound } h
  · exact h
  · exact h

/-- A host read keeps the invariant (20_memory.md R89). -/
theorem busRead_inv {s : State} (off : Nat) (h : s.Inv) : (busRead off s).Inv := { h with }

end Sys2Proof.Machine
end

