-- ==== Sys2Proof/Laws/PerInstr.lean ====
section
/-! SUPPORT. Facts about every command as syntax, one lemma per constructor. -/

namespace Sys2Proof.Laws

/-- The word of a command matches the opcode-map row of its own mnemonic (spec/30_encoding.md R117, R118). -/
def EncodeMatchesTable.Statement (i : Instr) : Prop :=
  ∃ r ∈ opcodeMap, r.mnemonic = i.mnemonic ∧ r.hits (encode i) = true

theorem EncodeMatchesTable.nop : EncodeMatchesTable.Statement .nop := by
  refine ⟨opcodeMap[0], by simp [opcodeMap], rfl, by decide⟩
theorem EncodeMatchesTable.softReset : EncodeMatchesTable.Statement .softReset := by
  refine ⟨opcodeMap[1], by simp [opcodeMap], rfl, by decide⟩
theorem EncodeMatchesTable.tbClear : EncodeMatchesTable.Statement .tbClear := by
  refine ⟨opcodeMap[2], by simp [opcodeMap], rfl, by decide⟩

theorem EncodeMatchesTable.tbInsert (sym : BitVec 24) : EncodeMatchesTable.Statement (.tbInsert sym) := by
  refine ⟨opcodeMap[3], by simp [opcodeMap], rfl, ?_⟩
  simp only [OpcodeRow.hits, beq_iff_eq, opcodeMap, encode, List.getElem_cons_succ, List.getElem_cons_zero]
  apply BitVec.eq_of_getLsbD_eq
  intro j hj
  simp only [BitVec.getLsbD_and, BitVec.getLsbD_append]
  interval_cases j <;> simp

theorem EncodeMatchesTable.tbMerge : EncodeMatchesTable.Statement .tbMerge := by
  refine ⟨opcodeMap[4], by simp [opcodeMap], rfl, by decide⟩
theorem EncodeMatchesTable.tbBuild : EncodeMatchesTable.Statement .tbBuild := by
  refine ⟨opcodeMap[5], by simp [opcodeMap], rfl, by decide⟩
theorem EncodeMatchesTable.tbPeek : EncodeMatchesTable.Statement .tbPeek := by
  refine ⟨opcodeMap[6], by simp [opcodeMap], rfl, by decide⟩

theorem EncodeMatchesTable.tbReadNode (handle : BitVec 16) :
    EncodeMatchesTable.Statement (.tbReadNode handle) := by
  refine ⟨opcodeMap[7], by simp [opcodeMap], rfl, ?_⟩
  simp only [OpcodeRow.hits, beq_iff_eq, opcodeMap, encode, List.getElem_cons_succ, List.getElem_cons_zero]
  apply BitVec.eq_of_getLsbD_eq
  intro j hj
  simp only [BitVec.getLsbD_and, BitVec.getLsbD_append]
  interval_cases j <;> simp

theorem EncodeMatchesTable.serEmit : EncodeMatchesTable.Statement .serEmit := by
  refine ⟨opcodeMap[8], by simp [opcodeMap], rfl, by decide⟩
theorem EncodeMatchesTable.serParse : EncodeMatchesTable.Statement .serParse := by
  refine ⟨opcodeMap[9], by simp [opcodeMap], rfl, by decide⟩
theorem EncodeMatchesTable.pkClear : EncodeMatchesTable.Statement .pkClear := by
  refine ⟨opcodeMap[10], by simp [opcodeMap], rfl, by decide⟩

theorem EncodeMatchesTable.pkBits (n : BitVec 5) (data : BitVec 16) :
    EncodeMatchesTable.Statement (.pkBits n data) := by
  refine ⟨opcodeMap[11], by simp [opcodeMap], rfl, ?_⟩
  simp only [OpcodeRow.hits, beq_iff_eq, opcodeMap, encode, List.getElem_cons_succ, List.getElem_cons_zero]
  apply BitVec.eq_of_getLsbD_eq
  intro j hj
  simp only [BitVec.getLsbD_and, BitVec.getLsbD_append]
  interval_cases j <;> simp

theorem EncodeMatchesTable.pkFlush : EncodeMatchesTable.Statement .pkFlush := by
  refine ⟨opcodeMap[12], by simp [opcodeMap], rfl, by decide⟩
theorem EncodeMatchesTable.pkDrain : EncodeMatchesTable.Statement .pkDrain := by
  refine ⟨opcodeMap[13], by simp [opcodeMap], rfl, by decide⟩

theorem EncodeMatchesTable.pkUnpack (last : Bool) (pad byte : Byte) :
    EncodeMatchesTable.Statement (.pkUnpack last pad byte) := by
  refine ⟨opcodeMap[14], by simp [opcodeMap], rfl, ?_⟩
  simp only [OpcodeRow.hits, beq_iff_eq, opcodeMap, encode, List.getElem_cons_succ, List.getElem_cons_zero]
  apply BitVec.eq_of_getLsbD_eq
  intro j hj
  simp only [BitVec.getLsbD_and, BitVec.getLsbD_append]
  interval_cases j <;> simp

end Sys2Proof.Laws
end

