-- ==== Sys2Proof/Machine/Assembler.lean ====
section
/-! DEFINITION. The host assembler: program lines and pseudo-instructions, expanded to bus accesses
(spec/30_encoding.md R126 to R129). The lines are abstract syntax; their spelling as text is left out (log entry 18).
Lines outside the forms of R126 to R129 are expanded by the same formulas (log entry 24, DESIGN CHOICE). -/

namespace Sys2Proof.Machine

/-- A literal (30_encoding.md R128): a number written in decimal or hexadecimal, binary digits (most significant
first), or a quoted character by its code. R128 gives the ASCII codes; any other code stands for itself (log entry 24,
DESIGN CHOICE). -/
inductive Literal where
  | num (v : Nat)
  | bin (digits : List Bool)
  | char (code : Nat)
deriving DecidableEq, Repr

/-- The value of binary digits, most significant first. -/
def bitsValue (digits : List Bool) : Nat := digits.foldl (fun v b => 2 * v + b.toNat) 0

/-- The value of a literal (30_encoding.md R128). -/
def Literal.value : Literal → Nat
  | .num v => v
  | .bin digits => bitsValue digits
  | .char code => code

/-- Where WR and RD go (30_encoding.md R126): a register, or the window word at a byte index. -/
inductive Place where
  | reg (r : Reg)
  | hbuf (i : Nat)
  | pbuf (i : Nat)
deriving DecidableEq, Repr

/-- The offset of a place (20_memory.md R82). R126 asks a multiple of 4 within the window; any other index is added to
the window's base all the same, and the access has the meaning of that address (log entry 24, DESIGN CHOICE). -/
def Place.offset : Place → Nat
  | .reg r => r.offset
  | .hbuf i => 0x1000 + i
  | .pbuf i => 0x2000 + i

/-- A program line (30_encoding.md R126, R129). `pkBitsBin` is a bare line `PK_BITS 0b<digits>`, without CMD or EXEC and
without an explicit n; after CMD or EXEC the form is `.cmd (bitsCommand digits)` or `.exec (bitsCommand digits)`. -/
inductive Line where
  | wr (p : Place) (v : Literal)
  | rd (p : Place)
  | cmd (i : Instr)
  | poll
  | exec (i : Instr)
  | insert (sym weight : Literal)
  | putbits (digits : List Bool)
  | pkBitsBin (digits : List Bool)
  | check
deriving DecidableEq, Repr

/-- `PK_BITS n, 0b<digits>` with n the digit count (30_encoding.md R129). R129 gives the form for 1 to 16 digits; with no
digit or more than 16, `n` is the count modulo 32 and the data the low 16 bits of the value (log entry 24, DESIGN
CHOICE). -/
def bitsCommand (digits : List Bool) : Instr :=
  .pkBits (BitVec.ofNat 5 digits.length) (BitVec.ofNat 16 (bitsValue digits))

/-- WR: a MemWrite of a word. -/
def wrOp (c : Config) (p : Place) (v : Word) : HostOp := .write (c.hufbBase + p.offset) 4 v

/-- RD: a MemRead. -/
def rdOp (c : Config) (p : Place) : HostOp := .read (c.hufbBase + p.offset) 4

/-- CMD: a MemWrite of the encoded command word to CMD. -/
def cmdOp (c : Config) (i : Instr) : HostOp := wrOp c (.reg .cmd) (encode i)

/-- The chunks of PUTBITS: at most 16 digits each, left to right (30_encoding.md R129). R129 asks at least one digit; no
digit gives no chunk (log entry 24, DESIGN CHOICE). -/
def chunks16 : Nat → List Bool → List (List Bool)
  | 0, _ => []
  | fuel + 1, digits => if digits = [] then [] else digits.take 16 :: chunks16 fuel (digits.drop 16)

/-- The expansion of a line into host operations (30_encoding.md R126, R129). CHECK's expectation is a note to the
reader; its operation is the read of STATUS. The rules do not say what becomes of a literal wider than its field: a WR
or INSERT value keeps its low 32 bits and an INSERT symbol its low 24 (log entry 24, DESIGN CHOICE). R129 rewrites
`PK_BITS 0b<digits>` to `PK_BITS n, 0b<digits>` and R126 has no bare line of a command, so no rule gives a bare line its
bus operations: it is one write of CMD with no POLL, as after CMD (log entry 24, DESIGN CHOICE). -/
def Line.expand (c : Config) : Line → List HostOp
  | .wr p v => [wrOp c p (BitVec.ofNat 32 v.value)]
  | .rd p => [rdOp c p]
  | .cmd i => [cmdOp c i]
  | .poll => [.poll]
  | .exec i => [cmdOp c i, .poll]
  | .insert sym weight =>
    [wrOp c (.reg .wdata) (BitVec.ofNat 32 weight.value), cmdOp c (.tbInsert (BitVec.ofNat 24 sym.value)), .poll]
  | .putbits digits =>
    (chunks16 digits.length digits).flatMap (fun d => [cmdOp c (bitsCommand d), .poll])
  | .pkBitsBin digits => [cmdOp c (bitsCommand digits)]
  | .check => [rdOp c (.reg .status)]

/-- The host operations of a program: its lines in order (30_encoding.md R126). -/
def assemble (c : Config) (lines : List Line) : List HostOp := lines.flatMap (Line.expand c)

/-- CHECK's expectation of the STATUS word read: ERRCODE = 0 (30_encoding.md R129). -/
def checkHolds (status : Word) : Bool := status.extractLsb' 4 4 == 0#4

end Sys2Proof.Machine
end

