-- ==== Sys2Proof/Machine/HostSoftware.lean ====
section
/-! DEFINITION. The software around HUFB, as spec/00_scope.md R20 to R25 restates it for reading the examples:
frequency counting, code table, encode and decode, and the container. R5 leaves it out of the block; no command uses
it (log entry 19). -/

namespace Sys2Proof.Machine

/-- The FrequencyCounter: each distinct symbol with its count (00_scope.md R20). -/
def frequencies (text : List Nat) : List (Nat × Nat) := text.dedup.map (fun s => (s, text.count s))

/-- The root-to-leaf paths, `0` for left and `1` for right (00_scope.md R21), depth-first. R21 does not say which child is
visited first: the left one is. That matters only for a parsed tree with a symbol at two leaves (42_serializer.md R199),
of which the code table keeps the leftmost leaf's path (log entry 26, DESIGN CHOICE). -/
def treePaths : HufTree → List (Nat × List Bool)
  | .leaf s _ => [(s, [])]
  | .node _ l r =>
    (treePaths l).map (fun p => (p.1, false :: p.2)) ++ (treePaths r).map (fun p => (p.1, true :: p.2))

/-- The CodeTableGenerator: the first path of each symbol in the order of `treePaths`, and the placeholder code `0` for a tree of one leaf
(00_scope.md R21). -/
def codeTable : HufTree → List (Nat × List Bool)
  | .leaf s _ => [(s, [false])]
  | .node w l r =>
    (treePaths (.node w l r)).foldl (fun t p => if (t.map Prod.fst).contains p.1 then t else t ++ [p]) []

/-- The code of a symbol in a table. -/
def codeOf (table : List (Nat × List Bool)) (sym : Nat) : Option (List Bool) :=
  (table.find? (fun p => p.1 == sym)).map Prod.snd

/-- Encode: the codes of the symbols in order; UnknownSymbol where one has none (00_scope.md R22). -/
def encodeText (table : List (Nat × List Bool)) : List Nat → Except ErrorCode (List Bool)
  | [] => .ok []
  | s :: text =>
    match codeOf table s, encodeText table text with
    | some code, .ok bits => .ok (code ++ bits)
    | none, _ => .error .unknownSymbol
    | some _, .error e => .error e

/-- Decode: grow a candidate prefix one bit at a time until it is a code; TruncatedStream where the input ends inside
one (00_scope.md R23). -/
def decodeFrom (table : List (Nat × List Bool)) : List Bool → List Bool → Except ErrorCode (List Nat)
  | candidate, [] => if candidate = [] then .ok [] else .error .truncatedStream
  | candidate, b :: bits =>
    match table.find? (fun p => p.2 == candidate ++ [b]) with
    | some p =>
      match decodeFrom table [] bits with
      | .ok text => .ok (p.1 :: text)
      | .error e => .error e
    | none => decodeFrom table (candidate ++ [b]) bits

/-- Decode a bitstring (00_scope.md R23). -/
def decodeText (table : List (Nat × List Bool)) (bits : List Bool) : Except ErrorCode (List Nat) :=
  decodeFrom table [] bits

/-- The container: header length, padding count, header, payload, "big-endian throughout" (00_scope.md R24). R25 has build
fail with MalformedContainer on inconsistent length fields and does not say which inputs of build those are. Build here
never fails: a length or padding count of 2^32 or more keeps its low 32 bits, and a padding count that `parseContainer`
refuses is written as it is (log entry 25, DESIGN CHOICE). -/
def buildContainer (header : List Byte) (padding : Nat) (payload : List Byte) : List Byte :=
  bytesBE header.length 4 ++ bytesBE padding 4 ++ header ++ payload

/-- The container's parts, or MalformedContainer on truncated or inconsistent length fields (00_scope.md R25;
43_bit_packer.md R229, R230). That a padding count of 8 or more is refused here already, before any PK_UNPACK, is log
entry 25 (DEDUCED). -/
def parseContainer (bytes : List Byte) : Except ErrorCode (List Byte × Nat × List Byte) :=
  if bytes.length < 8 then .error .malformedContainer
  else if bytes.length < 8 + valueBE (bytes.take 4) then .error .malformedContainer
  else
    if 8 ≤ valueBE ((bytes.drop 4).take 4) then .error .malformedContainer
    else if bytes.length = 8 + valueBE (bytes.take 4) ∧ valueBE ((bytes.drop 4).take 4) ≠ 0 then
      .error .malformedContainer
    else
      .ok ((bytes.drop 8).take (valueBE (bytes.take 4)), valueBE ((bytes.drop 4).take 4),
        bytes.drop (8 + valueBE (bytes.take 4)))

end Sys2Proof.Machine
end

