-- ==== Sys2Proof/Tests/Slice0.lean ====
section
/-! SUPPORT. The model's own tests: ill-formed commands, decoding of words written out from the spec, one step per
command with values from spec/95_test_vectors.md, and a witness for the hypotheses of every statement. -/

namespace Sys2Proof.Tests
open Sys2Proof Sys2Proof.Machine

/-! ### WellFormed refuses (30_encoding.md R119, R121, R122) -/

theorem test_wf_symbol_out_of_range : (Instr.tbInsert 0x100#24).wellFormed Config.reference = false := by decide
theorem test_wf_bits_n_zero : (Instr.pkBits 0#5 0#16).wellFormed Config.reference = false := by decide
theorem test_wf_bits_n_17 : (Instr.pkBits 17#5 0#16).wellFormed Config.reference = false := by decide
theorem test_wf_bits_data_above_n : (Instr.pkBits 4#5 0x10#16).wellFormed Config.reference = false := by decide
theorem test_wf_pad_without_last : (Instr.pkUnpack false 1#8 0#8).wellFormed Config.reference = false := by decide
theorem test_wf_pad_eight : (Instr.pkUnpack true 8#8 0#8).wellFormed Config.reference = false := by decide
theorem test_wf_accepts_the_bounds :
    (Instr.tbInsert 0xFF#24).wellFormed Config.reference = true
    ∧ (Instr.pkBits 16#5 0xFFFF#16).wellFormed Config.reference = true
    ∧ (Instr.pkUnpack true 7#8 0xFF#8).wellFormed Config.reference = true := by decide

/-! ### Decoding: every constructor's word, from the formats of 30_encoding.md R112 to R118 -/

theorem test_decode_nop : decodeWord 0b00000000_000000000000000000000000#32 = .ok .nop := by decide
theorem test_decode_soft_reset : decodeWord 0b00000001_000000000000000000000000#32 = .ok .softReset := by decide
theorem test_decode_tb_clear : decodeWord 0b00010000_000000000000000000000000#32 = .ok .tbClear := by decide
theorem test_decode_tb_insert :
    decodeWord 0b00010001_000000000000000001100001#32 = .ok (.tbInsert 0x61#24) := by decide
theorem test_decode_tb_merge : decodeWord 0b00010010_000000000000000000000000#32 = .ok .tbMerge := by decide
theorem test_decode_tb_build : decodeWord 0b00010011_000000000000000000000000#32 = .ok .tbBuild := by decide
theorem test_decode_tb_peek : decodeWord 0b00010100_000000000000000000000000#32 = .ok .tbPeek := by decide
theorem test_decode_tb_read_node :
    decodeWord 0b00010101_00000000_0000000111111110#32 = .ok (.tbReadNode 0x1FE#16) := by decide
theorem test_decode_ser_emit : decodeWord 0b00100000_000000000000000000000000#32 = .ok .serEmit := by decide
theorem test_decode_ser_parse : decodeWord 0b00100001_000000000000000000000000#32 = .ok .serParse := by decide
theorem test_decode_pk_clear : decodeWord 0b00110000_000000000000000000000000#32 = .ok .pkClear := by decide
theorem test_decode_pk_bits :
    decodeWord 0b00110001_000_10000_0110100111001111#32 = .ok (.pkBits 16#5 0x69CF#16) := by decide
theorem test_decode_pk_flush : decodeWord 0b00110010_000000000000000000000000#32 = .ok .pkFlush := by decide
theorem test_decode_pk_drain : decodeWord 0b00110011_000000000000000000000000#32 = .ok .pkDrain := by decide
theorem test_decode_pk_unpack :
    decodeWord 0b00110100_0000000_1_00000100_11100000#32 = .ok (.pkUnpack true 4#8 0xE0#8) := by decide

/-- Words that are no command (95_test_vectors.md V-CT-4 to V-CT-7; 30_encoding.md R115, R116, R124). -/
theorem test_decode_rejects :
    decodeWord 0x02000000#32 = .error .unassignedOpcode ∧ decodeWord 0xFF000000#32 = .error .unassignedOpcode
    ∧ decodeWord 0x00000001#32 = .error .reservedBits ∧ decodeWord 0x10000100#32 = .error .reservedBits
    ∧ decodeWord 0x15010000#32 = .error .reservedBits ∧ decodeWord 0x31200001#32 = .error .reservedBits
    ∧ decodeWord 0x34020000#32 = .error .reservedBits := by decide

/-! ### One step per command (values from 95_test_vectors.md) -/

/-- The state after a command. -/
def ran (i : Instr) (s : State) : State :=
  match exec i s with
  | .next t => t
  | .fault _ => s
  | .refused _ => s

/-- The state after a step. -/
def stepped (s : State) : State :=
  match step s with
  | .next t => t
  | .fault _ => s
  | .refused _ => s

/-- The state after `INSERT sym, weight`. -/
def inserted (sym : BitVec 24) (weight : Word) (s : State) : State := ran (.tbInsert sym) { s with wdata := weight }

/-- After `INSERT 'a', 3` and `INSERT 'b', 1`. -/
def loaded : State := inserted 0x62#24 1#32 (inserted 0x61#24 3#32 State.reset)

/-- After TB_BUILD of the same, the tree of W1. -/
def built : State := ran .tbBuild loaded

/-- The five leaves of W6 in handles 0 to 4. -/
def fiveLeaves : State :=
  inserted 0x72#24 2#32 (inserted 0x64#24 1#32 (inserted 0x63#24 1#32 (inserted 0x62#24 2#32
    (inserted 0x61#24 5#32 State.reset))))

/-- The header "0b0a1" in HBUF and HDR_LEN. -/
def headerWritten : State :=
  { State.reset with hbuf := [(0, 0x30#8), (1, 0x62#8), (2, 0x30#8), (3, 0x61#8), (4, 0x31#8)], hdrLen := 5#32 }

/-- A packer with K = 3 and ACC = 0xA0, the worked case of 43_bit_packer.md R233. -/
def threeWaiting : State := { State.reset with pk := { Packer.cleared with k := 3#3, acc := 0xA0#8 } }

theorem test_nop : ran .nop State.reset =
    { State.reset with status := { busy := false, done := true, ovr := false, err := .noError } } := by decide
theorem test_soft_reset_keeps_ctrl : (ran .softReset { built with ie := true }).ie = true
    ∧ (ran .softReset { built with ie := true }).tb = .cleared := by decide
theorem test_tb_clear : (ran .tbClear built).tb = .cleared ∧ (ran .tbClear built).result = built.result := by decide
theorem test_tb_insert_reports_the_leaf : (inserted 0x61#24 3#32 State.reset).result =
    { r0 := 0x80000061#32, r1 := 3#32, r2 := 0#32, r3 := 0#32, r4 := 0#32 } := by decide
theorem test_tb_insert_duplicate : (ran (.tbInsert 0x61#24) loaded).status.err = .duplicateSymbol := by decide
/-- Step 1 of the stepwise merges of W6. -/
theorem test_tb_merge_first : (ran .tbMerge fiveLeaves).result =
    { r0 := 0x00000063#32, r1 := 2#32, r2 := 0x00030002#32, r3 := 0#32, r4 := 5#32 }
    ∧ (ran .tbMerge fiveLeaves).tb.heap.length = 4 := by decide
/-- V-TB-1. -/
theorem test_tb_build_aaab : built.result =
    { r0 := 0x00000061#32, r1 := 4#32, r2 := 0x00000001#32, r3 := 0#32, r4 := 2#32 }
    ∧ rootWord built.tb.root = 0x80000002#32 := by decide
/-- V-TB-9: the weight sum needs 33 bits. -/
theorem test_tb_build_wide_weight :
    (ran .tbBuild (inserted 0x62#24 0xFFFFFFFF#32 (inserted 0x61#24 0xFFFFFFFF#32 State.reset))).result =
    { r0 := 0x00000061#32, r1 := 0xFFFFFFFE#32, r2 := 0x00010000#32, r3 := 1#32, r4 := 2#32 } := by decide
theorem test_tb_peek_minimum : (ran .tbPeek loaded).result =
    { r0 := 0x80000062#32, r1 := 1#32, r2 := 0#32, r3 := 0#32, r4 := 1#32 } := by decide
theorem test_tb_read_node : (ran (.tbReadNode 1#16) built).result =
    { r0 := 0x80000062#32, r1 := 1#32, r2 := 0#32, r3 := 0#32, r4 := 1#32 }
    ∧ (ran (.tbReadNode 3#16) built).status.err = .badState := by decide
/-- W1: HDR_LEN = 5 and HBUF[0..4] = 30 62 30 61 31. -/
theorem test_ser_emit_aaab : (ran .serEmit built).hdrLen = 5#32 ∧ (ran .serEmit built).hbuf = headerWritten.hbuf := by
  decide
/-- The example of 42_serializer.md R195. -/
theorem test_ser_parse_aaab : (ran .serParse headerWritten).result =
    { r0 := 0x00000061#32, r1 := 0#32, r2 := 0x00010000#32, r3 := 0#32, r4 := 2#32 }
    ∧ (ran .serParse headerWritten).tb.leafCount = 2 := by decide
/-- 42_serializer.md R196 (e): the leaf token is cut off. -/
theorem test_ser_parse_cut_off : (ran .serParse { headerWritten with hdrLen := 1#32 }).status.err = .corruptHeader := by
  decide
theorem test_pk_clear : (ran .pkClear threeWaiting).pk = .cleared := by decide
/-- The worked case of 43_bit_packer.md R233. -/
theorem test_pk_bits_worked_case : (ran (.pkBits 7#5 0b1100110#16) threeWaiting).pbuf = [(0, 0xB9#8)]
    ∧ (ran (.pkBits 7#5 0b1100110#16) threeWaiting).pk = { k := 2#3, acc := 0x80#8, closed := false, nbytes := 1, pad := 0#3 }
    := by decide
/-- The example of 43_bit_packer.md R223. -/
theorem test_pk_flush_pads : (ran .pkFlush (ran (.pkBits 4#5 0b1110#16) State.reset)).pbuf = [(0, 0xE0#8)]
    ∧ (ran .pkFlush (ran (.pkBits 4#5 0b1110#16) State.reset)).pk.pad = 4#3 := by decide
/-- No full byte of padding for an aligned stream (43_bit_packer.md R223, R224). -/
theorem test_pk_flush_aligned : (ran .pkFlush State.reset).pk.nbytes = 0 ∧ (ran .pkFlush State.reset).pk.pad = 0#3 := by
  decide
theorem test_pk_drain : (ran .pkDrain { threeWaiting with pk := { threeWaiting.pk with nbytes := 2 } }).pk
    = threeWaiting.pk := by decide
/-- The example of 43_bit_packer.md R228. -/
theorem test_pk_unpack : (ran (.pkUnpack true 4#8 0xE0#8) State.reset).result.r0 = 0xE#32
    ∧ (ran (.pkUnpack true 4#8 0xE0#8) State.reset).result.r1 = 4#32 := by decide

/-! ### The host's side -/

/-- V-CT-2. -/
theorem test_reset_reads : busValue State.reset 0x000 = 0x48554642#32 ∧ busValue State.reset 0x004 = 0x01002008#32
    ∧ busValue State.reset 0x008 = 0x04000400#32 ∧ busValue State.reset 0x010 = 0#32 := by decide
/-- V-CT-8: a second CMD write before the engine step. -/
theorem test_cmd_dropped_while_busy :
    statusWord (busWrite 0x014 0#32 (busWrite 0x014 0#32 State.reset)).status = 0x09#32 := by decide
/-- The example of 42_serializer.md R193. -/
theorem test_hbuf_window_read : busValue headerWritten 0x1000 = 0x30623061#32 := by decide
/-- Case of P1 of 95_test_vectors.md: `0x31??????`, the written byte in bits [31:24]. -/
theorem test_hbuf_window_partial_word (a : Byte) :
    (busValue { State.reset with hbuf := [(4, a)] } 0x1004).extractLsb' 24 8 = a :=
  (windowWord_extract _ _ 4 _ 0 (by decide)).trans (windowByte_written _ _ _ _ a (show 4 + 0 < 1024 by decide) rfl)
/-- 10_state.md R32: the five result registers, at their own offsets. -/
theorem test_result_registers_read : [0x01C, 0x020, 0x024, 0x028, 0x02C].map
    (busValue { State.reset with result := { r0 := 10#32, r1 := 11#32, r2 := 12#32, r3 := 13#32, r4 := 14#32 } })
    = [10#32, 11#32, 12#32, 13#32, 14#32] := by decide
theorem test_hbuf_window_write : (busWrite 0x1000 0x30623061#32 State.reset).hbuf
    = [(0, 0x30#8), (1, 0x62#8), (2, 0x30#8), (3, 0x61#8)] := by decide
/-- V-CT-4, through a step. -/
theorem test_step_runs_a_placed_word : statusWord (stepped (State.reset.withFetchWord 32 0x02000000)).status = 0x66#32 := by
  decide
/-- The example of 30_encoding.md R129. -/
theorem test_putbits_chunks : chunks16 23 (List.replicate 16 true ++ List.replicate 7 false)
    = [List.replicate 16 true, List.replicate 7 false] := by decide

/-! ### Witnesses: a state and operands that meet the hypotheses of each statement, clause by clause -/

/-- A latched command word, the engine's turn next. -/
def latched (w : Word) : State := acceptCommand w State.reset

/-- The next turn is `t`, the host program `ops`. -/
def turnIs (t : Turn) (ops : List HostOp) (s : State) : State := { s with sched := [t], prog := ops }

theorem reset_has_inv : State.reset.Inv where
  legal := by decide
  tree := cleared_inv _
  packer := packer_cleared_inv _ _
  hbufWf := ⟨List.Pairwise.nil, fun _ h => nomatch h⟩
  hbufBound := fun _ h => nomatch h
  pbufWf := ⟨List.Pairwise.nil, fun _ h => nomatch h⟩
  pbufBound := fun _ h => nomatch h
  wdata := Nat.two_pow_pos _
  errCode := by decide
  busyDone := by decide
  latched := rfl

theorem inserted_has_inv (sym : BitVec 24) (weight : Word) (s : State) (h : s.Inv) (hl : s.cfg.lw = 32) :
    (inserted sym weight s).Inv := by
  refine tbInsert_inv sym { h with wdata := ?_ }
  show weight.toNat < 2 ^ s.cfg.lw
  rw [hl]
  exact weight.isLt

theorem loaded_has_inv : loaded.Inv :=
  inserted_has_inv _ _ _ (inserted_has_inv _ _ _ reset_has_inv rfl) rfl

theorem built_has_inv : built.Inv := tbBuild_inv loaded_has_inv

/-- `b` then `a`, the same leaves in the other order. -/
def loadedSwapped : State := inserted 0x61#24 3#32 (inserted 0x62#24 1#32 State.reset)

theorem loadedSwapped_has_inv : loadedSwapped.Inv :=
  inserted_has_inv _ _ _ (inserted_has_inv _ _ _ reset_has_inv rfl) rfl

/-- One leaf. -/
def oneLeaf : State := inserted 0x7A#24 4#32 State.reset

theorem oneLeaf_has_inv : oneLeaf.Inv := inserted_has_inv _ _ _ reset_has_inv rfl

theorem headerWritten_has_inv : headerWritten.Inv :=
  { reset_has_inv with
    hbufWf := by decide
    hbufBound := by decide }

theorem latched_has_inv (w : Word) : (latched w).Inv := acceptCommand_inv w reset_has_inv

theorem witness_EncodeInvertsDecode : decodeWord 0x3110FFFF#32 = .ok (.pkBits 16#5 0xFFFF#16) := by decide

theorem witness_DecodingIsByMaskAndMatch_match :
    ∃ r ∈ opcodeMap, (0x11000061#32 &&& r.mask) = r.pattern := ⟨opcodeMap[3], by simp [opcodeMap], by decide⟩

theorem witness_DecodingIsByMaskAndMatch_none :
    (∀ r ∈ opcodeMap, (0x02000000#32 &&& r.mask) ≠ r.pattern) ∧ engineNext (latched 0x02000000#32)
    ∧ (latched 0x02000000#32).status.busy = true ∧ (latched 0x02000000#32).lcmd = 0x02000000#32 := by
  refine ⟨by decide, .inr ⟨rfl, rfl⟩, rfl, rfl⟩

theorem witness_ReservedEncodingsAreIllegal_opcodes :
    [0x02000000, 0x0F000000, 0x16000000, 0x1F000000, 0x22000000, 0x2F000000, 0x35000000, 0xFFFFFFFF].map
      (fun w => (BitVec.ofNat 32 w).toNat / 2 ^ 24) = [0x02, 0x0F, 0x16, 0x1F, 0x22, 0x2F, 0x35, 0xFF] := by decide

theorem witness_ReservedEncodingsAreIllegal_bits :
    (∃ r ∈ opcodeMap, (0x34020000#32 : Word).toNat / 2 ^ 24 = r.pattern.toNat / 2 ^ 24
      ∧ (0x34020000#32 &&& r.mask) &&& 0x00FFFFFF#32 ≠ 0#32)
    ∧ decodeWord 0#32 = .ok .nop ∧ decodeWord 0x34020000#32 = .error .reservedBits
    ∧ engineNext (latched 0x34020000#32) ∧ (latched 0x34020000#32).status.busy = true
    ∧ (latched 0x34020000#32).lcmd = 0x34020000#32 :=
  ⟨⟨opcodeMap[14], by simp [opcodeMap], by decide, by decide⟩, by decide, by decide, .inr ⟨rfl, rfl⟩, rfl, rfl⟩

theorem witness_StepRunsTheDecodedCommand :
    engineNext (latched 0x14000000#32) ∧ (latched 0x14000000#32).status.busy = true
    ∧ decodeWord (latched 0x14000000#32).lcmd = .ok .tbPeek ∧ decodeTableWord 32 0x14000000 = some .tbPeek :=
  ⟨.inr ⟨rfl, rfl⟩, rfl, by decide, by decide⟩

theorem witness_StepPerformsTheHostOperation_idle : hostNext State.reset ∧ State.reset.prog = [] :=
  ⟨.inr ⟨rfl, rfl⟩, rfl⟩
/-- HUFB placed at 0x40000000. -/
def placed (s : State) : State := { s with cfg := { s.cfg with hufbBase := 0x40000000 } }

/-- The last word of the register space. -/
theorem witness_StepPerformsTheHostOperation_read :
    let s := turnIs .host [.read 0x40003FFC 4] (placed State.reset)
    hostNext s ∧ s.cfg.hufbBase ≤ 0x40003FFC ∧ 0x40003FFC < s.cfg.hufbBase + 0x4000
    ∧ (0x40003FFC - s.cfg.hufbBase) % 4 = 0 ∧ s.prog = .read 0x40003FFC 4 :: [] :=
  ⟨.inl rfl, by decide, by decide, by decide, rfl⟩
/-- The first, and a write of CMD while BUSY = 1. -/
theorem witness_StepPerformsTheHostOperation_write :
    hostNext (turnIs .host [.write 0x40000000 4 0#32] (placed State.reset))
    ∧ (placed State.reset).cfg.hufbBase ≤ 0x40000000 ∧ 0x40000000 < (placed State.reset).cfg.hufbBase + 0x4000
    ∧ (0x40000000 - (placed State.reset).cfg.hufbBase) % 4 = 0
    ∧ hostNext (turnIs .host [.write 0x40000014 4 0#32] (placed (latched 0#32)))
    ∧ (0x40000014 - (placed (latched 0#32)).cfg.hufbBase) % 4 = 0 :=
  ⟨.inl rfl, by decide, by decide, by decide, .inl rfl, by decide⟩
/-- 20_memory.md R81: every offset is relative to HUFB_BASE. -/
theorem test_access_is_relative_to_hufb_base :
    (stepped (turnIs .host [.read 0x40000000 4] (placed State.reset))).reads = [0x48554642#32]
    ∧ accessOffset (placed State.reset).cfg 0x40004000 4 = .error .outsideRegisterSpace
    ∧ accessOffset (placed State.reset).cfg 0x3FFFFFFC 4 = .error .outsideRegisterSpace := by decide
theorem witness_StepPerformsTheHostOperation_poll :
    hostNext (turnIs .host [.poll] (latched 0#32)) ∧ (turnIs .host [.poll] (latched 0#32)).status.busy = true
    ∧ hostNext (turnIs .host [.poll] State.reset) ∧ (turnIs .host [.poll] State.reset).status.busy = false :=
  ⟨.inl rfl, rfl, .inl rfl, rfl⟩

theorem witness_EngineStepsExactlyWhenBusy :
    engineNext (turnIs .engine [] State.reset) ∧ State.reset.status.busy = false
    ∧ engineNext (latched 0x13000000#32) ∧ decodeWord (latched 0x13000000#32).lcmd = .ok .tbBuild
    ∧ engineNext (latched 0xFF000000#32) ∧ decodeWord (latched 0xFF000000#32).lcmd = .error .unassignedOpcode
    ∧ exec .tbBuild (latched 0x13000000#32) = .next (failedWith (latched 0x13000000#32) .emptyAlphabet) :=
  ⟨.inl rfl, rfl, .inr ⟨rfl, rfl⟩, by decide, .inr ⟨rfl, rfl⟩, by decide, rfl⟩

theorem witness_EveryCommandCompletes : (latched 0x20000000#32).Inv ∧ engineNext (latched 0x20000000#32)
    ∧ (latched 0x20000000#32).status.busy = true := ⟨latched_has_inv _, .inr ⟨rfl, rfl⟩, rfl⟩

theorem witness_AcceptedCommandsCompleteAfterHostSteps :
    let s := { latched 0x00000000#32 with sched := [.host, .host, .engine], prog := [.write 0x014 4 1#32, .poll] };
    s.Inv ∧ s.status.busy = true ∧ s.sched = List.replicate 2 .host ++ .engine :: []
    ∧ ∀ op ∈ s.prog, op.legal s.cfg := by
  refine ⟨{ latched_has_inv 0#32 with }, rfl, rfl, fun op hop => ?_⟩
  simp only [List.mem_cons, List.not_mem_nil, or_false] at hop
  rcases hop with rfl | rfl
  · exact ⟨0x014, by decide⟩
  · trivial

theorem witness_CmdWriteSubmitsACommand :
    State.reset.status.busy = false ∧ (latched 0#32).status.busy = true := by decide

theorem witness_AccessesWhileBusy : (latched 0#32).status.busy = true
    ∧ [0x014, 0x018, 0x044, 0x1000, 0x1FFC, 0x01C, 0x050, 0x2FFC, 0x000, 0x00C, 0x054, 0x0FFC, 0x3000, 0x3FFC].all
      (fun off => off % 4 == 0) = true := by decide

theorem witness_IdAndParametersNeverChange : State.reset.cfg.Legal ∧ State.reset.cfg = Config.reference
    ∧ step State.reset = .next State.reset := ⟨by decide, rfl, rfl⟩

theorem witness_CtrlWdataAndHdrLenWrites :
    State.reset.status.busy = false ∧ (latched 0#32).status.busy = true := by decide

theorem witness_ReadOnlyWritesAreIgnored :
    [0x000, 0x008, 0x01C, 0x040, 0x048, 0x050, 0x2000, 0x2FFC].all (fun off => off % 4 == 0) = true := by decide

theorem witness_ReservedOffsetsReadZero :
    [0x054, 0x0FFC, 0x3000, 0x3FFC].all (fun off =>
      decide ((0x054 ≤ off ∧ off ≤ 0x0FFC) ∨ (0x3000 ≤ off ∧ off ≤ 0x3FFC)) && off % 4 == 0) = true := by decide

theorem witness_ReadsHaveNoSideEffect :
    headerWritten.status.busy = false
    ∧ (∀ k, k < 4 → 0x1000 - 0x1000 + k < headerWritten.cfg.hbufSize →
        (Memory.read headerWritten.hbuf (0x1000 - 0x1000 + k)).isSome = true)
    ∧ (latched 0#32).status.busy = true
    ∧ [0x018, 0x054, 0x0FFC, 0x3000, 0x3FFC].all (fun off => off % 4 == 0) = true :=
  ⟨rfl, by decide, rfl, by decide⟩

theorem witness_HbufWindowWords_inside : headerWritten.status.busy = false
    ∧ (∀ k, k < 4 → 4 * 0 + k < headerWritten.cfg.hbufSize →
        Memory.read headerWritten.hbuf (4 * 0 + k) = some ([0x30#8, 0x62#8, 0x30#8, 0x61#8].getD k 0#8)) :=
  ⟨rfl, by decide⟩
theorem witness_HbufWindowWords_above : headerWritten.status.busy = false ∧ 4 * 1023 ≤ 0xFFC
    ∧ (∀ k, k < 4 → headerWritten.cfg.hbufSize ≤ 4 * 1023 + k) ∧ (latched 0#32).status.busy = true :=
  ⟨rfl, by decide, by decide, rfl⟩

/-- One written byte, the last of a word whose other bytes nothing has written. -/
theorem witness_HbufWindowWords_partial :
    let s := { State.reset with hbuf := [(1023, 0x31#8)] };
    s.status.busy = false ∧ 4 * 255 + 3 < s.cfg.hbufSize ∧ Memory.read s.hbuf (4 * 255 + 3) = some 0x31#8
    ∧ Memory.read s.hbuf (4 * 255) = none ∧ s.cfg.hbufSize ≤ 4 * 256 + 0 := by decide

/-- One packed byte, after a flush. -/
def flushed : State := ran .pkFlush (ran (.pkBits 4#5 0b1110#16) State.reset)

theorem witness_PbufWindowWords :
    (let s := { State.reset with pbuf := [(1020, 1#8), (1021, 2#8), (1022, 3#8), (1023, 4#8)] };
    s.status.busy = false ∧ 4 * 255 ≤ 0xFFC
    ∧ ∀ k, k < 4 → 4 * 255 + k < s.cfg.pbufSize →
        Memory.read s.pbuf (4 * 255 + k) = some ([1#8, 2#8, 3#8, 4#8].getD k 0#8))
    ∧ ∀ k, k < 4 → State.reset.cfg.pbufSize ≤ 4 * 256 + k := ⟨⟨rfl, by decide, by decide⟩, by decide⟩
/-- The case of P1: one packed byte, the word's other bytes not written. -/
theorem witness_PbufWindowWords_partial : flushed.status.busy = false ∧ 4 * 0 + 0 < flushed.cfg.pbufSize
    ∧ Memory.read flushed.pbuf (4 * 0 + 0) = some 0xE0#8 ∧ Memory.read flushed.pbuf (4 * 0 + 1) = none := by decide

theorem witness_AccessesOutsideTheInterfaceAreRefused :
    hostNext (turnIs .host [.read 0x010 2] State.reset) ∧ hostNext (turnIs .host [.write 0x3FFD 4 0#32] State.reset)
    ∧ State.reset.cfg.hufbBase ≤ 0x3FFD ∧ 0x3FFD < State.reset.cfg.hufbBase + 0x4000
    ∧ (0x3FFD - State.reset.cfg.hufbBase) % 4 ≠ 0 := ⟨.inl rfl, .inl rfl, by decide, by decide, by decide⟩

theorem witness_HostAccessesTouchNoUnit :
    hostNext (turnIs .host [.write 0x018 4 7#32] (latched 0#32)) ∧ (latched 0#32).status.busy = true
    ∧ ∃ t, step (turnIs .host [.write 0x018 4 7#32] (latched 0#32)) = .next t := ⟨.inl rfl, rfl, _, rfl⟩

theorem witness_InterruptLine :
    (∃ t, exec .nop State.reset = .next t) ∧ engineNext (latched 0#32) ∧ (latched 0#32).status.busy = true
    ∧ (0x2#32 : Word).getLsbD 1 = true ∧ State.reset.status.busy = false
    ∧ irq { State.reset with ie := true, status := { State.reset.status with done := true } } = true
    ∧ irq (busWrite 0x010 2#32 { State.reset with ie := true, status := { State.reset.status with done := true } }) = false
    ∧ (turnIs .reset [] State.reset).sched.head? = some .reset :=
  ⟨⟨_, rfl⟩, .inr ⟨rfl, rfl⟩, rfl, by decide, rfl, by decide, by decide, rfl⟩

theorem witness_ResetValues : (turnIs .reset [] built).sched = .reset :: [] ∧ built.status.busy = false := by decide

theorem witness_ResetWhileBusyAbandonsTheCommand :
    (turnIs .reset [] (latched 0x32000000#32)).sched = .reset :: []
    ∧ (latched 0x32000000#32).status.busy = true ∧ decodeWord (latched 0x32000000#32).lcmd = .ok .pkFlush
    ∧ (latched 0x20000000#32).status.busy = true ∧ decodeWord (latched 0x20000000#32).lcmd = .ok .serEmit := by decide

/-- A PK_BITS latched at PK_NBYTES = 0 over four written PBUF bytes, the reset's turn next. -/
def abandonedBits : State :=
  turnIs .reset [] { latched 0x31040000#32 with pbuf := [(0, 1#8), (1, 2#8), (2, 3#8), (3, 4#8)] }

theorem witness_ResetWhileBusyAbandonsTheCommand_pkBits : abandonedBits.sched = .reset :: []
    ∧ abandonedBits.status.busy = true ∧ decodeWord abandonedBits.lcmd = .ok (.pkBits 4#5 0#16)
    ∧ abandonedBits.pk.nbytes + 2 = 2 := by decide
/-- 70_reset_and_hazards.md R281 at its bounds: PBUF[PK_NBYTES+2] is unspecified, PBUF[PK_NBYTES+3] keeps its value. -/
theorem test_reset_forgets_three_bytes : [0, 2, 3].map (Memory.read (stepped abandonedBits).pbuf) =
    [none, none, some 4#8] := by decide
/-- The same for an HBUF of which SER_EMIT may have written every byte below HBUF_SIZE. -/
theorem test_reset_forgets_hbuf :
    (stepped (turnIs .reset [] { latched 0x20000000#32 with hbuf := [(0, 1#8), (1023, 2#8)] })).hbuf = [] := by decide

theorem witness_NopOnlyCompletes : (0x00000001#32 : Word).extractLsb' 24 8 = 0#8 ∧ (0x00000001#32 : Word) ≠ 0#32 := by
  decide

/-- Two leaves in a configuration that has room for two. -/
def full : State := { loaded with cfg := { Config.reference with maxLeaves := 2 } }

theorem witness_TbInsertAddsTheLeaf :
    (0x110000FF#32 &&& 0xFF000000#32) = 0x11000000#32
    ∧ 2 ^ State.reset.cfg.symW ≤ (0x100#24).toNat
    ∧ (0xFF#24).toNat < 2 ^ built.cfg.symW ∧ built.tb.phase = .built
    ∧ loaded.tb.phase ≠ .built ∧ (0x61#24).toNat ∈ loaded.tb.seen
    ∧ full.tb.phase ≠ .built ∧ (0x63#24).toNat ∉ full.tb.seen ∧ full.tb.leafCount = full.cfg.maxLeaves
    ∧ State.reset.tb.phase ≠ .built ∧ (0xFF#24).toNat ∉ State.reset.tb.seen
    ∧ State.reset.tb.leafCount ≠ State.reset.cfg.maxLeaves := by decide
theorem witness_TbInsertAddsTheLeaf_inv : loaded.tb.Inv loaded.cfg ∧ loaded.tb.phase ≠ .built
    ∧ (0x00#24).toNat ∉ loaded.tb.seen := ⟨loaded_has_inv.tree, by decide, by decide⟩

theorem witness_TbMergeJoinsTheTwoMinima_errors :
    State.reset.tb.phase ≠ .loading ∧ oneLeaf.tb.phase = .loading ∧ oneLeaf.tb.heap.length < 2 := by decide
theorem witness_TbMergeJoinsTheTwoMinima : loaded.Inv ∧ loaded.tb.phase = .loading ∧ 2 ≤ loaded.tb.heap.length :=
  ⟨loaded_has_inv, by decide, by decide⟩

theorem witness_TbBuildMergesToOneRoot : built.tb.phase = .built ∧ State.reset.tb.phase = .empty
    ∧ loaded.Inv ∧ loaded.tb.phase = .loading ∧ (∀ n ∈ loaded.tb.nodes, n.leaf = true)
    ∧ oneLeaf.Inv ∧ oneLeaf.tb.phase = .loading ∧ oneLeaf.tb.heap.length = 1 :=
  ⟨by decide, by decide, loaded_has_inv, by decide, by decide, oneLeaf_has_inv, by decide, by decide⟩

theorem witness_TbPeekReportsTheMinimum : built.tb.phase ≠ .loading ∧ oneLeaf.Inv ∧ oneLeaf.tb.phase = .loading :=
  ⟨by decide, oneLeaf_has_inv, by decide⟩

theorem witness_TbReadNodeReportsTheNode : (0x1500FFFF#32 &&& 0xFFFF0000#32) = 0x15000000#32
    ∧ built.tb.nodes.length ≤ (3#16).toNat
    ∧ built.tb.nodes[(2#16).toNat]? = some { leaf := false, minsym := 0x61, weight := 4, left := 1, right := 0 } := by
  decide

theorem witness_MergeThenBuildIsBuild : loaded.tb.phase = .loading ∧ 2 ≤ loaded.tb.heap.length := by decide

theorem witness_TbBuildKeepsEveryLeafOnce : loaded.Inv ∧ loaded.tb.phase = .loading := ⟨loaded_has_inv, by decide⟩

theorem witness_InsertionOrderIsIrrelevant : loaded.Inv ∧ loadedSwapped.Inv ∧ loaded.cfg = loadedSwapped.cfg
    ∧ loaded.tb.phase = .loading ∧ loadedSwapped.tb.phase = .loading
    ∧ (∀ n ∈ loaded.tb.nodes, n.leaf = true) ∧ (∀ n ∈ loadedSwapped.tb.nodes, n.leaf = true)
    ∧ (loaded.tb.nodes.map (fun n => (n.minsym, n.weight))).Perm
        (loadedSwapped.tb.nodes.map (fun n => (n.minsym, n.weight)))
    ∧ loaded.tb.nodes ≠ loadedSwapped.tb.nodes :=
  ⟨loaded_has_inv, loadedSwapped_has_inv, rfl, by decide, by decide, by decide, by decide, by decide, by decide⟩

theorem witness_PhaseTransitions : (∃ t, exec (.tbInsert 0x61#24) State.reset = .next t ∧ t.status.err = .noError)
    ∧ (∃ t, exec .tbBuild loaded = .next t ∧ t.status.err = .noError)
    ∧ (∃ t, exec .serEmit State.reset = .next t ∧ t.status.err = .badState)
    ∧ (∃ t, exec .serParse State.reset = .next t ∧ t.status.err = .corruptHeader)
    ∧ (∃ t, exec (.tbReadNode 0#16) loaded = .next t ∧ loaded.Inv ∧ t.status.err = .noError) :=
  ⟨⟨_, rfl, by decide⟩, ⟨_, rfl, by decide⟩, ⟨_, rfl, by decide⟩, ⟨_, rfl, by decide⟩,
    ⟨_, rfl, loaded_has_inv, by decide⟩⟩

theorem witness_NodeEntriesNeverChange :
    ∃ t, step (State.withFetchWord loaded 32 0x12000000) = .next t ∧ t.tb.nodes.length = 3 := ⟨_, rfl, by decide⟩

theorem witness_TreeBuilderRegisters : loaded.Inv ∧ loaded.status.busy = false ∧ busValue loaded 0x030 = 1#32
    ∧ State.reset.Inv ∧ busValue State.reset 0x030 = 0#32
    ∧ built.Inv ∧ built.status.busy = false ∧ busValue built 0x030 = 2#32 :=
  ⟨loaded_has_inv, by decide, by decide, reset_has_inv, by decide, built_has_inv, by decide, by decide⟩

theorem witness_SerEmitWritesTheHeader : loaded.tb.phase ≠ .built ∧ built.Inv ∧ built.tb.phase = .built :=
  ⟨by decide, built_has_inv, by decide⟩

theorem witness_SerParseAcceptsExactlyHeaders_capacity :
    ({ State.reset with hdrLen := 1025#32 } : State).cfg.hbufSize < (1025#32 : Word).toNat := by decide
theorem witness_SerParseAcceptsExactlyHeaders_header :
    headerWritten.cfg.Legal ∧ headerWritten.hdrLen.toNat ≤ headerWritten.cfg.hbufSize
    ∧ (let T : HufTree := .node 0 (.leaf 0x62 0) (.leaf 0x61 0);
      T.header headerWritten.cfg.sb = implicitHeader headerWritten headerWritten.hdrLen.toNat
      ∧ (∀ x ∈ T.symbols, x < 2 ^ headerWritten.cfg.symW) ∧ T.leaves ≤ headerWritten.cfg.maxLeaves) := by decide
theorem witness_SerParseAcceptsExactlyHeaders_reject :
    State.reset.cfg.Legal ∧ State.reset.hdrLen.toNat ≤ State.reset.cfg.hbufSize
    ∧ ¬ ∃ T : HufTree, T.header State.reset.cfg.sb = implicitHeader State.reset State.reset.hdrLen.toNat
        ∧ (∀ x ∈ T.symbols, x < 2 ^ State.reset.cfg.symW) ∧ T.leaves ≤ State.reset.cfg.maxLeaves := by
  refine ⟨by decide, by decide, ?_⟩
  rintro ⟨T, h, -⟩
  cases T <;> simp [HufTree.header, implicitHeader, State.reset, State.resetOf] at h

theorem witness_HeaderRoundTrip : built.Inv ∧ built.tb.phase = .built
    ∧ headerWritten.Inv ∧ exec .serParse headerWritten = .next (ran .serParse headerWritten)
    ∧ (ran .serParse headerWritten).status.err = .noError :=
  ⟨built_has_inv, by decide, headerWritten_has_inv, rfl, by decide⟩

theorem witness_PkBitsAppendsTheChunk : (0x311FFFFF#32 &&& 0xFFE00000#32) = 0x31000000#32
    ∧ (0#5).toNat = 0 ∧ 16 < (17#5).toNat ∧ (2#16).toNat / 2 ^ (1#5).toNat ≠ 0
    ∧ 1 ≤ (16#5).toNat ∧ (16#5).toNat ≤ 16 ∧ (0xFFFF#16).toNat < 2 ^ (16#5).toNat
    ∧ flushed.pk.closed = true
    ∧ (let s := { threeWaiting with pk := { threeWaiting.pk with nbytes := 1023 } };
      s.pk.closed = false ∧ s.cfg.pbufSize < s.pk.nbytes + (s.pk.k.toNat + (16#5).toNat) / 8)
    ∧ (let s := { threeWaiting with pk := { threeWaiting.pk with nbytes := 1022 } };
      s.pk.closed = false ∧ s.pk.nbytes + (s.pk.k.toNat + (16#5).toNat) / 8 ≤ s.cfg.pbufSize) := by decide

theorem witness_PkFlushClosesTheStream : flushed.pk.closed = true
    ∧ (let s := { threeWaiting with pk := { threeWaiting.pk with nbytes := 1024 } };
      s.pk.closed = false ∧ s.pk.k ≠ 0#3 ∧ s.pk.nbytes = s.cfg.pbufSize)
    ∧ State.reset.pk.closed = false ∧ State.reset.pk.k = 0#3
    ∧ (let s := { threeWaiting with pk := { threeWaiting.pk with nbytes := 1023 } };
      s.pk.closed = false ∧ s.pk.k ≠ 0#3 ∧ s.pk.nbytes < s.cfg.pbufSize) := by decide

theorem witness_PkUnpackKeepsTheFirstBits : (0x3401FFFF#32 &&& 0xFFFE0000#32) = 0x34000000#32
    ∧ (1#8 : Byte) ≠ 0#8 ∧ 8 ≤ (8#8 : Byte).toNat ∧ (7#8 : Byte).toNat < 8 := by decide

theorem witness_StreamStateChanges :
    (let s := State.withFetchWord State.reset 32 0x32000000;
      s.pk.closed = false ∧ step s = .next (stepped s) ∧ (stepped s).pk.closed = true)
    ∧ (let s := turnIs .reset [] flushed;
      s.pk.closed = true ∧ step s = .next (stepped s) ∧ (stepped s).pk.closed = false)
    ∧ exec .pkFlush State.reset = .next (ran .pkFlush State.reset) ∧ (ran .pkFlush State.reset).status.err = .noError :=
  ⟨⟨rfl, rfl, by decide⟩, ⟨by decide, rfl, by decide⟩, rfl, by decide⟩

theorem witness_RoomAfterDrain : threeWaiting.cfg.Legal ∧ threeWaiting.pk.closed = false := by decide

/-- Two chunks with a drain between them. -/
def streamOps : List StreamOp := [.push 16#5 0x69CF#16, .drain, .push 7#5 0b0110100#16]

/-- The state at the end of `streamOps`, before the flush. -/
def streamEnd : State := ran (.pkBits 7#5 0b0110100#16) (ran .pkDrain (ran (.pkBits 16#5 0x69CF#16) (ran .pkClear State.reset)))

theorem witness_PackedStreamIsHufPack : exec .pkClear State.reset = .next (ran .pkClear State.reset)
    ∧ runStream streamOps (ran .pkClear State.reset) [] = some (streamEnd, [0x69#8, 0xCF#8])
    ∧ runsTo .pkFlush streamEnd = some (ran .pkFlush streamEnd) :=
  ⟨rfl, by decide, by decide⟩
theorem witness_PackedStreamIsHufPack_capacity :
    let s := { threeWaiting with pk := { threeWaiting.pk with nbytes := 1024 } };
    exec .pkFlush s = .next (ran .pkFlush s) ∧ (ran .pkFlush s).status.err = .capacity := ⟨rfl, by decide⟩

theorem witness_UnpackingIsHufUnpack : ([0x69#8, 0xCF#8, 0x68#8] : List Byte) ≠ [] ∧ (7#8 : Byte).toNat ≤ 7 := by decide

theorem witness_UnpackInvertsPack : exec .pkClear State.reset = .next (ran .pkClear State.reset)
    ∧ runStream streamOps (ran .pkClear State.reset) [] = some (streamEnd, [0x69#8, 0xCF#8])
    ∧ runsTo .pkFlush streamEnd = some (ran .pkFlush streamEnd) := witness_PackedStreamIsHufPack

theorem witness_PackerRegisters : State.reset.status.busy = false ∧ State.reset.Inv ∧ State.reset.pk.k = 0#3 :=
  ⟨rfl, reset_has_inv, rfl⟩
theorem witness_PackerRegisters_closed : (ran .pkFlush State.reset).Inv ∧ (ran .pkFlush State.reset).status.busy = false
    ∧ (ran .pkFlush State.reset).pk.closed = true :=
  ⟨complete_inv _ (by decide) (flushStream_inv (by decide) reset_has_inv), by decide, by decide⟩

theorem witness_ErrorsArePrecise : exec .tbBuild State.reset = .next (ran .tbBuild State.reset)
    ∧ (ran .tbBuild State.reset).status.err ≠ .noError
    ∧ exec .serParse State.reset = .next (ran .serParse State.reset)
    ∧ (ran .serParse State.reset).status.err = .corruptHeader := ⟨rfl, by decide, rfl, by decide⟩

theorem witness_ErrcodeNeverUnknownOrTruncated : step State.reset = .next State.reset
    ∧ State.reset.status.err ≠ .unknownSymbol ∧ State.reset.status.err ≠ .truncatedStream := ⟨rfl, by decide, by decide⟩

theorem witness_ErrorCausesAreTheTable :
    [ran .nop State.reset, ran .tbBuild State.reset, ran .serParse State.reset, ran (.pkUnpack true 8#8 0#8) State.reset,
      ran (.pkUnpack false 1#8 0#8) State.reset, ran (.tbInsert 0x61#24) loaded, ran (.tbInsert 0x63#24) full,
      ran .tbPeek State.reset].map (fun t => t.status.err)
    = [.noError, .emptyAlphabet, .corruptHeader, .malformedContainer, .illegalCommand, .duplicateSymbol, .capacity,
      .badState] := by decide

theorem witness_CommandsChangeOnlyTheirUnits :
    (∃ t, exec .nop State.reset = .next t) ∧ (∃ t, exec .serEmit built = .next t)
    ∧ (∃ t, exec (.pkUnpack true 4#8 0xE0#8) State.reset = .next t) := ⟨⟨_, rfl⟩, ⟨_, rfl⟩, ⟨_, rfl⟩⟩

theorem witness_InvHoldsAtReset : Config.reference.Legal
    ∧ ({ symW := 1, lw := 1, maxLeaves := 2, hbufSize := 5, pbufSize := 2, hufbBase := 0 } : Config).Legal := by decide

theorem witness_StepKeepsInv : loaded.Inv ∧ ∃ t, step loaded = .next t := ⟨loaded_has_inv, _, rfl⟩

end Sys2Proof.Tests
end

section
/-! PROOFS. The registers of spec/10_state.md: which register an offset names, what a read of it returns and what a
write to it does, the layout of each word, and that no step changes the configuration. -/

namespace Sys2Proof.Machine

/-- Every register stands at its offset (10_state.md R32; 20_memory.md R82). -/
@[simp] theorem target_offset (r : Reg) : target r.offset = .reg r := by
  cases r <;> rfl

theorem busValue_offset (s : State) (r : Reg) :
    busValue s r.offset
      = if s.status.busy && r.unspecifiedWhileBusy then Config.freeWord s.draws else regWord s r := by
  simp [busValue]

/-- A register that 20_memory.md R98 (b) does not name reads its value in every state. -/
theorem busValue_specified (s : State) (r : Reg) (hr : r.unspecifiedWhileBusy = false) :
    busValue s r.offset = regWord s r := by
  simp [busValue_offset, hr]

/-- With BUSY = 0 every register reads its value (20_memory.md R83). -/
theorem busValue_idle {s : State} (hb : s.status.busy = false) (r : Reg) : busValue s r.offset = regWord s r := by
  simp [busValue_offset, hb]

theorem busWrite_offset (r : Reg) (v : Word) (s : State) : busWrite r.offset v s = writeReg r v s := by
  simp [busWrite]

theorem offset_le (r : Reg) : r.offset ≤ 0x050 := by
  cases r <;> decide

theorem target_reserved {off : Nat} (lo : 0x054 ≤ off) (hi : off < 0x1000) : target off = .reserved := by
  have noReg : regList.find? (fun r => r.offset == off) = none :=
    List.find?_eq_none.2 fun r _ => by
      have := offset_le r
      simp only [beq_iff_eq]
      omega
  simp [target, hi, noReg]

theorem target_unmapped {off : Nat} (lo : 0x3000 ≤ off) : target off = .unmapped := by
  have h1 : ¬ off < 0x1000 := by omega
  have h2 : ¬ off < 0x2000 := by omega
  simp [target, h1, h2, Nat.not_lt.2 lo]

/-! ### Register words as numbers -/

theorem toNat_append_add {m n : Nat} (x : BitVec m) (y : BitVec n) :
    (x ++ y).toNat = x.toNat * 2 ^ n + y.toNat := by
  rw [BitVec.toNat_append, ← Nat.shiftLeft_add_eq_or_of_lt y.isLt, Nat.shiftLeft_eq]

/-! ### STATUS -/

theorem errBit_eq (st : Status) : st.errBit = decide (st.err ≠ .noError) := by
  cases h : st.err <;> simp [Status.errBit, h, ErrorCode.code]

theorem statusWord_toNat (st : Status) :
    (statusWord st).toNat =
      16 * st.err.code.toNat + 8 * st.ovr.toNat + 4 * (decide (st.err ≠ .noError)).toNat + 2 * st.done.toNat
        + st.busy.toNat := by
  simp only [statusWord, toNat_append_add, BitVec.toNat_ofBool, errBit_eq, BitVec.toNat_ofNat]
  omega

/-- The write-1-to-clear of bits 1 and 3, bit by bit of the word (10_state.md R38). -/
theorem statusWord_acknowledge (v : Word) (s : State) :
    statusWord (acknowledge v s).status = statusWord s.status &&& ~~~(v &&& 0x0000000A#32) := by
  apply BitVec.eq_of_getLsbD_eq
  intro i hi
  simp only [statusWord, acknowledge_status, Status.errBit, BitVec.getLsbD_and, BitVec.getLsbD_not,
    BitVec.getLsbD_append, BitVec.getLsbD_ofBool]
  interval_cases i <;> simp

/-- Settles O14: offset 0x010 is STATUS, whose write is the acknowledgement. -/
theorem statusWriteOneToClear : Obligations.StatusWriteOneToClear := by
  unfold Obligations.StatusWriteOneToClear
  intro s v
  have hw : ∀ v, busWrite 0x010 v s = acknowledge v s := fun v => busWrite_offset .status v s
  have hr : busValue s 0x010 = statusWord s.status := busValue_specified s .status rfl
  simp only [hw, hr]
  refine ⟨statusWord_acknowledge v s, rfl, rfl, ?_, trivial, statusWord_toNat s.status⟩
  simp [acknowledge]

/-! ### A step keeps the configuration -/

/-- A check before a command's writes lets the configuration be. -/
theorem finish_check_cfg {s : State} {p : Prop} [Decidable p] {e : ErrorCode} {r : Except ErrorCode State}
    (h : (finish s r).cfg = s.cfg) : (finish s (if p then .error e else r)).cfg = s.cfg := by
  split
  · rfl
  · exact h

theorem tbBuild_cfg (s : State) : (finish s (tbBuildBody s)).cfg = s.cfg := by
  unfold tbBuildBody
  split <;> rfl

theorem pkUnpack_cfg (last : Bool) (pad byte : Byte) (s : State) :
    (finish s (pkUnpackBody last pad byte s)).cfg = s.cfg := by
  unfold pkUnpackBody
  split <;> rfl

theorem execSerEmit_cfg {s t : State} (h : execSerEmit s = .next t) : t.cfg = s.cfg := by
  unfold execSerEmit at h
  split at h
  · cases h; rfl
  · split at h <;> cases h
    rfl

theorem execSerParse_cfg {s t : State} (h : execSerParse s = .next t) : t.cfg = s.cfg := by
  unfold execSerParse at h
  split at h
  · cases h; rfl
  · split at h <;> cases h <;> rfl

/-- No command changes the configuration (00_scope.md R7). -/
theorem exec_cfg {i : Instr} {s t : State} (h : exec i s = .next t) : t.cfg = s.cfg := by
  cases i with
  | serEmit => exact execSerEmit_cfg h
  | serParse => exact execSerParse_cfg h
  | nop | softReset | tbClear | pkClear | pkDrain => cases h; rfl
  | tbMerge | tbPeek | tbReadNode => cases h; exact finish_check_cfg rfl
  | tbInsert =>
    cases h
    exact finish_check_cfg (finish_check_cfg (finish_check_cfg (finish_check_cfg rfl)))
  | tbBuild => cases h; exact tbBuild_cfg s
  | pkBits => cases h; exact finish_check_cfg (finish_check_cfg (finish_check_cfg rfl))
  | pkFlush => cases h; exact finish_check_cfg (finish_check_cfg rfl)
  | pkUnpack => cases h; exact pkUnpack_cfg _ _ _ s

theorem engineTurn_cfg {s t : State} (h : engineTurn s = .next t) : t.cfg = s.cfg := by
  unfold engineTurn at h
  split at h
  · split at h
    · exact exec_cfg h
    · cases h; rfl
  · cases h; rfl

theorem unlessBusy_cfg {f : State → State} {s : State} (hf : (f s).cfg = s.cfg) : (unlessBusy f s).cfg = s.cfg := by
  unfold unlessBusy
  split
  · rfl
  · exact hf

theorem writeReg_cfg (r : Reg) (v : Word) (s : State) : (writeReg r v s).cfg = s.cfg := by
  cases r with
  | cmd | wdata | hdrLen => exact unlessBusy_cfg rfl
  | _ => rfl

theorem busWrite_cfg (off : Nat) (v : Word) (s : State) : (busWrite off v s).cfg = s.cfg := by
  unfold busWrite
  split
  · exact writeReg_cfg _ v s
  · rfl
  · exact unlessBusy_cfg rfl
  · rfl
  · rfl

theorem hostTurn_cfg {s t : State} (h : hostTurn s = .next t) : t.cfg = s.cfg := by
  unfold hostTurn at h
  split at h
  · cases h; rfl
  · split at h <;> cases h
    rfl
  · split at h <;> cases h
    exact busWrite_cfg _ _ _
  · split at h <;> cases h <;> rfl

theorem hardReset_cfg (s : State) : (hardReset s).cfg = s.cfg := by
  rcases abandonWrites_cases s with h | h | h <;> simp [hardReset, h]

theorem takeTurn_cfg {turn : Turn} {s t : State} (h : takeTurn turn s = .next t) : t.cfg = s.cfg := by
  cases turn with
  | engine => exact engineTurn_cfg h
  | host => exact hostTurn_cfg h
  | reset => cases h; exact hardReset_cfg s

/-- The configuration never changes (00_scope.md R7; log entry 1). -/
theorem step_cfg {s t : State} (h : step s = .next t) : t.cfg = s.cfg :=
  (takeTurn_cfg h).trans rfl

/-! ### ID, PARAMS0 and PARAMS1 -/

theorem legal_maxLeaves_le {c : Config} (h : c.Legal) : c.maxLeaves ≤ 32768 := by
  obtain ⟨-, -, ⟨-, h⟩, -⟩ := h
  exact h.trans (min_le_right _ _)

theorem params0_toNat {s : State} (h : s.cfg.Legal) :
    (regWord s .params0).toNat = s.cfg.symW + 2 ^ 8 * s.cfg.lw + 2 ^ 16 * s.cfg.maxLeaves := by
  have hm := legal_maxLeaves_le h
  obtain ⟨⟨-, hs⟩, ⟨-, hl⟩, -⟩ := h
  simp only [regWord, toNat_append_add, BitVec.toNat_ofNat]
  omega

theorem params1_toNat {s : State} (h : s.cfg.Legal) :
    (regWord s .params1).toNat = s.cfg.hbufSize + 2 ^ 16 * s.cfg.pbufSize := by
  obtain ⟨-, -, -, ⟨-, hh⟩, ⟨-, hp⟩⟩ := h
  simp only [regWord, toNat_append_add, BitVec.toNat_ofNat]
  omega

/-- Settles O15: the three registers read from the configuration alone, which `step_cfg` keeps. -/
theorem idAndParametersNeverChange : Obligations.IdAndParametersNeverChange := by
  unfold Obligations.IdAndParametersNeverChange
  have rid (s : State) : busValue s 0x000 = 0x48554642#32 := busValue_specified s .id rfl
  have r0 (s : State) : busValue s 0x004 = regWord s .params0 := busValue_specified s .params0 rfl
  have r1 (s : State) : busValue s 0x008 = regWord s .params1 := busValue_specified s .params1 rfl
  simp only [rid, r0, r1]
  refine ⟨fun s => ⟨trivial, fun h => ⟨params0_toNat h, params1_toNat h⟩, fun h => ?_, fun v =>
    ⟨busWrite_offset .id v s, busWrite_offset .params0 v s, busWrite_offset .params1 v s⟩⟩, fun s t h => ?_⟩
  · simp [regWord, h, Config.reference]
  · simp [regWord, step_cfg h]

/-! ### CTRL, WDATA and HDR_LEN -/

theorem ctrlWord_eq (ie : Bool) : ctrlWord ie = if ie then 1#32 else 0#32 := by
  cases ie <;> rfl

theorem ctrlWord_getLsbD (v : Word) : ctrlWord (v.getLsbD 0) = v &&& 1#32 := by
  rw [BitVec.and_one_eq_setWidth_ofBool_getLsbD, ctrlWord_eq]
  cases v.getLsbD 0 <;> rfl

theorem wdataBits_toNat (c : Config) (v : Word) : (wdataBits c v).toNat = v.toNat % 2 ^ c.lw :=
  (BitVec.toNat_ofNat _ _).trans (Nat.mod_eq_of_lt ((Nat.mod_le _ _).trans_lt v.isLt))

theorem unlessBusy_idle {s : State} (hb : s.status.busy = false) (f : State → State) : unlessBusy f s = f s := by
  simp [unlessBusy, hb]

theorem unlessBusy_busy {s : State} (hb : s.status.busy = true) (f : State → State) :
    unlessBusy f s = dropWrite s := by
  simp [unlessBusy, hb]

/-- Settles O16: WDATA and HDR_LEN are written unless BUSY, CTRL always. -/
theorem ctrlWdataAndHdrLenWrites : Obligations.CtrlWdataAndHdrLenWrites := by
  unfold Obligations.CtrlWdataAndHdrLenWrites
  have rCtrl (s : State) : busValue s 0x00C = ctrlWord s.ie := busValue_specified s .ctrl rfl
  have rWdata (s : State) : busValue s 0x018 = s.wdata := busValue_specified s .wdata rfl
  have rHdr (s : State) (hb : s.status.busy = false) : busValue s 0x044 = s.hdrLen := busValue_idle hb .hdrLen
  have wCtrl (s : State) (v : Word) : busWrite 0x00C v s = { s with ie := v.getLsbD 0 } := busWrite_offset .ctrl v s
  have wWdata (s : State) (v : Word) :
      busWrite 0x018 v s = unlessBusy (fun t => { t with wdata := wdataBits t.cfg v }) s :=
    busWrite_offset .wdata v s
  have wHdr (s : State) (v : Word) : busWrite 0x044 v s = unlessBusy (fun t => { t with hdrLen := v }) s :=
    busWrite_offset .hdrLen v s
  refine ⟨fun s v => ⟨wCtrl s v, ?_, ?_, rWdata s, rHdr s, fun hb => ?_, fun hb => ?_⟩, fun s => ⟨_, rfl, rfl⟩,
    rCtrl _, rWdata _, rHdr _ rfl⟩
  · rw [wCtrl, rCtrl]
    exact ctrlWord_getLsbD v
  · rw [rCtrl]
    exact ctrlWord_eq s.ie
  · rw [wWdata, wHdr, unlessBusy_idle hb, unlessBusy_idle hb, rWdata]
    exact ⟨rfl, wdataBits_toNat s.cfg v, rfl, rHdr _ hb⟩
  · rw [wWdata, wHdr, unlessBusy_busy hb, unlessBusy_busy hb]
    exact ⟨rfl, rfl⟩

/-- Settles O18: the offsets name no register and no window. -/
theorem reservedOffsetsReadZero : Obligations.ReservedOffsetsReadZero := by
  unfold Obligations.ReservedOffsetsReadZero
  intro s off range _
  have empty : target off = .reserved ∨ target off = .unmapped := by
    rcases range with ⟨lo, hi⟩ | ⟨lo, -⟩
    · exact .inl (target_reserved lo (by omega))
    · exact .inr (target_unmapped lo)
  rcases empty with h | h <;> simp [busRead, busValue, busWrite, h]

/-! ### TB_STATE, the counts and ROOT -/

theorem tbStateWord_eq_zero {p : Phase} : tbStateWord p = 0#32 ↔ p = .empty := by
  cases p <;> decide

theorem tbStateWord_eq_one {p : Phase} : tbStateWord p = 1#32 ↔ p = .loading := by
  cases p <;> decide

theorem tbStateWord_eq_two {p : Phase} : tbStateWord p = 2#32 ↔ p = .built := by
  cases p <;> decide

theorem rootWord_valid (root : Option Nat) : (rootWord root).getLsbD 31 = root.isSome := by
  cases root with
  | none => rfl
  | some h => simp only [rootWord, BitVec.getLsbD_append]; simp

theorem rootWord_toNat {h : Nat} (hh : h < 2 ^ 16) : (rootWord (some h)).toNat = 2 ^ 31 + h := by
  simp only [rootWord, toNat_append_add, BitVec.toNat_ofNat]
  omega

section
variable {s : State}

theorem State.Inv.heapCount_toNat (h : s.Inv) : (regWord s .heapCount).toNat = s.tb.heap.length := by
  have bound : s.tb.heap.length ≤ s.cfg.maxLeaves := h.tree.heapBound
  have := legal_maxLeaves_le h.legal
  exact (BitVec.toNat_ofNat _ _).trans (Nat.mod_eq_of_lt (by omega))

theorem State.Inv.leafCount_toNat (h : s.Inv) : (regWord s .leafCount).toNat = s.tb.leafCount := by
  have := h.tree.leafBound
  have := legal_maxLeaves_le h.legal
  exact (BitVec.toNat_ofNat _ _).trans (Nat.mod_eq_of_lt (by omega))

/-- Every handle fits the 16 bits of ROOT.HANDLE (10_state.md R44). -/
theorem State.Inv.nodes_length_lt (h : s.Inv) : s.tb.nodes.length < 2 ^ 16 := by
  have bound : s.tb.nodes.length ≤ 2 * s.cfg.maxLeaves - 1 := h.tree.nodeBound
  have := legal_maxLeaves_le h.legal
  omega

theorem State.Inv.nodeCount_toNat (h : s.Inv) : (regWord s .nodeCount).toNat = s.tb.nodes.length := by
  have := h.nodes_length_lt
  exact (BitVec.toNat_ofNat _ _).trans (Nat.mod_eq_of_lt (by omega))

/-- NODE_COUNT - LEAF_COUNT is the number of internal nodes (10_state.md R43). -/
theorem State.Inv.internal_count (h : s.Inv) :
    s.tb.nodes.length - s.tb.leafCount = s.tb.nodes.countP (fun n => !n.leaf) := by
  rw [h.tree.leaves, List.length_eq_countP_add_countP (fun n : Node => n.leaf), Nat.add_sub_cancel_left]
  simp

end

/-- Settles O40, from the clauses of the tree builder's invariant. -/
theorem treeBuilderRegisters : Obligations.TreeBuilderRegisters := by
  unfold Obligations.TreeBuilderRegisters
  refine ⟨fun s inv hb => ?_, fun s v => ⟨busWrite_offset .tbState v s, busWrite_offset .heapCount v s,
    busWrite_offset .leafCount v s, busWrite_offset .nodeCount v s, busWrite_offset .root v s⟩,
    busValue_idle rfl .tbState, busValue_idle rfl .heapCount, busValue_idle rfl .leafCount,
    busValue_idle rfl .nodeCount, busValue_idle rfl .root⟩
  have rState : busValue s 0x030 = tbStateWord s.tb.phase := busValue_idle hb .tbState
  have rHeap : busValue s 0x034 = regWord s .heapCount := busValue_idle hb .heapCount
  have rLeaf : busValue s 0x038 = regWord s .leafCount := busValue_idle hb .leafCount
  have rNode : busValue s 0x03C = regWord s .nodeCount := busValue_idle hb .nodeCount
  have rRoot : busValue s 0x040 = rootWord s.tb.root := busValue_idle hb .root
  have tree := inv.tree
  simp only [rState, rHeap, rLeaf, rNode, rRoot, inv.heapCount_toNat, inv.leafCount_toNat, inv.nodeCount_toNat,
    tbStateWord_eq_zero, tbStateWord_eq_one, tbStateWord_eq_two, rootWord_valid, ne_eq]
  refine ⟨by cases s.tb.phase <;> decide, fun hp => ?_, tree.loading, tree.root.symm, fun hp => ?_, fun hp => ?_,
    trivial, tree.heapBound, tree.leaves, tree.leafBound, trivial, tree.nodeBound, inv.internal_count⟩
  · obtain ⟨hheap, hleaf, hnodes⟩ := tree.empty hp
    simp [regWord, hheap, hleaf, hnodes]
  · obtain ⟨r, hr, -, hlt⟩ := tree.roots_built hp
    refine ⟨by simp [regWord, tree.built hp], r, hr, hlt, ?_⟩
    rw [hr]
    exact rootWord_toNat (hlt.trans inv.nodes_length_lt)
  · rw [tree.root_none hp]
    rfl

/-! ### PK_STATE, PK_NBYTES and PK_PAD -/

theorem pkStateWord_toNat (pk : Packer) :
    (pkStateWord pk).toNat = pk.k.toNat + 2 ^ 8 * pk.closed.toNat + 2 ^ 16 * pk.acc.toNat := by
  simp only [pkStateWord, toNat_append_add, BitVec.toNat_ofBool, BitVec.toNat_ofNat]
  omega

section
variable {c : Config} {pk : Packer} {pbuf : Memory}

/-- `ACC[7-K:0] = 0` (10_state.md R47). -/
theorem Packer.Inv.acc_getLsbD (h : pk.Inv c pbuf) {j : Nat} (hj : j < 8 - pk.k.toNat) :
    pk.acc.getLsbD j = false := by
  have := Nat.testBit_mod_two_pow pk.acc.toNat (8 - pk.k.toNat) j
  simpa [h.waiting, hj, BitVec.testBit_toNat] using this

theorem Packer.Inv.acc_eq_zero (h : pk.Inv c pbuf) (hk : pk.k = 0#3) : pk.acc = 0#8 :=
  BitVec.eq_of_getLsbD_eq fun j hj => by
    rw [h.acc_getLsbD (by simpa [hk] using hj), BitVec.getLsbD_zero]

end

theorem packedBytes_length {s : State} (h : s.pk.Inv s.cfg s.pbuf) : (packedBytes s).length = s.pk.nbytes := by
  unfold packedBytes
  rw [List.filterMap_length_eq_length.2 fun j hj => h.packed j (List.mem_range.1 hj), List.length_range]

/-- Settles O54, from the clauses of the packer's invariant. -/
theorem packerRegisters : Obligations.PackerRegisters := by
  unfold Obligations.PackerRegisters
  refine ⟨fun s hb => ?_, fun s v => ⟨busWrite_offset .pkState v s, busWrite_offset .pkNbytes v s,
    busWrite_offset .pkPad v s⟩, busValue_idle rfl .pkState, busValue_idle rfl .pkNbytes, busValue_idle rfl .pkPad⟩
  have rState : busValue s 0x048 = pkStateWord s.pk := busValue_idle hb .pkState
  have rBytes : busValue s 0x04C = BitVec.ofNat 32 s.pk.nbytes := busValue_idle hb .pkNbytes
  have rPad : busValue s 0x050 = 0#29 ++ s.pk.pad := busValue_idle hb .pkPad
  rw [rState, rBytes, rPad]
  refine ⟨pkStateWord_toNat s.pk, (toNat_append_add 0#29 s.pk.pad).trans (by simp), fun inv => ?_⟩
  have packer := inv.packer
  have bound := packer.nbytes
  obtain ⟨-, -, -, -, ⟨-, hp⟩⟩ := inv.legal
  refine ⟨fun j hj => packer.acc_getLsbD hj, packer.acc_eq_zero, packer.closed, ?_, bound, packedBytes_length packer⟩
  rw [BitVec.toNat_ofNat]
  omega

end Sys2Proof.Machine
end

section
/-! PROOFS. Host accesses of spec/20_memory.md: which target an offset names, that a read's value depends on HUFB alone,
and which accesses the interface refuses. -/

namespace Sys2Proof.Machine

/-! ### The target of an offset -/

theorem offset_of_target {off : Nat} {r : Reg} (h : target off = .reg r) : off = r.offset := by
  unfold target at h
  split at h
  · split at h
    next found =>
      have hit := List.find?_some found
      rw [Target.reg.inj h, beq_iff_eq] at hit
      exact hit.symm
    next => cases h
  · split_ifs at h

theorem hbufWindow_of_target {off j : Nat} (h : target off = .hbufWindow j) :
    0x1000 ≤ off ∧ off < 0x2000 ∧ j = off - 0x1000 := by
  unfold target at h
  split at h
  · split at h <;> cases h
  · split_ifs at h
    injection h
    omega

theorem pbufWindow_of_target {off j : Nat} (h : target off = .pbufWindow j) :
    0x2000 ≤ off ∧ off < 0x3000 ∧ j = off - 0x2000 := by
  unfold target at h
  split at h
  · split at h <;> cases h
  · split_ifs at h
    injection h
    omega

/-- The registers of 20_memory.md R98 (b) stand at RESULT0's offset and above. -/
theorem offset_ge_of_unspecifiedWhileBusy {r : Reg} (h : r.unspecifiedWhileBusy = true) : 0x01C ≤ r.offset := by
  revert h
  cases r <;> decide

/-! ### A read sees HUFB alone -/

section
variable (s : State) (reads : List Word) (draws : Nat) (prog : List HostOp) (sched : List Turn)

theorem regWord_hostSide (r : Reg) :
    regWord { s with reads := reads, draws := draws, prog := prog, sched := sched } r = regWord s r := by
  cases r <;> rfl

/-- A read that returns no draw returns the same value whatever the host has read and still has to do: the target is no
register or window of 20_memory.md R98 (b) and every byte that the read meets has been written. -/
theorem busValue_hostSide (off : Nat)
    (reg : ∀ r, target off = .reg r → (s.status.busy && r.unspecifiedWhileBusy) = false)
    (hbuf : ∀ j, target off = .hbufWindow j → s.status.busy = false
      ∧ ∀ k, k < 4 → j + k < s.cfg.hbufSize → (Memory.read s.hbuf (j + k)).isSome = true)
    (pbuf : ∀ j, target off = .pbufWindow j → s.status.busy = false
      ∧ ∀ k, k < 4 → j + k < s.cfg.pbufSize → (Memory.read s.pbuf (j + k)).isSome = true) :
    busValue { s with reads := reads, draws := draws, prog := prog, sched := sched } off = busValue s off := by
  cases h : target off with
  | reg r => simp [busValue, h, reg r h, regWord_hostSide]
  | hbufWindow j =>
    obtain ⟨idle, written⟩ := hbuf j h
    simpa [busValue, h, idle] using windowWord_draws _ _ j draws s.draws written
  | pbufWindow j =>
    obtain ⟨idle, written⟩ := pbuf j h
    simpa [busValue, h, idle] using windowWord_draws _ _ j draws s.draws written
  | reserved | unmapped => simp [busValue, h]

end

/-- Settles O19: `busRead` writes the host's side only, which `busValue_hostSide` says no second read sees. -/
theorem readsHaveNoSideEffect : Obligations.ReadsHaveNoSideEffect := by
  unfold Obligations.ReadsHaveNoSideEffect
  intro s off aligned
  refine ⟨rfl, fun specified hbuf pbuf reads draws prog sched => ?_, fun hb => ⟨busValue_idle hb .result0,
    busValue_idle hb .result1, busValue_idle hb .result2, busValue_idle hb .result3, busValue_idle hb .result4⟩⟩
  have idle (lo : 0x01C ≤ off) (hi : off < 0x3000) (mapped : off ≤ 0x050 ∨ 0x1000 ≤ off) : s.status.busy = false := by
    rcases specified with hb | range
    · exact hb
    · omega
  refine busValue_hostSide s reads draws prog sched off (fun r h => ?_) (fun j h => ?_) (fun j h => ?_)
  · have at_r := offset_of_target h
    have top := offset_le r
    cases draw : r.unspecifiedWhileBusy with
    | false => exact Bool.and_false _
    | true =>
      have low := offset_ge_of_unspecifiedWhileBusy draw
      rw [idle (by omega) (by omega) (by omega), Bool.false_and]
  · obtain ⟨lo, hi, at_j⟩ := hbufWindow_of_target h
    rw [at_j]
    exact ⟨idle (by omega) (by omega) (.inr lo), fun k hk => hbuf k hk lo (by omega)⟩
  · obtain ⟨lo, hi, at_j⟩ := pbufWindow_of_target h
    rw [at_j]
    exact ⟨idle (by omega) hi (by omega), fun k hk => pbuf k hk lo (by omega)⟩

/-! ### Refused accesses -/

theorem accessOffset_size {size : Nat} (h : size ≠ 4) (c : Config) (addr : Nat) :
    accessOffset c addr size = .error .accessSize := by
  simp [accessOffset, h]

theorem accessOffset_misaligned {c : Config} {addr : Nat} (lo : c.hufbBase ≤ addr) (hi : addr < c.hufbBase + 0x4000)
    (h : (addr - c.hufbBase) % 4 ≠ 0) : accessOffset c addr 4 = .error .misaligned := by
  simp [accessOffset, h, Nat.not_lt.2 lo, Nat.not_le.2 hi]

/-- The host's turn is `hostTurn` after the turn is taken off the list. -/
theorem step_of_hostNext {s : State} (h : hostNext s) : step s = hostTurn (turnTaken s) := by
  rcases h with listed | ⟨none, idle⟩
  · obtain ⟨rest, hs⟩ := List.head?_eq_some_iff.1 listed
    simp [step, nextTurn, takeTurn, turnTaken, hs]
  · simp [step, nextTurn, takeTurn, turnTaken, none, idle]

/-- An access whose offset is refused has no step (20_memory.md R86). -/
theorem step_refused_of_accessOffset {s : State} {addr size : Nat} {v : Word} {rest : List HostOp} {r : Refusal}
    (host : hostNext s) (next : s.prog = .read addr size :: rest ∨ s.prog = .write addr size v :: rest)
    (h : accessOffset s.cfg addr size = .error r) : step s = .refused r := by
  rw [step_of_hostNext host]
  rcases next with hp | hp <;> simp [hostTurn, turnTaken, hp, h]

/-- Settles O22: `accessOffset` refuses such an access, and the host's turn with it. -/
theorem accessesOutsideTheInterfaceAreRefused : Obligations.AccessesOutsideTheInterfaceAreRefused := by
  unfold Obligations.AccessesOutsideTheInterfaceAreRefused
  intro s addr size v rest host next
  refine ⟨fun h => step_refused_of_accessOffset host next (accessOffset_size h s.cfg addr), ?_⟩
  rintro rfl lo hi h
  exact step_refused_of_accessOffset host next (accessOffset_misaligned lo hi h)

end Sys2Proof.Machine
end

section
/-! PROOFS. The decoder of spec/30_encoding.md: the rows of the opcode map have pairwise distinct OPCs and every mask
covers the OPC, so the row a word matches is unique; what a word of each kind decodes to. -/

namespace Sys2Proof

/-! ### OPC -/

theorem toNat_fieldOpc (w : Word) : (fieldOpc w).toNat = w.toNat / 2 ^ 24 := by
  have width := w.isLt
  rw [fieldOpc, BitVec.extractLsb'_toNat, Nat.shiftRight_eq_div_pow]
  omega

theorem fieldOpc_and (w m : Word) : fieldOpc (w &&& m) = fieldOpc w &&& fieldOpc m :=
  BitVec.extractLsb'_and

/-! ### The rows of the opcode map (30_encoding.md R118) -/

theorem OpcodeRow.hits_iff {r : OpcodeRow} {w : Word} : r.hits w = true ↔ (w &&& r.mask) = r.pattern :=
  beq_iff_eq

theorem mask_covers_opc : ∀ r ∈ opcodeMap, fieldOpc r.mask = BitVec.allOnes 8 := by
  decide

theorem pattern_low_bits : ∀ r ∈ opcodeMap, r.pattern &&& 0x00FFFFFF#32 = 0#32 := by
  decide

theorem opcodes_nodup : (opcodeMap.map (fun r => fieldOpc r.pattern)).Nodup := by
  decide

/-- The OPCs that 30_encoding.md R124 does not reserve. -/
theorem opcodes_assigned : ∀ r ∈ opcodeMap, (fieldOpc r.pattern).toNat ≤ 0x01
    ∨ 0x10 ≤ (fieldOpc r.pattern).toNat ∧ (fieldOpc r.pattern).toNat ≤ 0x15
    ∨ 0x20 ≤ (fieldOpc r.pattern).toNat ∧ (fieldOpc r.pattern).toNat ≤ 0x21
    ∨ 0x30 ≤ (fieldOpc r.pattern).toNat ∧ (fieldOpc r.pattern).toNat ≤ 0x34 := by
  decide

theorem command_mnemonic (w : Word) : ∀ r ∈ opcodeMap, (r.command w).mnemonic = r.mnemonic := by
  simp [opcodeMap, Instr.mnemonic]

theorem nop_row : ∀ r ∈ opcodeMap, r.mnemonic = "NOP" → r.mask = BitVec.allOnes 32 ∧ r.pattern = 0#32 := by
  decide

/-! ### The row that a word matches -/

section
variable {w : Word} {r : OpcodeRow} (hr : r ∈ opcodeMap)
include hr

theorem fieldOpc_of_hit (hit : (w &&& r.mask) = r.pattern) : fieldOpc r.pattern = fieldOpc w := by
  rw [← hit, fieldOpc_and, mask_covers_opc r hr, BitVec.and_allOnes]

/-- At most one row matches (30_encoding.md R117). -/
theorem hit_unique {q : OpcodeRow} (hq : q ∈ opcodeMap) (hit : (w &&& r.mask) = r.pattern)
    (hit' : (w &&& q.mask) = q.pattern) : r = q :=
  List.inj_on_of_nodup_map opcodes_nodup hr hq ((fieldOpc_of_hit hr hit).trans (fieldOpc_of_hit hq hit').symm)

/-- The only row that a word can match is the one with its OPC. -/
theorem no_hit_of_fieldOpc (opc : fieldOpc r.pattern = fieldOpc w) (miss : (w &&& r.mask) ≠ r.pattern) :
    ∀ q ∈ opcodeMap, (w &&& q.mask) ≠ q.pattern := by
  intro q hq hit
  have same : q = r := List.inj_on_of_nodup_map opcodes_nodup hq hr ((fieldOpc_of_hit hq hit).trans opc.symm)
  exact miss (same ▸ hit)

end

/-! ### What a word decodes to -/

theorem find_hit_eq_none_iff {w : Word} :
    opcodeMap.find? (fun r => r.hits w) = none ↔ ∀ r ∈ opcodeMap, (w &&& r.mask) ≠ r.pattern := by
  simp [OpcodeRow.hits_iff]

theorem decodeWord_of_no_hit {w : Word} (miss : ∀ r ∈ opcodeMap, (w &&& r.mask) ≠ r.pattern) :
    decodeWord w = if opcodeMap.any (fun r => fieldOpc r.pattern == fieldOpc w) then .error .reservedBits
      else .error .unassignedOpcode := by
  simp [decodeWord, find_hit_eq_none_iff.2 miss]

/-- The words that decode, and what each decodes to (30_encoding.md R117). -/
theorem decodeWord_eq_ok_iff {w : Word} {i : Instr} :
    decodeWord w = .ok i ↔ ∃ r ∈ opcodeMap, (w &&& r.mask) = r.pattern ∧ r.command w = i := by
  cases found : opcodeMap.find? (fun r => r.hits w) with
  | none =>
    have miss := find_hit_eq_none_iff.1 found
    constructor
    · rw [decodeWord_of_no_hit miss]
      split <;> exact nofun
    · rintro ⟨r, hr, hit, -⟩
      exact absurd hit (miss r hr)
  | some q =>
    have hq := List.mem_of_find?_eq_some found
    have hitq := OpcodeRow.hits_iff.1 (List.find?_some (p := fun r : OpcodeRow => r.hits w) found)
    rw [show decodeWord w = .ok (q.command w) by simp [decodeWord, found]]
    constructor
    · intro h
      exact ⟨q, hq, hitq, Except.ok.inj h⟩
    · rintro ⟨r, hr, hit, rfl⟩
      rw [hit_unique hr hq hit hitq]

theorem decodeWord_error_of_no_hit {w : Word} (miss : ∀ r ∈ opcodeMap, (w &&& r.mask) ≠ r.pattern) :
    ∃ e, decodeWord w = .error e := by
  rw [decodeWord_of_no_hit miss]
  split
  · exact ⟨_, rfl⟩
  · exact ⟨_, rfl⟩

theorem decodeWord_unassignedOpcode {w : Word} (h : ∀ r ∈ opcodeMap, fieldOpc r.pattern ≠ fieldOpc w) :
    decodeWord w = .error .unassignedOpcode := by
  rw [decodeWord_of_no_hit fun r hr hit => h r hr (fieldOpc_of_hit hr hit)]
  simpa using h

theorem decodeWord_reservedBits {w : Word} {r : OpcodeRow} (hr : r ∈ opcodeMap)
    (opc : fieldOpc r.pattern = fieldOpc w) (miss : (w &&& r.mask) ≠ r.pattern) :
    decodeWord w = .error .reservedBits := by
  rw [decodeWord_of_no_hit (no_hit_of_fieldOpc hr opc miss), if_pos]
  simpa using ⟨r, hr, opc⟩

theorem eq_zero_of_decodeWord_nop {w : Word} (h : decodeWord w = .ok .nop) : w = 0#32 := by
  obtain ⟨r, hr, hit, command⟩ := decodeWord_eq_ok_iff.1 h
  have name : r.mnemonic = "NOP" := by rw [← command_mnemonic w r hr, command]; rfl
  obtain ⟨mask, pattern⟩ := nop_row r hr name
  rwa [mask, pattern, BitVec.and_allOnes] at hit

end Sys2Proof
end

section
/-! PROOFS. Decoding and the engine's step (spec/30_encoding.md R117, R118, R124, R125). -/

namespace Sys2Proof.Machine

/-- The engine's turn is `engineTurn` after the turn is taken off the list. -/
theorem step_of_engineNext {s : State} (h : engineNext s) : step s = engineTurn (turnTaken s) := by
  rcases h with listed | ⟨none, busy⟩
  · obtain ⟨rest, hs⟩ := List.head?_eq_some_iff.1 listed
    simp [step, nextTurn, takeTurn, turnTaken, hs]
  · simp [step, nextTurn, takeTurn, turnTaken, none, busy]

/-- A latched word that is no command completes with ILLEGAL_COMMAND and changes STATUS alone (30_encoding.md R125;
40_control.md R141). -/
theorem step_of_decodeWord_error {s : State} {e : DecodeReject} (h : decodeWord s.lcmd = .error e)
    (engine : engineNext s) (busy : s.status.busy = true) :
    step s = .next (failedWith (turnTaken s) .illegalCommand) := by
  rw [step_of_engineNext engine]
  simp only [engineTurn, turnTaken, busy, h, if_true]
  rfl

/-- Settles O2: the map is written in the spec's order. -/
theorem opcodeMapIsTheSpecTable : Obligations.OpcodeMapIsTheSpecTable := by
  unfold Obligations.OpcodeMapIsTheSpecTable
  rfl

/-- Settles O5: the masks cover the OPC and the OPCs are distinct, so `hit_unique` gives the row. -/
theorem decodingIsByMaskAndMatch : Obligations.DecodingIsByMaskAndMatch := by
  unfold Obligations.DecodingIsByMaskAndMatch
  intro w
  refine ⟨fun r hr q hq hit hit' => ?_, fun r hr hit => ?_, fun miss s engine busy latched => ?_⟩
  · rw [hit_unique hr hq hit hit']
  · exact ⟨decodeWord_eq_ok_iff.2 ⟨r, hr, hit, rfl⟩, command_mnemonic w r hr⟩
  · obtain ⟨e, h⟩ := decodeWord_error_of_no_hit miss
    exact step_of_decodeWord_error (latched ▸ h) engine busy

/-- Settles O6: a reserved OPC is no row's, and a row's pattern has zeros below bit 24. -/
theorem reservedEncodingsAreIllegal : Obligations.ReservedEncodingsAreIllegal := by
  unfold Obligations.ReservedEncodingsAreIllegal
  intro w
  refine ⟨fun reserved => ?_, fun r hr opc bits => ?_, eq_zero_of_decodeWord_nop, fun e s h engine busy latched => ?_⟩
  · refine decodeWord_unassignedOpcode fun r hr opc => ?_
    have assigned := opcodes_assigned r hr
    rw [opc, toNat_fieldOpc] at assigned
    dsimp only at reserved
    omega
  · refine decodeWord_reservedBits hr (BitVec.eq_of_toNat_eq ?_) fun hit => bits ?_
    · rw [toNat_fieldOpc, toNat_fieldOpc, opc]
    · rw [hit, pattern_low_bits r hr]
  · exact step_of_decodeWord_error (latched ▸ h) engine busy

end Sys2Proof.Machine
end

section
/-! PROOFS. Control (spec/40_control.md): CMD writes, NOP and SOFT_RESET, and what every completion does to STATUS. -/

namespace Sys2Proof.Machine

/-! ### CMD -/

/-- Settles O12: a CMD write is `acceptCommand` unless BUSY, and CMD is no register of 20_memory.md R98 (b). -/
theorem cmdWriteSubmitsACommand : Obligations.CmdWriteSubmitsACommand := by
  unfold Obligations.CmdWriteSubmitsACommand
  intro s w
  have read (s : State) : busValue s 0x014 = s.cmd := busValue_specified s .cmd rfl
  have write : busWrite 0x014 w s = unlessBusy (acceptCommand w) s := busWrite_offset .cmd w s
  simp only [read, write]
  refine ⟨fun idle => unlessBusy_idle idle _, fun busy => unlessBusy_busy busy _, trivial, ?_, rfl⟩
  cases busy : s.status.busy with
  | false => simp [unlessBusy_idle busy]
  | true => simp [unlessBusy_busy busy]

/-! ### NOP and SOFT_RESET -/

/-- OPC 0x00 is NOP's, which admits no operand bit (40_control.md R144). -/
theorem decodeWord_reservedBits_of_opc_zero {w : Word} (opc : fieldOpc w = 0#8) (nonzero : w ≠ 0#32) :
    decodeWord w = .error .reservedBits := by
  have nopRow : opcodeMap[0] ∈ opcodeMap := List.getElem_mem _
  refine decodeWord_reservedBits nopRow opc.symm fun hit => nonzero ?_
  exact eq_zero_of_decodeWord_nop (decodeWord_eq_ok_iff.2 ⟨_, nopRow, hit, rfl⟩)

/-- Settles O27: NOP's body writes nothing, so its completion writes STATUS alone. -/
theorem nopOnlyCompletes : Obligations.NopOnlyCompletes := by
  unfold Obligations.NopOnlyCompletes
  exact ⟨by decide, fun _ => decodeWord_reservedBits_of_opc_zero, fun _ => rfl⟩

theorem exec_softReset (s : State) :
    exec .softReset s = .next (complete .noError { resetRegisters s with ie := s.ie }) := rfl

/-- Settles O28: the reset of the registers with CTRL put back, and the completion. -/
theorem softResetKeepsCtrlAndBuffers : Obligations.SoftResetKeepsCtrlAndBuffers := by
  unfold Obligations.SoftResetKeepsCtrlAndBuffers
  exact ⟨by decide, exec_softReset⟩

/-! ### Completions -/

/-- STATUS of `t` is that of a completion from `s`, with some code (40_control.md R142). -/
def CompletedFrom (s t : State) : Prop := ∃ e, t.status = completionStatus s e

section
variable {s : State}

/-- A check before a command's writes ends in a completion when the rest does. -/
theorem CompletedFrom.check {p : Prop} [Decidable p] {e : ErrorCode} {r : Except ErrorCode State}
    (h : CompletedFrom s (finish s r)) : CompletedFrom s (finish s (if p then .error e else r)) := by
  split
  · exact ⟨e, rfl⟩
  · exact h

theorem tbBuild_completedFrom : CompletedFrom s (finish s (tbBuildBody s)) := by
  unfold tbBuildBody
  split <;> exact ⟨_, rfl⟩

theorem pkUnpack_completedFrom (last : Bool) (pad byte : Byte) :
    CompletedFrom s (finish s (pkUnpackBody last pad byte s)) := by
  unfold pkUnpackBody
  split <;> exact ⟨_, rfl⟩

theorem execSerEmit_completedFrom {t : State} (h : execSerEmit s = .next t) : CompletedFrom s t := by
  unfold execSerEmit at h
  split at h
  · cases h; exact ⟨_, rfl⟩
  · split at h <;> cases h
    exact ⟨_, rfl⟩

theorem execSerParse_completedFrom {t : State} (h : execSerParse s = .next t) : CompletedFrom s t := by
  unfold execSerParse at h
  split at h
  · cases h; exact ⟨_, rfl⟩
  · split at h <;> cases h <;> exact ⟨_, rfl⟩

/-- Every command but SOFT_RESET leaves the STATUS of a completion (40_control.md R142). -/
theorem exec_completedFrom {i : Instr} {t : State} (other : i ≠ .softReset) (h : exec i s = .next t) :
    CompletedFrom s t := by
  cases i with
  | softReset => exact absurd rfl other
  | serEmit => exact execSerEmit_completedFrom h
  | serParse => exact execSerParse_completedFrom h
  | nop | tbClear | pkClear | pkDrain => cases h; exact ⟨.noError, rfl⟩
  | tbMerge | tbPeek | tbReadNode => cases h; exact .check ⟨.noError, rfl⟩
  | tbInsert => cases h; exact .check (.check (.check (.check ⟨.noError, rfl⟩)))
  | tbBuild => cases h; exact tbBuild_completedFrom
  | pkBits => cases h; exact .check (.check (.check ⟨.noError, rfl⟩))
  | pkFlush => cases h; exact .check (.check ⟨.noError, rfl⟩)
  | pkUnpack => cases h; exact pkUnpack_completedFrom _ _ _

end

/-- STATUS after any command: OVR is kept but by SOFT_RESET, which clears it (40_control.md R142, R145). -/
theorem exec_status {i : Instr} {s t : State} (h : exec i s = .next t) :
    ∃ e, t.status = { busy := false, done := true, ovr := s.status.ovr && decide (i ≠ .softReset), err := e } := by
  by_cases reset : i = .softReset
  · rw [reset, exec_softReset] at h
    cases h
    exact ⟨.noError, by simp [reset, resetRegisters, State.resetOf, Status.cleared]⟩
  · obtain ⟨e, status⟩ := exec_completedFrom reset h
    exact ⟨e, by simp [status, reset, completionStatus]⟩

/-- STATUS.ERR is bit 2 (10_state.md R37). -/
theorem statusWord_getLsbD_two (st : Status) : (statusWord st).getLsbD 2 = decide (st.err ≠ .noError) := by
  simp only [statusWord, BitVec.getLsbD_append, BitVec.getLsbD_ofBool, errBit_eq]
  simp

/-! ### The engine's turn -/

theorem step_of_engineNext_idle {s : State} (engine : engineNext s) (idle : s.status.busy = false) :
    step s = .next (turnTaken s) := by
  rw [step_of_engineNext engine]
  simp [engineTurn, turnTaken, idle]

theorem step_of_decodeWord_ok {s : State} {i : Instr} (h : decodeWord s.lcmd = .ok i) (engine : engineNext s)
    (busy : s.status.busy = true) : step s = exec i (turnTaken s) := by
  rw [step_of_engineNext engine]
  simp [engineTurn, turnTaken, busy, h]

/-- Settles O9: the three cases of the engine's turn, and `exec_status` for the completions. -/
theorem engineStepsExactlyWhenBusy : Obligations.EngineStepsExactlyWhenBusy := by
  unfold Obligations.EngineStepsExactlyWhenBusy
  refine ⟨fun s engine => ⟨step_of_engineNext_idle engine, fun busy i h => step_of_decodeWord_ok h engine busy,
    fun busy e h => step_of_decodeWord_error h engine busy⟩, fun i s t h => ?_⟩
  obtain ⟨e, status⟩ := exec_status h
  rw [statusWord_getLsbD_two, status]
  exact ⟨rfl, rfl, rfl, rfl⟩

end Sys2Proof.Machine
end

section
/-! PROOFS. The commands of the tree builder, case by case, and the result words of a node
(spec/41_tree_builder.md R151, R158 to R167). -/

namespace Sys2Proof.Machine

/-- `node_result(h)` in the layout of 41_tree_builder.md R151. -/
theorem nodeWords_eq (n : Node) (h : Nat) : nodeWords n h =
    { r0 := (if n.leaf then 0x80#8 else 0x00#8) ++ BitVec.ofNat 24 n.minsym
      r1 := BitVec.ofNat 32 n.weight
      r2 := if n.leaf then 0#32 else BitVec.ofNat 16 n.right ++ BitVec.ofNat 16 n.left
      r3 := BitVec.ofNat 32 (n.weight / 2 ^ 32)
      r4 := BitVec.ofNat 32 h } := by
  rw [nodeWords, Nat.shiftRight_eq_div_pow]
  cases n.leaf <;> rfl

@[simp] theorem nodeResult_append_last (nodes : List Node) (n : Node) :
    nodeResult (nodes ++ [n]) nodes.length = nodeWords n nodes.length := by
  simp [nodeResult]

/-! ### TB_CLEAR -/

/-- Settles O29: TB_CLEAR has no check and writes the cleared builder. -/
theorem tbClearEmptiesTheBuilder : Obligations.TbClearEmptiesTheBuilder := by
  unfold Obligations.TbClearEmptiesTheBuilder
  exact ⟨by decide, fun _ => rfl⟩

/-! ### TB_INSERT -/

theorem decodeWord_tbInsert {w : Word} (hit : (w &&& 0xFF000000#32) = 0x11000000#32) :
    decodeWord w = .ok (.tbInsert (w.extractLsb' 0 24)) :=
  decodeWord_eq_ok_iff.2 ⟨opcodeMap[3], List.getElem_mem _, hit, rfl⟩

section
variable {s : State} {sym : BitVec 24}

theorem exec_tbInsert_outOfRange (h : 2 ^ s.cfg.symW ≤ sym.toNat) :
    exec (.tbInsert sym) s = .next (failedWith s .illegalCommand) := by
  have range : symInRange s.cfg sym = false := by simpa [symInRange] using h
  simp only [exec, execTbInsert, tbInsertBody, range, if_true]
  rfl

variable (range : sym.toNat < 2 ^ s.cfg.symW)
include range

theorem exec_tbInsert_built (built : s.tb.phase = .built) :
    exec (.tbInsert sym) s = .next (failedWith s .badState) := by
  simp only [exec, execTbInsert, tbInsertBody, symInRange, range, built, decide_true, Bool.true_eq_false, if_false,
    if_true]
  rfl

variable (unbuilt : s.tb.phase ≠ .built)
include unbuilt

theorem exec_tbInsert_seen (seen : sym.toNat ∈ s.tb.seen) :
    exec (.tbInsert sym) s = .next (failedWith s .duplicateSymbol) := by
  simp only [exec, execTbInsert, tbInsertBody, symInRange, range, unbuilt, seen, decide_true, Bool.true_eq_false,
    if_false, if_true]
  rfl

variable (fresh : sym.toNat ∉ s.tb.seen)
include fresh

theorem exec_tbInsert_full (full : s.tb.leafCount = s.cfg.maxLeaves) :
    exec (.tbInsert sym) s = .next (failedWith s .capacity) := by
  simp only [exec, execTbInsert, tbInsertBody, symInRange, range, unbuilt, fresh, full, decide_true,
    Bool.true_eq_false, if_false, if_true]
  rfl

theorem exec_tbInsert_room (room : s.tb.leafCount ≠ s.cfg.maxLeaves) :
    exec (.tbInsert sym) s = .next
      { s with
        tb := insertLeaf sym.toNat (implicitWeight s) s.tb
        result := nodeWords (leafNode sym.toNat (implicitWeight s)) s.tb.nodes.length
        status := completionStatus s .noError } := by
  simp only [exec, execTbInsert, tbInsertBody, symInRange, range, unbuilt, fresh, room, decide_true,
    Bool.true_eq_false, if_false, insertLeaf, nodeResult_append_last]
  rfl

end

/-- A leaf's weight has at most the 32 bits of WDATA, whatever LW is (30_encoding.md R123). -/
theorem implicitWeight_lt (s : State) : implicitWeight s < 2 ^ 32 :=
  (Nat.mod_le _ _).trans_lt s.wdata.isLt

theorem nodeWords_leafNode (sym : BitVec 24) {w : Nat} (hw : w < 2 ^ 32) (h : Nat) :
    nodeWords (leafNode sym.toNat w) h =
      { r0 := 0x80#8 ++ sym, r1 := BitVec.ofNat 32 w, r2 := 0#32, r3 := 0#32, r4 := BitVec.ofNat 32 h } := by
  have high : w / 2 ^ 32 = 0 := Nat.div_eq_of_lt hw
  simp only [nodeWords_eq, leafNode, high, BitVec.ofNat_toNat, BitVec.setWidth_eq, if_true]

/-- Settles O30: the four checks in order, then `insertLeaf`, whose heap and SEEN `heapInsert_perm`,
`heapInsert_ordered` and `mem_markSeen` describe. -/
theorem tbInsertAddsTheLeaf : Obligations.TbInsertAddsTheLeaf := by
  unfold Obligations.TbInsertAddsTheLeaf
  refine ⟨fun w => decodeWord_tbInsert, fun sym s => ⟨exec_tbInsert_outOfRange, exec_tbInsert_built,
    exec_tbInsert_seen, exec_tbInsert_full, fun range unbuilt fresh room => ?_⟩⟩
  have weight := implicitWeight_lt s
  refine ⟨(insertLeaf sym.toNat (implicitWeight s) s.tb).heap, markSeen sym.toNat s.tb.seen, ?_,
    heapInsert_perm _ _ _, fun inv => ?_, mem_markSeen _ _⟩
  · rw [exec_tbInsert_room range unbuilt fresh room, nodeWords_leafNode sym weight]
    rfl
  · exact heapInsert_ordered _ _ _ ((heapOrdered_append _ _ _ fun _ => inv.heap_lt).2 inv.heapOrder)

/-! ### TB_MERGE -/

theorem exec_tbMerge_refused {s : State} (h : s.tb.phase ≠ .loading ∨ s.tb.heap.length < 2) :
    exec .tbMerge s = .next (failedWith s .badState) := by
  simp only [exec, execTbMerge, tbMergeBody, if_pos h]
  rfl

theorem exec_tbMerge_two {s : State} (loading : s.tb.phase = .loading) (two : 2 ≤ s.tb.heap.length) :
    exec .tbMerge s = .next
      { s with
        tb := mergeStep s.cfg s.tb
        result := nodeResult (mergeStep s.cfg s.tb).nodes s.tb.nodes.length
        status := completionStatus s .noError } := by
  have pass : ¬ (s.tb.phase ≠ .loading ∨ s.tb.heap.length < 2) := by simp [loading, Nat.not_lt.2 two]
  simp only [exec, execTbMerge, tbMergeBody, if_neg pass]
  rfl

/-- Settles O31: the merge is `mergeStep_spec`, and the words are those of the node appended. -/
theorem tbMergeJoinsTheTwoMinima : Obligations.TbMergeJoinsTheTwoMinima := by
  unfold Obligations.TbMergeJoinsTheTwoMinima
  refine ⟨by decide, fun s => ⟨exec_tbMerge_refused, fun inv loading two => ?_⟩⟩
  obtain ⟨a, b, rest, split, minA, minB, nodes, heap, frame, -, ordered⟩ :=
    mergeStep_spec inv.tree loading two inv.maxLeaves_pos
  refine ⟨a, b, rest, (mergeStep s.cfg s.tb).heap, split, minA, minB, heap, nodes ▸ ordered, ?_⟩
  rw [exec_tbMerge_two loading two, nodes, nodeResult_append_last, nodeWords_eq, frame, nodes]
  rfl

/-! ### TB_PEEK -/

theorem exec_tbPeek_refused {s : State} (h : s.tb.phase ≠ .loading) :
    exec .tbPeek s = .next (failedWith s .badState) := by
  simp only [exec, execTbPeek, tbPeekBody, if_pos h]
  rfl

theorem exec_tbPeek_loading {s : State} (loading : s.tb.phase = .loading) :
    exec .tbPeek s = .next
      { s with
        result := nodeResult s.tb.nodes (slotAt s.tb.heap 0)
        status := completionStatus s .noError } := by
  simp only [exec, execTbPeek, tbPeekBody, loading, ne_eq, not_true_eq_false, if_false]
  rfl

/-- Settles O33: slot 0 of the heap is its unique minimum. -/
theorem tbPeekReportsTheMinimum : Obligations.TbPeekReportsTheMinimum := by
  unfold Obligations.TbPeekReportsTheMinimum
  refine ⟨by decide, fun s => ⟨exec_tbPeek_refused, fun inv loading => ?_⟩⟩
  have filled : s.tb.heap ≠ [] := List.ne_nil_of_length_pos (inv.tree.loading loading)
  exact ⟨slotAt s.tb.heap 0, slot0_isHeapMin _ _ filled inv.tree.heapOrder inv.tree.heapKeys,
    exec_tbPeek_loading loading⟩

/-! ### TB_READ_NODE -/

theorem decodeWord_tbReadNode {w : Word} (hit : (w &&& 0xFFFF0000#32) = 0x15000000#32) :
    decodeWord w = .ok (.tbReadNode (w.extractLsb' 0 16)) :=
  decodeWord_eq_ok_iff.2 ⟨opcodeMap[7], List.getElem_mem _, hit, rfl⟩

theorem exec_tbReadNode_refused {s : State} {handle : BitVec 16} (h : s.tb.nodes.length ≤ handle.toNat) :
    exec (.tbReadNode handle) s = .next (failedWith s .badState) := by
  simp only [exec, execTbReadNode, tbReadNodeBody, if_pos h]
  rfl

theorem exec_tbReadNode_allocated {s : State} {handle : BitVec 16} {n : Node}
    (found : s.tb.nodes[handle.toNat]? = some n) :
    exec (.tbReadNode handle) s = .next
      { s with
        result := nodeWords n handle.toNat
        status := completionStatus s .noError } := by
  obtain ⟨lt, entry⟩ := getElem?_nodeAt _ _ _ found
  simp only [exec, execTbReadNode, tbReadNodeBody, if_neg (Nat.not_le.2 lt), nodeResult, entry]
  rfl

theorem ofNat_toNat_handle (handle : BitVec 16) : BitVec.ofNat 32 handle.toNat = 0#16 ++ handle := by
  apply BitVec.eq_of_toNat_eq
  have := handle.isLt
  rw [toNat_append_add, BitVec.toNat_ofNat, BitVec.toNat_ofNat]
  omega

/-- Settles O34: `nodeWords_eq`, with the handle in the low half of RESULT4. -/
theorem tbReadNodeReportsTheNode : Obligations.TbReadNodeReportsTheNode := by
  unfold Obligations.TbReadNodeReportsTheNode
  refine ⟨fun w => decodeWord_tbReadNode, fun handle s => ⟨exec_tbReadNode_refused, fun n found => ?_⟩⟩
  rw [exec_tbReadNode_allocated found, nodeWords_eq, ofNat_toNat_handle]

/-! ### TB_BUILD -/

theorem exec_tbBuild_built {s : State} (built : s.tb.phase = .built) :
    exec .tbBuild s = .next (failedWith s .badState) := by
  simp only [exec, execTbBuild, tbBuildBody, built]
  rfl

theorem exec_tbBuild_empty {s : State} (empty : s.tb.phase = .empty) :
    exec .tbBuild s = .next (failedWith s .emptyAlphabet) := by
  simp only [exec, execTbBuild, tbBuildBody, empty]
  rfl

theorem exec_tbBuild_loading {s : State} (loading : s.tb.phase = .loading) :
    exec .tbBuild s = .next
      { s with
        tb := buildTree s.cfg s.tb
        result := nodeResult (buildTree s.cfg s.tb).nodes ((buildTree s.cfg s.tb).root.getD 0)
        status := completionStatus s .noError } := by
  simp only [exec, execTbBuild, tbBuildBody, loading]
  rfl

section
variable {c : Config} {tb : TreeBuilder}

theorem mergeAll_heap_eq_singleton (inv : tb.Inv c) (loading : tb.phase = .loading) (pos : 0 < c.maxLeaves) :
    ∃ r, (mergeAll c tb.heap.length tb).heap = [r] := by
  obtain ⟨-, -, one, -⟩ := mergeAll_spec tb.heap.length inv loading (by omega) pos
  exact List.length_eq_one_iff.1 one

/-- The handle that the merges leave in the heap is the root, and its extraction empties the heap
(41_tree_builder.md R162). -/
theorem buildTree_eq {r : Nat} (last : (mergeAll c tb.heap.length tb).heap = [r]) :
    buildTree c tb = { mergeAll c tb.heap.length tb with root := some r, heap := [], phase := .built } := by
  simp [buildTree, heapExtract, heapRest, slotAt, last]

/-- The build loop is HEAP_COUNT - 1 merge steps (41_tree_builder.md R165). -/
theorem mergeAll_eq_iterate (fuel : Nat) (enough : tb.heap.length ≤ fuel + 1) :
    mergeAll c fuel tb = (mergeStep c)^[tb.heap.length - 1] tb := by
  induction fuel generalizing tb with
  | zero =>
    rw [show tb.heap.length - 1 = 0 by omega]
    rfl
  | succ fuel ih =>
    unfold mergeAll
    split
    next two =>
      have shorter := mergeStep_heap_length c tb two
      rw [ih (by omega), shorter, ← Function.iterate_succ_apply]
      congr 1
      omega
    next one =>
      rw [show tb.heap.length - 1 = 0 by omega]
      rfl

/-! ### Before any merge -/

theorem childHandles_of_leaves {nodes : List Node} (leaves : ∀ n ∈ nodes, n.leaf = true) : childHandles nodes = [] :=
  List.flatMap_eq_nil_iff.2 fun n hn => if_pos (leaves n hn)

/-- With no merge done the heap holds every handle. -/
theorem TreeBuilder.Inv.heap_perm_range (inv : tb.Inv c) (unbuilt : tb.phase ≠ .built)
    (leaves : ∀ n ∈ tb.nodes, n.leaf = true) : tb.heap.Perm (List.range tb.nodes.length) := by
  have forest := inv.forest
  rwa [childHandles_of_leaves leaves, List.nil_append, inv.roots_heap unbuilt] at forest

/-- With no merge done HEAP_COUNT and NODE_COUNT are LEAF_COUNT. -/
theorem TreeBuilder.Inv.counts_of_leaves (inv : tb.Inv c) (unbuilt : tb.phase ≠ .built)
    (leaves : ∀ n ∈ tb.nodes, n.leaf = true) :
    tb.heap.length = tb.leafCount ∧ tb.nodes.length = tb.leafCount := by
  have nodes : tb.nodes.length = tb.leafCount := (inv.leaves.trans (List.countP_eq_length.2 leaves)).symm
  have heap := (inv.heap_perm_range unbuilt leaves).length_eq
  rw [List.length_range, nodes] at heap
  exact ⟨heap, nodes⟩

end

/-- The last node of a store with one root is that root: a child's handle is below its parent's (00_scope.md R17). -/
theorem Forest.root_add_one {c : Config} {nodes : List Node} {r leaves : Nat} (f : Forest c nodes [r] leaves) :
    r + 1 = nodes.length := by
  have lt : r < nodes.length := f.root_lt (List.mem_singleton_self r)
  have listed : nodes.length - 1 ∈ childHandles nodes ++ [r] :=
    f.handles.mem_iff.2 (List.mem_range.2 (by omega))
  rcases List.mem_append.1 listed with child | root
  · obtain ⟨n, hn, isChild⟩ := List.mem_flatMap.1 child
    obtain ⟨h, hh, rfl⟩ := List.getElem_of_mem hn
    cases leaf : nodes[h].leaf with
    | true => simp [leaf] at isChild
    | false =>
      have below := f.children h _ (List.getElem?_eq_getElem hh) leaf
      simp [leaf] at isChild
      omega
  · have := List.mem_singleton.1 root
    omega

/-- Settles O32: the build loop as iterated merge steps, `mergeAll_spec` for what it keeps, and `Forest.root_add_one`
for the root's handle. -/
theorem tbBuildMergesToOneRoot : Obligations.TbBuildMergesToOneRoot := by
  unfold Obligations.TbBuildMergesToOneRoot
  refine ⟨by decide, fun s => ⟨exec_tbBuild_built, exec_tbBuild_empty, fun inv loading => ?_⟩⟩
  have unbuilt : s.tb.phase ≠ .built := by simp [loading]
  obtain ⟨r, last⟩ := mergeAll_heap_eq_singleton inv.tree loading inv.maxLeaves_pos
  have iterated := mergeAll_eq_iterate (c := s.cfg) s.tb.heap.length (Nat.le_succ s.tb.heap.length)
  obtain ⟨merged, phase, -, count, -, leafCount, -⟩ :=
    mergeAll_spec s.tb.heap.length inv.tree loading (by omega) inv.maxLeaves_pos
  refine ⟨mergeAll s.cfg s.tb.heap.length s.tb, r, iterated, last, ?_, leafCount, count, fun one => ?_,
    fun leaves => ?_⟩
  · rw [exec_tbBuild_loading loading, buildTree_eq last]
    rfl
  · rw [iterated, one]
    rfl
  · obtain ⟨heap, nodes⟩ := inv.tree.counts_of_leaves unbuilt leaves
    have filled := inv.tree.loading loading
    have forest := merged.toForest
    rw [merged.roots_heap (by simp [phase]), last] at forest
    have root := forest.root_add_one
    have internal := (setTree_inv _ merged inv).internal_count
    rw [setTree_tb, leafCount] at internal
    exact ⟨by omega, by omega, by omega⟩

end Sys2Proof.Machine
end

section
/-! PROOFS. The build as a function of the keys and labelled trees at the heap's handles
(spec/41_tree_builder.md R153, R168, R169). -/

namespace Sys2Proof.Machine

/-- What the build sees of the node at a handle: its key (41_tree_builder.md R152) and its labelled tree. -/
structure RootView where
  weight : Nat
  minsym : Nat
  tree   : Option HufTree

def rootView (nodes : List Node) (h : Nat) : RootView :=
  { weight := (nodeAt nodes h).weight, minsym := (nodeAt nodes h).minsym, tree := treeAt nodes (h + 1) h }

/-- What the build sees of a leaf. -/
def RootView.leaf (sym weight : Nat) : RootView :=
  { weight := weight, minsym := sym, tree := some (.leaf sym weight) }

/-- What the build sees of a merged node (41_tree_builder.md R157). -/
def RootView.join (a b : RootView) : RootView :=
  { weight := a.weight + b.weight, minsym := min a.minsym b.minsym,
    tree := Option.map₂ (.node (a.weight + b.weight)) a.tree b.tree }

theorem rootView_leaf {nodes : List Node} {h : Nat} (leaf : (nodeAt nodes h).leaf = true) :
    rootView nodes h = .leaf (nodeAt nodes h).minsym (nodeAt nodes h).weight := by
  simp [rootView, RootView.leaf, treeAt, leaf]

theorem rootView_append {nodes : List Node} (below : ChildrenBelow nodes) (n : Node) {h : Nat}
    (hh : h < nodes.length) : rootView (nodes ++ [n]) h = rootView nodes h := by
  simp [rootView, nodeAt_append_left _ _ _ hh, treeAt_append below _ _ _ hh]

theorem treeAt_parentNode {nodes : List Node} (below : ChildrenBelow nodes) {a b : Nat} (w : Nat)
    (ha : a < nodes.length) (hb : b < nodes.length) :
    treeAt (nodes ++ [parentNode nodes a b w]) (nodes.length + 1) nodes.length
      = Option.map₂ (.node w) (treeAt nodes (a + 1) a) (treeAt nodes (b + 1) b) := by
  obtain ⟨l, left⟩ := treeAt_isSome below (a + 1) a ha (by omega)
  obtain ⟨r, right⟩ := treeAt_isSome below (b + 1) b hb (by omega)
  have left' := treeAt_mono _ nodes.length a l ha left
  have right' := treeAt_mono _ nodes.length b r hb right
  rw [left, right, treeAt, nodeAt_append_last]
  simp [parentNode, treeAt_append below _ _ _ ha, treeAt_append below _ _ _ hb, left', right']

theorem rootView_parentNode {nodes : List Node} (below : ChildrenBelow nodes) {a b : Nat} (ha : a < nodes.length)
    (hb : b < nodes.length) :
    rootView (nodes ++ [parentNode nodes a b ((nodeAt nodes a).weight + (nodeAt nodes b).weight)]) nodes.length
      = (rootView nodes a).join (rootView nodes b) := by
  rw [rootView, nodeAt_append_last, treeAt_parentNode below _ ha hb]
  rfl

/-! ### Equal views have equal minima -/

section
variable {nodes nodes' : List Node} {heap heap' : List Nat}

theorem keyLt_of_rootView_eq {x y x' y' : Nat} (hx : rootView nodes x = rootView nodes' x')
    (hy : rootView nodes y = rootView nodes' y') (lt : keyLt (nodeAt nodes x) (nodeAt nodes y) = true) :
    keyLt (nodeAt nodes' x') (nodeAt nodes' y') = true := by
  simp only [rootView, RootView.mk.injEq] at hx hy
  rw [keyLt_iff] at lt ⊢
  omega

/-- The sequence of minima is fixed by what the build sees, whatever the heap's slot layout
(41_tree_builder.md R153). -/
theorem rootView_of_isHeapMin {m m' : Nat} (isMin : IsHeapMin nodes heap m) (isMin' : IsHeapMin nodes' heap' m')
    (same : (heap.map (rootView nodes)).Perm (heap'.map (rootView nodes'))) :
    rootView nodes m = rootView nodes' m' := by
  obtain ⟨mem, least⟩ := isMin
  obtain ⟨mem', least'⟩ := isMin'
  obtain ⟨x', hx', twin'⟩ := List.mem_map.1 (same.mem_iff.1 (List.mem_map_of_mem mem))
  obtain ⟨x, hx, twin⟩ := List.mem_map.1 (same.mem_iff.2 (List.mem_map_of_mem mem'))
  by_contra differ
  have lt := least x hx fun e => differ (e ▸ twin)
  have lt' := least' x' hx' fun e => differ (e ▸ twin'.symm)
  have flipped := keyLt_of_rootView_eq twin'.symm twin lt
  rw [keyLt_asymm lt'] at flipped
  cases flipped

end

/-! ### Two builds in step -/

/-- The two heaps hold the same views, in any slots and at any handles. -/
def SameRoots (tb tb' : TreeBuilder) : Prop :=
  (tb.heap.map (rootView tb.nodes)).Perm (tb'.heap.map (rootView tb'.nodes))

theorem SameRoots.heap_length {tb tb' : TreeBuilder} (same : SameRoots tb tb') : tb.heap.length = tb'.heap.length := by
  simpa using same.length_eq

section
variable {c : Config} {tb tb' : TreeBuilder}

/-- A merge step takes the views of the two minima out of the heap and puts their join in. -/
theorem mergeStep_rootViews (inv : tb.Inv c) (loading : tb.phase = .loading) (two : 2 ≤ tb.heap.length)
    (pos : 0 < c.maxLeaves) :
    ∃ a b rest,
      tb.heap.Perm (a :: b :: rest) ∧ IsHeapMin tb.nodes tb.heap a ∧ IsHeapMin tb.nodes (b :: rest) b
      ∧ ((mergeStep c tb).heap.map (rootView (mergeStep c tb).nodes)).Perm
          ((rootView tb.nodes a).join (rootView tb.nodes b) :: rest.map (rootView tb.nodes)) := by
  obtain ⟨a, b, rest, split, minA, minB, nodes, heap, -⟩ := mergeStep_spec inv loading two pos
  have lt (x : Nat) (hx : x ∈ a :: b :: rest) : x < tb.nodes.length := inv.heap_lt (split.mem_iff.2 hx)
  refine ⟨a, b, rest, split, minA, minB, (heap.map _).trans ?_⟩
  rw [nodes, List.map_cons, rootView_parentNode inv.children (lt a (by simp)) (lt b (by simp)),
    List.map_congr_left fun x hx => rootView_append inv.children _ (lt x (by simp [hx]))]

/-- A merge step in both builders keeps their heaps' views the same. -/
theorem mergeStep_sameRoots (inv : tb.Inv c) (inv' : tb'.Inv c) (loading : tb.phase = .loading)
    (loading' : tb'.phase = .loading) (two : 2 ≤ tb.heap.length) (pos : 0 < c.maxLeaves) (same : SameRoots tb tb') :
    SameRoots (mergeStep c tb) (mergeStep c tb') := by
  obtain ⟨a, b, rest, split, minA, minB, views⟩ := mergeStep_rootViews inv loading two pos
  obtain ⟨a', b', rest', split', minA', minB', views'⟩ :=
    mergeStep_rootViews inv' loading' (same.heap_length ▸ two) pos
  have sameA : rootView tb.nodes a = rootView tb'.nodes a' := rootView_of_isHeapMin minA minA' same
  have afterA : ((b :: rest).map (rootView tb.nodes)).Perm ((b' :: rest').map (rootView tb'.nodes)) := by
    have all := (split.map _).symm.trans (same.trans (split'.map _))
    rw [List.map_cons, List.map_cons, sameA] at all
    exact all.cons_inv
  have sameB : rootView tb.nodes b = rootView tb'.nodes b' := rootView_of_isHeapMin minB minB' afterA
  have afterB : (rest.map (rootView tb.nodes)).Perm (rest'.map (rootView tb'.nodes)) := by
    rw [List.map_cons, List.map_cons, sameB] at afterA
    exact afterA.cons_inv
  refine views.trans (.trans ?_ views'.symm)
  rw [sameA, sameB]
  exact afterB.cons _

/-- The build loops of both builders run in step. -/
theorem mergeAll_sameRoots (fuel : Nat) (inv : tb.Inv c) (inv' : tb'.Inv c) (loading : tb.phase = .loading)
    (loading' : tb'.phase = .loading) (pos : 0 < c.maxLeaves) (same : SameRoots tb tb') :
    SameRoots (mergeAll c fuel tb) (mergeAll c fuel tb') := by
  induction fuel generalizing tb tb' with
  | zero => exact same
  | succ fuel ih =>
    have len := same.heap_length
    unfold mergeAll
    by_cases two : 2 ≤ tb.heap.length
    · have two' : 2 ≤ tb'.heap.length := len ▸ two
      rw [if_pos two, if_pos two']
      exact ih (mergeStep_inv inv loading two pos) (mergeStep_inv inv' loading' two' pos) loading loading'
        (mergeStep_sameRoots inv inv' loading loading' two pos same)
    · rw [if_neg two, if_neg (len ▸ two)]
      exact same

/-! ### The built tree -/

theorem builtTree_buildTree {r : Nat} (last : (mergeAll c tb.heap.length tb).heap = [r]) :
    builtTree (buildTree c tb) = (rootView (mergeAll c tb.heap.length tb).nodes r).tree := by
  rw [buildTree_eq last]
  rfl

/-- Two builders whose heaps hold the same views build the same labelled tree. -/
theorem builtTree_buildTree_of_sameRoots (inv : tb.Inv c) (inv' : tb'.Inv c) (loading : tb.phase = .loading)
    (loading' : tb'.phase = .loading) (pos : 0 < c.maxLeaves) (same : SameRoots tb tb') :
    builtTree (buildTree c tb) = builtTree (buildTree c tb') := by
  obtain ⟨r, last⟩ := mergeAll_heap_eq_singleton inv loading pos
  obtain ⟨r', last'⟩ := mergeAll_heap_eq_singleton inv' loading' pos
  have final := mergeAll_sameRoots tb.heap.length inv inv' loading loading' pos same
  rw [builtTree_buildTree last, builtTree_buildTree last', ← same.heap_length]
  rw [← same.heap_length] at last'
  rw [SameRoots, last, last', List.map_singleton, List.map_singleton, List.singleton_perm_singleton] at final
  rw [final]

/-! ### Before any merge -/

/-- With no merge done the heap's views are the leaves inserted. -/
theorem TreeBuilder.Inv.leafViews (inv : tb.Inv c) (unbuilt : tb.phase ≠ .built)
    (leaves : ∀ n ∈ tb.nodes, n.leaf = true) :
    (tb.heap.map (rootView tb.nodes)).Perm
      ((tb.nodes.map fun n => (n.minsym, n.weight)).map fun p => RootView.leaf p.1 p.2) := by
  refine ((inv.heap_perm_range unbuilt leaves).map _).trans (.of_eq (List.ext_getElem (by simp) fun i hi hi' => ?_))
  have lt : i < tb.nodes.length := by simpa using hi
  have entry := nodeAt_eq tb.nodes i lt
  simp [rootView_leaf (entry ▸ leaves _ (List.getElem_mem lt)), entry]

end

/-- Settles O37: with leaves only, the same multiset of pairs gives heaps with the same views, and the builds run in
step. -/
theorem insertionOrderIsIrrelevant : Obligations.InsertionOrderIsIrrelevant := by
  unfold Obligations.InsertionOrderIsIrrelevant
  intro s s' inv inv' cfg loading loading' leaves leaves' pairs
  have pos := inv.maxLeaves_pos
  have tree' : s'.tb.Inv s.cfg := cfg ▸ inv'.tree
  have same : SameRoots s.tb s'.tb :=
    (inv.tree.leafViews (by simp [loading]) leaves).trans
      ((pairs.map _).trans (tree'.leafViews (by simp [loading']) leaves').symm)
  obtain ⟨built, phase, -⟩ := buildTree_spec inv.tree loading pos
  obtain ⟨-, T, -, -, -, found, -⟩ := built.builtTree_some phase
  refine ⟨_, _, T, exec_tbBuild_loading loading, exec_tbBuild_loading loading', found, ?_⟩
  rw [← found, builtTree_buildTree_of_sameRoots inv.tree tree' loading loading' pos same]
  simp [cfg]

end Sys2Proof.Machine
end

section
/-! PROOFS. SER_EMIT and SER_PARSE as the header of the labelled tree at ROOT and its parse
(spec/42_serializer.md R191 to R196, R203). -/

namespace Sys2Proof.Machine

/-! ### The tree that HUFB holds -/

/-- The symbols of a labelled tree are those of leaves of the store. -/
theorem treeAt_symbols {nodes : List Node} (below : ChildrenBelow nodes) {depth h : Nat} {T : HufTree}
    (hh : h < nodes.length) (found : treeAt nodes depth h = some T) :
    ∀ x ∈ T.symbols, ∃ n ∈ nodes, n.leaf = true ∧ n.minsym = x := by
  induction depth generalizing h T with
  | zero => simp [treeAt] at found
  | succ d ih =>
    unfold treeAt at found
    cases leaf : (nodeAt nodes h).leaf with
    | true =>
      obtain rfl : .leaf (nodeAt nodes h).minsym (nodeAt nodes h).weight = T := by simpa [leaf] using found
      have mem : nodeAt nodes h ∈ nodes := nodeAt_eq nodes h hh ▸ List.getElem_mem hh
      simpa [HufTree.symbols] using ⟨_, mem, leaf, rfl⟩
    | false =>
      obtain ⟨ltL, ltR⟩ := below.at hh leaf
      simp only [leaf, Bool.false_eq_true, if_false] at found
      split at found
      next l r left right =>
        cases found
        intro x hx
        rcases List.mem_append.1 hx with hx | hx
        · exact ih (ltL.trans hh) left x hx
        · exact ih (ltR.trans hh) right x hx
      next => cases found

/-- In a BUILT state the tree at ROOT has LEAF_COUNT leaves and symbols of SYM_W bits. -/
theorem State.Inv.builtTree_some {s : State} (inv : s.Inv) (built : s.tb.phase = .built) :
    ∃ T, builtTree s.tb = some T ∧ T.leaves = s.tb.leafCount ∧ ∀ x ∈ T.symbols, x < 2 ^ s.cfg.symW := by
  obtain ⟨r, T, -, lt, atRoot, found, leaves⟩ := inv.tree.builtTree_some built
  refine ⟨T, found, leaves, fun x hx => ?_⟩
  obtain ⟨n, mem, -, rfl⟩ := treeAt_symbols inv.tree.children lt atRoot x hx
  exact (inv.tree.widths n mem).1

/-- HBUF has room for the header of any tree of at most MAX_LEAVES leaves (42_serializer.md R192). -/
theorem header_length_le {c : Config} (legal : c.Legal) {T : HufTree} (leaves : T.leaves ≤ c.maxLeaves) :
    (T.header c.sb).length ≤ c.hbufSize := by
  obtain ⟨-, -, -, ⟨room, -⟩, -⟩ := legal
  have length := header_length c.sb T
  have most := Nat.mul_le_mul_right (2 + c.sb) leaves
  omega

theorem header_length_lt {c : Config} (legal : c.Legal) {T : HufTree} (leaves : T.leaves ≤ c.maxLeaves) :
    (T.header c.sb).length < 2 ^ 32 := by
  have fits := header_length_le legal leaves
  obtain ⟨-, -, -, ⟨-, size⟩, -⟩ := legal
  omega

/-! ### SER_EMIT -/

theorem exec_serEmit_refused {s : State} (unbuilt : s.tb.phase ≠ .built) :
    exec .serEmit s = .next (failedWith s .badState) := by
  simp only [exec, execSerEmit, if_pos unbuilt]
  rfl

theorem rootHeader_of_builtTree {s : State} {T : HufTree} (found : builtTree s.tb = some T) :
    rootHeader s = some (T.header s.cfg.sb) := by
  unfold builtTree at found
  split at found
  next r root => simp [rootHeader, root, serialize_eq, found]
  next => cases found

/-- The state after SER_EMIT of the header `bytes` (42_serializer.md R193). -/
def emitted (bytes : List Byte) (s : State) : State := complete .noError (emitHeader bytes s)

theorem exec_serEmit_built {s : State} {T : HufTree} (built : s.tb.phase = .built)
    (found : builtTree s.tb = some T) :
    exec .serEmit s = .next (emitted (T.header s.cfg.sb) s) := by
  simp only [exec, execSerEmit, built, rootHeader_of_builtTree found, ne_eq, not_true_eq_false, if_false]
  rfl

section
variable {s : State} {bytes : List Byte}

theorem emitted_hdrLen (short : bytes.length < 2 ^ 32) : (emitted bytes s).hdrLen.toNat = bytes.length :=
  Nat.mod_eq_of_lt short

/-- What HBUF reads after SER_EMIT: the header, and above it the bytes as before (42_serializer.md R193, R204). -/
theorem read_emitted (fits : bytes.length ≤ s.cfg.hbufSize) (j : Nat) :
    Memory.read (emitted bytes s).hbuf j = if j < bytes.length then bytes[j]? else Memory.read s.hbuf j := by
  have within : (0 ≤ j ∧ j < 0 + bytes.length ∧ j < s.cfg.hbufSize) ↔ j < bytes.length := by omega
  show Memory.read (Memory.writeBytes s.cfg.hbufSize s.hbuf 0 bytes) j = _
  simp only [read_writeBytes, within, Nat.sub_zero]

end

/-- Settles O41: `exec_serEmit_built` for the effect, `read_emitted` for HBUF, and `header_length` for the length. -/
theorem serEmitWritesTheHeader : Obligations.SerEmitWritesTheHeader := by
  unfold Obligations.SerEmitWritesTheHeader
  refine ⟨by decide, fun s => ⟨exec_serEmit_refused, fun inv built => ?_⟩⟩
  obtain ⟨T, found, leaves, -⟩ := inv.builtTree_some built
  have fits := header_length_le inv.legal (leaves.trans_le inv.tree.leafBound)
  refine ⟨T, (emitted (T.header s.cfg.sb) s).hbuf, found, exec_serEmit_built built found,
    fun j hj => ?_, fun j hj => ?_, ?_, fits⟩
  · rw [read_emitted fits, if_pos hj]
  · rw [read_emitted fits, if_neg (by omega)]
  · have length := header_length s.cfg.sb T
    have pos := leaves_pos T
    rw [leaves] at length pos
    have split : s.tb.leafCount * (2 + s.cfg.sb) = s.tb.leafCount * (1 + s.cfg.sb) + s.tb.leafCount := by ring
    omega

/-! ### SER_PARSE -/

/-- The state after SER_PARSE of a header that parses to `tb` (42_serializer.md R195). -/
def parsedTo (tb : TreeBuilder) (s : State) : State :=
  complete .noError (takeHeaderDraws (setResults (nodeResult tb.nodes (tb.root.getD 0)) (setTree tb s)))

theorem exec_serParse_header {s : State} {tb : TreeBuilder} (fits : s.hdrLen.toNat ≤ s.cfg.hbufSize)
    (parsed : parseHeader s.cfg (implicitHeader s s.hdrLen.toNat) = some tb) :
    exec .serParse s = .next (parsedTo tb s) := by
  simp only [exec, execSerParse, if_neg (Nat.not_lt.2 fits), parsed]
  rfl

/-- A SER_PARSE that completes with code 0 has parsed a header that HBUF holds. -/
theorem exec_serParse_noError {s t : State} (h : exec .serParse s = .next t) (ok : t.status.err = .noError) :
    ∃ tb, s.hdrLen.toNat ≤ s.cfg.hbufSize ∧ parseHeader s.cfg (implicitHeader s s.hdrLen.toNat) = some tb
      ∧ t = parsedTo tb s := by
  simp only [exec, execSerParse] at h
  split at h
  next => cases h; cases ok
  next fits =>
    split at h
    next tb parsed => cases h; exact ⟨tb, Nat.not_lt.1 fits, parsed, rfl⟩
    next => cases h; cases ok

theorem parseHeader_phase {c : Config} {bytes : List Byte} {tb : TreeBuilder} (h : parseHeader c bytes = some tb) :
    tb.phase = .built := by
  unfold parseHeader at h
  split at h <;> cases h
  rfl

@[simp] theorem implicitHeader_length (s : State) (len : Nat) : (implicitHeader s len).length = len := by
  simp [implicitHeader]

/-- Header bytes that have been written are no draws. -/
theorem implicitHeader_of_read {s : State} {bytes : List Byte}
    (written : ∀ j, j < bytes.length → Memory.read s.hbuf j = bytes[j]?) :
    implicitHeader s bytes.length = bytes := by
  refine List.ext_getElem (by simp) fun j _ hj => ?_
  simp [implicitHeader, byteOrDraw, written j hj, hj]

/-- SER_PARSE reads back the bytes that SER_EMIT wrote. -/
theorem implicitHeader_emitted {s : State} {bytes : List Byte} (fits : bytes.length ≤ s.cfg.hbufSize) :
    implicitHeader (emitted bytes s) bytes.length = bytes :=
  implicitHeader_of_read fun j hj => (read_emitted fits j).trans (if_pos hj)

/-- Settles O43. One way, SER_PARSE reads back the bytes that SER_EMIT wrote, and `parseHeader_header` gives their tree;
the other way, by `parseHeader_sound` the bytes parsed are the header of the tree left, which SER_EMIT writes. -/
theorem headerRoundTrip : Obligations.HeaderRoundTrip := by
  unfold Obligations.HeaderRoundTrip
  refine ⟨fun s inv built => ?_, fun s t inv parse ok => ?_⟩
  · obtain ⟨T, found, leaves, symbols⟩ := inv.builtTree_some built
    have most : T.leaves ≤ s.cfg.maxLeaves := leaves.trans_le inv.tree.leafBound
    have fits := header_length_le inv.legal most
    have hdrLen := emitted_hdrLen (s := s) (header_length_lt inv.legal most)
    obtain ⟨tb, parsed, same, -⟩ := parseHeader_header s.cfg T symbols (by unfold Config.sb; omega)
      (by unfold Config.nodeCap; omega)
    refine ⟨T, _, _, found, exec_serEmit_built built found,
      exec_serParse_header (tb := tb) (hdrLen.trans_le fits) ?_, rfl, same⟩
    rw [hdrLen, implicitHeader_emitted fits]
    exact parsed
  · obtain ⟨tb, fits, parsed, rfl⟩ := exec_serParse_noError parse ok
    obtain ⟨T, found, bytes, -⟩ := parseHeader_sound _ _ _ parsed
    have length : (T.header s.cfg.sb).length = s.hdrLen.toNat := by rw [bytes, implicitHeader_length]
    refine ⟨_, exec_serEmit_built (s := parsedTo tb s) (parseHeader_phase parsed) found, rfl, ?_, fun j hj => ?_⟩
    · show BitVec.ofNat 32 (T.header s.cfg.sb).length = s.hdrLen
      rw [length, BitVec.ofNat_toNat, BitVec.setWidth_eq]
    · rw [← bytes]
      exact (read_emitted (s := parsedTo tb s) (length.trans_le fits) j).trans (if_pos (length ▸ hj))

end Sys2Proof.Machine
end

section
/-! PROOFS. The commands of the bit packer, case by case (spec/43_bit_packer.md R220 to R230), and which turns change
the stream state (R226). -/

namespace Sys2Proof.Machine

/-! ### PK_CLEAR and PK_DRAIN -/

theorem exec_pkClear (s : State) :
    exec .pkClear s = .next { s with pk := .cleared, status := completionStatus s .noError } := rfl

theorem exec_pkDrain (s : State) :
    exec .pkDrain s = .next { s with pk := { s.pk with nbytes := 0 }, status := completionStatus s .noError } := rfl

/-- Settles O44: PK_CLEAR has no check and writes the cleared packer. -/
theorem pkClearOpensAStream : Obligations.PkClearOpensAStream := by
  unfold Obligations.PkClearOpensAStream
  exact ⟨by decide, exec_pkClear⟩

/-- Settles O47: PK_DRAIN has no check and writes PK_NBYTES alone. -/
theorem pkDrainEmptiesPbuf : Obligations.PkDrainEmptiesPbuf := by
  unfold Obligations.PkDrainEmptiesPbuf
  exact ⟨by decide, exec_pkDrain⟩

/-! ### PK_BITS -/

theorem decodeWord_pkBits {w : Word} (hit : (w &&& 0xFFE00000#32) = 0x31000000#32) :
    decodeWord w = .ok (.pkBits (w.extractLsb' 16 5) (w.extractLsb' 0 16)) :=
  decodeWord_eq_ok_iff.2 ⟨opcodeMap[11], List.getElem_mem _, hit, rfl⟩

theorem bitsLegal_iff {n : BitVec 5} {d : BitVec 16} :
    bitsLegal n d = true ↔ 1 ≤ n.toNat ∧ n.toNat ≤ 16 ∧ d.toNat < 2 ^ n.toNat := by
  have noHighBit : d.toNat / 2 ^ n.toNat = 0 ↔ d.toNat < 2 ^ n.toNat := by
    simp [Nat.div_eq_zero_iff]
  simp only [bitsLegal, Nat.shiftRight_eq_div_pow, Bool.not_eq_true', Bool.or_eq_false_iff, decide_eq_false_iff_not,
    ne_eq, not_not, noHighBit, and_assoc]
  omega

section
variable {s : State} {n : BitVec 5} {d : BitVec 16}

theorem exec_pkBits_illegal (illegal : bitsLegal n d = false) :
    exec (.pkBits n d) s = .next (failedWith s .illegalCommand) := by
  simp only [exec, execPkBits, pkBitsBody, illegal, if_true]
  rfl

variable (legal : bitsLegal n d = true)
include legal

theorem exec_pkBits_closed (closed : s.pk.closed = true) :
    exec (.pkBits n d) s = .next (failedWith s .badState) := by
  simp only [exec, execPkBits, pkBitsBody, legal, closed, Bool.true_eq_false, if_false, if_true]
  rfl

variable (opened : s.pk.closed = false)
include opened

theorem exec_pkBits_full (full : s.cfg.pbufSize < s.pk.nbytes + pkFullBytes s.pk n) :
    exec (.pkBits n d) s = .next (failedWith s .capacity) := by
  simp only [exec, execPkBits, pkBitsBody, legal, opened, full, Bool.true_eq_false, Bool.false_eq_true, if_false,
    if_true]
  rfl

theorem exec_pkBits_fits (fits : s.pk.nbytes + pkFullBytes s.pk n ≤ s.cfg.pbufSize) :
    exec (.pkBits n d) s = .next (complete .noError (pushBits n d s)) := by
  simp only [exec, execPkBits, pkBitsBody, legal, opened, Nat.not_lt.2 fits, Bool.true_eq_false, Bool.false_eq_true,
    if_false, finish_ok]

end

/-- A packer command that fails records its error and changes STATUS alone (60_exceptions.md R253). -/
def FailedFrom (s t : State) : Prop := t.status.err ≠ .noError ∧ t = failedWith s t.status.err

theorem FailedFrom.of_exec {i : Instr} {s t : State} {e : ErrorCode} (h : exec i s = .next t)
    (failed : exec i s = .next (failedWith s e)) (error : e ≠ .noError) : FailedFrom s t := by
  rw [failed] at h
  cases h
  exact ⟨error, rfl⟩

/-- What a PK_BITS can do: fail, or push its chunk, which fits. -/
theorem exec_pkBits_cases {s t : State} {n : BitVec 5} {d : BitVec 16} (h : exec (.pkBits n d) s = .next t) :
    FailedFrom s t
    ∨ s.pk.nbytes + pkFullBytes s.pk n ≤ s.cfg.pbufSize ∧ t = complete .noError (pushBits n d s) := by
  cases legal : bitsLegal n d with
  | false => exact .inl (.of_exec h (exec_pkBits_illegal legal) (by decide))
  | true =>
    cases closed : s.pk.closed with
    | true => exact .inl (.of_exec h (exec_pkBits_closed legal closed) (by decide))
    | false =>
      rcases Nat.lt_or_ge s.cfg.pbufSize (s.pk.nbytes + pkFullBytes s.pk n) with full | fits
      · exact .inl (.of_exec h (exec_pkBits_full legal closed full) (by decide))
      · rw [exec_pkBits_fits legal closed fits] at h
        cases h
        exact .inr ⟨fits, rfl⟩

/-- The bits that a PK_BITS splits into bytes: the waiting ones, then the chunk (43_bit_packer.md R222). -/
def pushedBits (pk : Packer) (n : BitVec 5) (d : BitVec 16) : List Bool := waitingBits pk ++ chunkBits n d

@[simp] theorem pushedBits_length (pk : Packer) (n : BitVec 5) (d : BitVec 16) :
    (pushedBits pk n d).length = pkTotal pk n := by
  simp [pushedBits, pkTotal]

/-- The first `nb` groups of eight bits as bytes. -/
def groupBytes (bits : List Bool) (nb : Nat) : List Byte :=
  (List.range nb).map (fun j => bitsByte ((bits.drop (8 * j)).take 8))

@[simp] theorem groupBytes_length (bits : List Bool) (nb : Nat) : (groupBytes bits nb).length = nb := by
  simp [groupBytes]

theorem pkBytes_eq (pk : Packer) (n : BitVec 5) (d : BitVec 16) :
    pkBytes pk n d = groupBytes (pushedBits pk n d) (pkFullBytes pk n) := by
  refine List.map_congr_left fun j hj => ?_
  have inside : 8 * j + 8 ≤ (pushedBits pk n d).length := by
    rw [pushedBits_length]
    have := List.mem_range.1 hj
    unfold pkFullBytes at this
    omega
  simpa [pushedBits, pkValue_eq, pkTotal] using pkByte_eq _ j inside

theorem pushBits_acc (s : State) (n : BitVec 5) (d : BitVec 16) :
    (pushBits n d s).pk.acc = bitsByte ((pushedBits s.pk n d).drop (8 * pkFullBytes s.pk n)) := by
  have rest := pkRest_eq (pushedBits s.pk n d) (pkFullBytes s.pk n) (by
    rw [pushedBits_length, pkFullBytes]
    omega)
  simpa [pushBits, pushedBits, pkValue_eq, pkTotal] using rest

section
variable {s : State} {n : BitVec 5} {d : BitVec 16}

/-- PK_BITS stores its full bytes from PBUF[PK_NBYTES] on. -/
theorem read_pushBits_stored (fits : s.pk.nbytes + pkFullBytes s.pk n ≤ s.cfg.pbufSize) {j : Nat}
    (hj : j < pkFullBytes s.pk n) :
    Memory.read (pushBits n d s).pbuf (s.pk.nbytes + j)
      = some (bitsByte (((pushedBits s.pk n d).drop (8 * j)).take 8)) := by
  rw [pushBits, pkBytes_eq, read_writeBytes, if_pos (by rw [groupBytes_length]; omega)]
  simp [groupBytes, hj]

theorem read_pushBits_other {a : Nat} (outside : a < s.pk.nbytes ∨ s.pk.nbytes + pkFullBytes s.pk n ≤ a) :
    Memory.read (pushBits n d s).pbuf a = Memory.read s.pbuf a := by
  rw [pushBits, pkBytes_eq, read_writeBytes, if_neg (by rw [groupBytes_length]; omega)]

end

/-- Settles O45: the three checks in order, then `pushBits`, whose bytes and accumulator are the groups of eight of
`pushedBits` and what they leave. -/
theorem pkBitsAppendsTheChunk : Obligations.PkBitsAppendsTheChunk := by
  unfold Obligations.PkBitsAppendsTheChunk
  refine ⟨fun w => decodeWord_pkBits, fun n d s => ⟨fun bad => exec_pkBits_illegal ?_, fun lo hi high => ?_⟩⟩
  · rw [Bool.eq_false_iff, ne_eq, bitsLegal_iff]
    rintro ⟨lo, hi, high⟩
    have noHighBit := Nat.div_eq_of_lt high
    omega
  · have legal : bitsLegal n d = true := bitsLegal_iff.2 ⟨lo, hi, high⟩
    refine ⟨exec_pkBits_closed legal, exec_pkBits_full legal, fun opened fits => ?_⟩
    refine ⟨(pushBits n d s).pbuf, pushedBits_length s.pk n d, ?_, fun j => read_pushBits_stored fits,
      fun a => read_pushBits_other⟩
    have acc := pushBits_acc s n d
    simp only [pushedBits, pkFullBytes, pkTotal] at acc
    rw [exec_pkBits_fits legal opened fits, ← acc]
    rfl

/-! ### PK_FLUSH -/

section
variable {s : State}

theorem exec_pkFlush_closed (closed : s.pk.closed = true) : exec .pkFlush s = .next (failedWith s .badState) := by
  simp only [exec, execPkFlush, pkFlushBody, closed, if_true]
  rfl

variable (opened : s.pk.closed = false)
include opened

theorem exec_pkFlush_full (waiting : s.pk.k ≠ 0#3) (full : s.pk.nbytes = s.cfg.pbufSize) :
    exec .pkFlush s = .next (failedWith s .capacity) := by
  simp only [exec, execPkFlush, pkFlushBody, opened, waiting, full, ne_eq, not_false_eq_true, Bool.false_eq_true,
    and_self, if_false, if_true]
  rfl

theorem exec_pkFlush_fits (fits : s.pk.k ≠ 0#3 → s.pk.nbytes ≠ s.cfg.pbufSize) :
    exec .pkFlush s = .next (complete .noError (flushStream s)) := by
  have room : ¬ (s.pk.k ≠ 0#3 ∧ s.pk.nbytes = s.cfg.pbufSize) := fun ⟨waiting, full⟩ => fits waiting full
  simp only [exec, execPkFlush, pkFlushBody, opened, room, Bool.false_eq_true, if_false, finish_ok]

end

/-- What a PK_FLUSH can do: fail, or close the stream, whose partial byte fits. -/
theorem exec_pkFlush_cases {s t : State} (h : exec .pkFlush s = .next t) :
    FailedFrom s t
    ∨ (s.pk.k ≠ 0#3 → s.pk.nbytes ≠ s.cfg.pbufSize) ∧ t = complete .noError (flushStream s) := by
  cases closed : s.pk.closed with
  | true => exact .inl (.of_exec h (exec_pkFlush_closed closed) (by decide))
  | false =>
    by_cases fits : s.pk.k ≠ 0#3 → s.pk.nbytes ≠ s.cfg.pbufSize
    · rw [exec_pkFlush_fits closed fits] at h
      cases h
      exact .inr ⟨fits, rfl⟩
    · obtain ⟨waiting, full⟩ := Classical.not_imp.1 fits
      exact .inl (.of_exec h (exec_pkFlush_full closed waiting (not_not.1 full)) (by decide))

theorem flushPad_toNat (k : BitVec 3) : (flushPad k).toNat = (8 - k.toNat) % 8 := rfl

/-- RESULT0 of a flush with bits waiting (43_bit_packer.md R223). -/
theorem zext_flushPad {k : BitVec 3} (waiting : k ≠ 0#3) : 0#29 ++ flushPad k = BitVec.ofNat 32 (8 - k.toNat) := by
  have pos : k.toNat ≠ 0 := fun zero => waiting (BitVec.eq_of_toNat_eq zero)
  apply BitVec.eq_of_toNat_eq
  rw [toNat_append_add, flushPad_toNat, BitVec.toNat_ofNat, BitVec.toNat_ofNat]
  omega

/-- Settles O46: the two checks in order, then `flushStream` with and without bits waiting. -/
theorem pkFlushClosesTheStream : Obligations.PkFlushClosesTheStream := by
  unfold Obligations.PkFlushClosesTheStream
  refine ⟨by decide, fun s => ⟨exec_pkFlush_closed, exec_pkFlush_full, fun opened aligned => ?_,
    fun opened waiting room => ⟨(flushStream s).pbuf, ?_, ?_, fun a other => ?_⟩⟩⟩
  · rw [exec_pkFlush_fits opened (fun waiting => absurd aligned waiting)]
    simp only [flushStream, aligned, if_true]
    rfl
  · rw [exec_pkFlush_fits opened (fun _ => room.ne), ← zext_flushPad waiting]
    simp only [flushStream, waiting, if_false]
    rfl
  · simp [flushStream, waiting, read_writeBelow, room]
  · simp [flushStream, waiting, read_writeBelow, other]

/-! ### PK_UNPACK -/

theorem decodeWord_pkUnpack {w : Word} (hit : (w &&& 0xFFFE0000#32) = 0x34000000#32) :
    decodeWord w = .ok (.pkUnpack (w.getLsbD 16) (w.extractLsb' 8 8) (w.extractLsb' 0 8)) :=
  decodeWord_eq_ok_iff.2 ⟨opcodeMap[14], List.getElem_mem _, hit, rfl⟩

section
variable {s : State} {last : Bool} {pad : Byte}

theorem exec_pkUnpack_refused {e : ErrorCode} (bad : unpackError last pad = some e) (byte : Byte) :
    exec (.pkUnpack last pad byte) s = .next (failedWith s e) := by
  simp only [exec, execPkUnpack, pkUnpackBody, bad]
  rfl

theorem exec_pkUnpack_legal (good : unpackError last pad = none) (byte : Byte) :
    exec (.pkUnpack last pad byte) s = .next (complete .noError
      (setResult01 (unpackBits last pad byte) (BitVec.ofNat 32 (unpackCount last pad)) s)) := by
  simp only [exec, execPkUnpack, pkUnpackBody, good, finish_ok]

theorem unpackError_last (h : pad.toNat < 8) : unpackError true pad = none := by
  simp [unpackError, h]

theorem unpackBits_last (h : pad.toNat < 8) (byte : Byte) :
    unpackBits true pad byte = BitVec.ofNat 32 (byte.toNat / 2 ^ pad.toNat) := by
  rw [unpackBits, unpackCount, if_pos rfl, Nat.sub_sub_self h.le, Nat.shiftRight_eq_div_pow]

end

/-- A byte shifted right until `cnt` of its bits are left holds the first `cnt` (43_bit_packer.md R228, R233). -/
theorem lowBits_div_two_pow {cnt : Nat} (h : cnt ≤ 8) (byte : Byte) :
    lowBits cnt (BitVec.ofNat 32 (byte.toNat / 2 ^ (8 - cnt))) = (byteBits byte).take cnt := by
  have first := bitsVal_slice (byteBits byte) 0 cnt (by simpa using h)
  rw [List.drop_zero, byteBits_length, bitsVal_byteBits, Nat.sub_zero] at first
  have width : byte.toNat / 2 ^ (8 - cnt) < 2 ^ 32 := (Nat.div_le_self _ _).trans_lt (by omega)
  apply bitsVal_inj
  · simp [lowBits, h]
  · rw [bitsVal_lowBits, BitVec.toNat_ofNat, Nat.mod_eq_of_lt width, first]

/-- Settles O48: the two errors of `unpackError`, and the kept bits by `lowBits_div_two_pow`. -/
theorem pkUnpackKeepsTheFirstBits : Obligations.PkUnpackKeepsTheFirstBits := by
  unfold Obligations.PkUnpackKeepsTheFirstBits
  refine ⟨fun w => decodeWord_pkUnpack, fun pad byte s => ⟨fun nonzero => exec_pkUnpack_refused ?_ byte,
    fun big => exec_pkUnpack_refused ?_ byte, exec_pkUnpack_legal rfl byte, fun small => ⟨?_, ?_⟩⟩⟩
  · simp [unpackError, nonzero]
  · simp [unpackError, big]
  · rw [exec_pkUnpack_legal (unpackError_last small), unpackBits_last small]
    rfl
  · have kept := lowBits_div_two_pow (Nat.sub_le 8 pad.toNat) byte
    rwa [Nat.sub_sub_self small.le] at kept

/-! ### Room in PBUF -/

/-- Settles O50: PK_BITS makes at most two bytes and PK_FLUSH at most one. -/
theorem roomAfterDrain : Obligations.RoomAfterDrain := by
  unfold Obligations.RoomAfterDrain
  rintro s ⟨-, -, -, -, size, -⟩ opened
  refine ⟨_, exec_pkDrain s, fun n d lo hi high => ?_, ?_⟩
  · have fits : 0 + pkFullBytes s.pk n ≤ s.cfg.pbufSize := by
      have := s.pk.k.isLt
      unfold pkFullBytes pkTotal
      omega
    exact ⟨_, exec_pkBits_fits (bitsLegal_iff.2 ⟨lo, hi, high⟩) opened fits, rfl, fits⟩
  · refine ⟨_, exec_pkFlush_fits opened fun _ => ?_, rfl, ?_⟩
    · dsimp only
      omega
    · simp only [complete_pk, flushStream, setResult0_pk]
      split <;> omega

/-! ### The stream state -/

/-- What command `i` can do to CLOSED, which is `before`, when it ends in `t`: keep it, set it by a successful PK_FLUSH,
or clear it by PK_CLEAR or SOFT_RESET (43_bit_packer.md R226). -/
inductive ClosedBy (i : Instr) (before : Bool) (t : State) : Prop
  | kept (same : t.pk.closed = before)
  | set (flush : i = .pkFlush) (ok : t.status.err = .noError) (closed : t.pk.closed = true)
  | cleared (clear : i = .pkClear ∨ i = .softReset) (opened : t.pk.closed = false)

/-- A check before a command's writes keeps CLOSED when the rest does. -/
theorem finish_check_closed {s : State} {p : Prop} [Decidable p] {e : ErrorCode} {r : Except ErrorCode State}
    (h : (finish s r).pk.closed = s.pk.closed) :
    (finish s (if p then .error e else r)).pk.closed = s.pk.closed := by
  split
  · rfl
  · exact h

theorem tbBuild_closed (s : State) : (finish s (tbBuildBody s)).pk.closed = s.pk.closed := by
  unfold tbBuildBody
  split <;> rfl

theorem execSerEmit_closed {s t : State} (h : execSerEmit s = .next t) : t.pk.closed = s.pk.closed := by
  unfold execSerEmit at h
  split at h
  · cases h; rfl
  · split at h <;> cases h
    rfl

theorem execSerParse_closed {s t : State} (h : execSerParse s = .next t) : t.pk.closed = s.pk.closed := by
  unfold execSerParse at h
  split at h
  · cases h; rfl
  · split at h <;> cases h <;> rfl

theorem exec_pkUnpack_closed {last : Bool} {pad byte : Byte} {s t : State}
    (h : exec (.pkUnpack last pad byte) s = .next t) : t.pk.closed = s.pk.closed := by
  cases error : unpackError last pad with
  | some e => rw [exec_pkUnpack_refused error] at h; cases h; rfl
  | none => rw [exec_pkUnpack_legal error] at h; cases h; rfl

theorem exec_closedBy {i : Instr} {s t : State} (h : exec i s = .next t) : ClosedBy i s.pk.closed t := by
  cases i with
  | nop | tbClear | pkDrain => cases h; exact .kept rfl
  | softReset => cases h; exact .cleared (.inr rfl) rfl
  | pkClear => cases h; exact .cleared (.inl rfl) rfl
  | tbInsert =>
    cases h
    exact .kept (finish_check_closed (finish_check_closed (finish_check_closed (finish_check_closed rfl))))
  | tbMerge | tbPeek | tbReadNode => cases h; exact .kept (finish_check_closed rfl)
  | tbBuild => cases h; exact .kept (tbBuild_closed s)
  | serEmit => exact .kept (execSerEmit_closed h)
  | serParse => exact .kept (execSerParse_closed h)
  | pkBits =>
    rcases exec_pkBits_cases h with ⟨-, failed⟩ | ⟨-, rfl⟩
    · exact .kept (failed ▸ rfl)
    · exact .kept rfl
  | pkFlush =>
    rcases exec_pkFlush_cases h with ⟨-, failed⟩ | ⟨-, rfl⟩
    · exact .kept (failed ▸ rfl)
    · exact .set rfl rfl rfl
  | pkUnpack => exact .kept (exec_pkUnpack_closed h)

theorem unlessBusy_pk {f : State → State} {s : State} (hf : (f s).pk = s.pk) : (unlessBusy f s).pk = s.pk := by
  unfold unlessBusy
  split
  · rfl
  · exact hf

theorem writeReg_pk (r : Reg) (v : Word) (s : State) : (writeReg r v s).pk = s.pk := by
  cases r with
  | cmd | wdata | hdrLen => exact unlessBusy_pk rfl
  | _ => rfl

theorem busWrite_pk (off : Nat) (v : Word) (s : State) : (busWrite off v s).pk = s.pk := by
  unfold busWrite
  split
  · exact writeReg_pk _ v s
  · rfl
  · exact unlessBusy_pk rfl
  · rfl
  · rfl

/-- No host operation touches the packer (20_memory.md R94). -/
theorem hostTurn_pk {s t : State} (h : hostTurn s = .next t) : t.pk = s.pk := by
  unfold hostTurn at h
  split at h
  · cases h; rfl
  · split at h <;> cases h
    rfl
  · split at h <;> cases h
    exact busWrite_pk _ _ _
  · split at h <;> cases h <;> rfl

/-- The next turn is the engine's, the host's or a reset. -/
theorem nextTurn_cases (s : State) : engineNext s ∨ hostNext s ∨ s.sched.head? = some .reset := by
  unfold engineNext hostNext
  rcases s.sched with _ | ⟨_ | _ | _, rest⟩ <;> cases s.status.busy <;> simp

theorem step_of_resetNext {s : State} (h : s.sched.head? = some .reset) :
    step s = .next (hardReset (turnTaken s)) := by
  obtain ⟨rest, hs⟩ := List.head?_eq_some_iff.1 h
  simp [step, nextTurn, takeTurn, turnTaken, hs]

/-- A step that changes CLOSED is a reset, or the engine's step of a command that may change it. -/
theorem step_closedBy {s t : State} (h : step s = .next t) (changed : t.pk.closed ≠ s.pk.closed) :
    s.sched.head? = some .reset ∧ t.pk.closed = false
    ∨ engineNext s ∧ s.status.busy = true ∧ ∃ i, decodeWord s.lcmd = .ok i ∧ ClosedBy i s.pk.closed t := by
  rcases nextTurn_cases s with engine | host | reset
  · right
    cases busy : s.status.busy with
    | false => rw [step_of_engineNext_idle engine busy] at h; cases h; exact absurd rfl changed
    | true =>
      cases decoded : decodeWord s.lcmd with
      | error e => rw [step_of_decodeWord_error decoded engine busy] at h; cases h; exact absurd rfl changed
      | ok i =>
        rw [step_of_decodeWord_ok decoded engine busy] at h
        exact ⟨engine, rfl, i, rfl, exec_closedBy (s := turnTaken s) h⟩
  · rw [step_of_hostNext host] at h
    exact absurd (congrArg Packer.closed (hostTurn_pk h)) changed
  · rw [step_of_resetNext reset] at h
    cases h
    exact .inl ⟨reset, rfl⟩

/-- Settles O49: `step_closedBy` for the steps, and the commands' own equations for a closed stream. -/
theorem streamStateChanges : Obligations.StreamStateChanges := by
  unfold Obligations.StreamStateChanges
  refine ⟨fun s t h => ⟨fun opened closed => ?_, fun closed opened => ?_⟩, fun s t h ok => ?_, fun s closed =>
    ⟨fun n d lo hi high => exec_pkBits_closed (bitsLegal_iff.2 ⟨lo, hi, high⟩) closed, exec_pkFlush_closed closed,
      rfl, ?_⟩⟩
  · rcases step_closedBy h (by simp [opened, closed]) with ⟨-, opened'⟩ | ⟨engine, busy, i, decoded, change⟩
    · simp [closed] at opened'
    · cases change with
      | kept same => simp [opened, closed] at same
      | set flush ok _ => exact ⟨engine, busy, flush ▸ decoded, ok⟩
      | cleared _ opened' => simp [closed] at opened'
  · rcases step_closedBy h (by simp [opened, closed]) with ⟨reset, -⟩ | ⟨engine, busy, i, decoded, change⟩
    · exact .inl reset
    · cases change with
      | kept same => simp [opened, closed] at same
      | set _ _ closed' => simp [opened] at closed'
      | cleared clear _ =>
        rcases clear with rfl | rfl
        · exact .inr ⟨engine, busy, .inl decoded⟩
        · exact .inr ⟨engine, busy, .inr decoded⟩
  · rcases exec_pkFlush_cases h with ⟨error, -⟩ | ⟨-, rfl⟩
    · exact absurd ok error
    · rfl
  · rintro i (rfl | ⟨last, pad, byte, rfl⟩)
    · exact ⟨_, exec_pkDrain s, rfl⟩
    · cases error : unpackError last pad with
      | some e => exact ⟨_, exec_pkUnpack_refused error byte, exec_pkUnpack_refused error byte⟩
      | none => exact ⟨_, exec_pkUnpack_legal error byte, exec_pkUnpack_legal error byte⟩

end Sys2Proof.Machine
end

section
/-! PROOFS. Streams: HUF's pack and unpack of a bitstring, and what the packer's runs make of one
(spec/43_bit_packer.md R224, R227, R229, R232). -/

namespace Sys2Proof.Machine

/-! ### HUF's pack and unpack (R227, R229)

A bitstring is whole bytes and fewer than eight bits after them. -/

/-- The last byte of a packed bitstring whose bits after the whole bytes are `rest`: none for no bits. -/
def paddedByte (rest : List Bool) : List Byte := if rest = [] then [] else [bitsByte rest]

theorem packBytes_nil (fuel : Nat) : packBytes fuel [] = [] := by
  cases fuel <;> rfl

/-- Packing takes the whole bytes out again and pads what is left. -/
theorem packBytes_wholeBytes (bytes : List Byte) {rest : List Bool} (short : rest.length < 8) {fuel : Nat}
    (enough : (bytes.flatMap byteBits ++ rest).length ≤ fuel) :
    packBytes fuel (bytes.flatMap byteBits ++ rest) = bytes ++ paddedByte rest := by
  induction bytes generalizing fuel with
  | nil =>
    unfold paddedByte
    split
    next empty => simp [empty, packBytes_nil]
    next filled =>
      cases fuel with
      | zero => exact absurd (List.length_eq_zero_iff.1 (Nat.le_zero.1 enough)) filled
      | succ fuel =>
        simp [packBytes, filled, List.take_of_length_le short.le, List.drop_of_length_le short.le, packBytes_nil]
  | cons b bytes ih =>
    rw [List.flatMap_cons, List.append_assoc, List.length_append, byteBits_length] at enough
    obtain ⟨fuel, rfl⟩ : ∃ f, fuel = f + 1 := ⟨fuel - 1, by omega⟩
    have filled : byteBits b ++ (bytes.flatMap byteBits ++ rest) ≠ [] :=
      List.ne_nil_of_length_pos (by simp)
    rw [List.flatMap_cons, List.append_assoc, packBytes, if_neg filled, List.take_left' (byteBits_length b),
      List.drop_left' (byteBits_length b), bitsByte_byteBits, ih (by omega), List.cons_append]

theorem length_flatMap_byteBits (bytes : List Byte) : (bytes.flatMap byteBits).length = 8 * bytes.length := by
  induction bytes with
  | nil => rfl
  | cons b bytes ih => rw [List.flatMap_cons, List.length_append, ih, byteBits_length, List.length_cons]; ring

section
variable (bytes : List Byte) {rest : List Bool} (short : rest.length < 8)
include short

theorem hufPack_wholeBytes : hufPack (bytes.flatMap byteBits ++ rest) = bytes ++ paddedByte rest :=
  packBytes_wholeBytes bytes short le_rfl

theorem length_mod_eight_wholeBytes : (bytes.flatMap byteBits ++ rest).length % 8 = rest.length := by
  rw [List.length_append, length_flatMap_byteBits]
  omega

end

/-- The first `nb` groups of eight bits, expanded again. -/
theorem flatMap_groupBytes (bits : List Bool) {nb : Nat} (inside : 8 * nb ≤ bits.length) :
    (groupBytes bits nb).flatMap byteBits = bits.take (8 * nb) := by
  induction nb with
  | zero => rfl
  | succ nb ih =>
    have group : ((bits.drop (8 * nb)).take 8).length = 8 := by simp; omega
    have last := byteBits_bitsByte ((bits.drop (8 * nb)).take 8) group.le
    rw [group, Nat.sub_self, List.replicate_zero, List.append_nil] at last
    rw [groupBytes, List.range_succ, List.map_append, List.flatMap_append, ← groupBytes, ih (by omega)]
    simp only [List.map_cons, List.map_nil, List.flatMap_cons, List.flatMap_nil, List.append_nil, last]
    rw [Nat.mul_succ, List.take_add]

/-- Every bitstring is whole bytes and fewer than eight bits. -/
theorem exists_wholeBytes (bits : List Bool) :
    ∃ (bytes : List Byte) (rest : List Bool), rest.length < 8 ∧ bits = bytes.flatMap byteBits ++ rest := by
  refine ⟨groupBytes bits (bits.length / 8), bits.drop (8 * (bits.length / 8)), ?_, ?_⟩
  · rw [List.length_drop]
    omega
  · rw [flatMap_groupBytes bits (by omega), List.take_append_drop]

/-- `ceil(B / 8)` bytes (43_bit_packer.md R224). -/
theorem hufPack_length (bits : List Bool) : (hufPack bits).length = (bits.length + 7) / 8 := by
  obtain ⟨bytes, rest, short, rfl⟩ := exists_wholeBytes bits
  rw [hufPack_wholeBytes bytes short, List.length_append, List.length_append, length_flatMap_byteBits, paddedByte]
  split
  next empty => simp [empty]; omega
  next filled =>
    have pos := List.length_pos_of_ne_nil filled
    rw [List.length_singleton]
    omega

/-- HUF's round trip (43_bit_packer.md R232): the padding count is the number of bits that the last byte adds. -/
theorem hufUnpack_hufPack (bits : List Bool) : hufUnpack (hufPack bits) (hufPad bits) = bits := by
  obtain ⟨bytes, rest, short, rfl⟩ := exists_wholeBytes bits
  rw [hufPad, length_mod_eight_wholeBytes bytes short, hufPack_wholeBytes bytes short, hufUnpack, List.flatMap_append,
    List.length_append, paddedByte]
  split
  next empty => simp [empty, Nat.mul_comm]
  next filled =>
    have pos := List.length_pos_of_ne_nil filled
    have padded := byteBits_bitsByte rest short.le
    rw [List.flatMap_singleton, padded, ← List.append_assoc]
    refine List.take_left' ?_
    rw [List.length_append, length_flatMap_byteBits, List.length_singleton]
    omega

/-! ### Unpacking by PK_UNPACK -/

/-- What a host reads after a PK_UNPACK that is legal: the bits that the command keeps. -/
theorem unpackedBits_of_legal {last : Bool} {pad : Byte} (good : unpackError last pad = none) (byte : Byte)
    (s : State) : ∃ t, unpackedBits last pad byte s = some (t, (byteBits byte).take (unpackCount last pad)) := by
  have most : unpackCount last pad ≤ 8 := Nat.sub_le 8 _
  have count : (BitVec.ofNat 32 (unpackCount last pad)).toNat = unpackCount last pad := Nat.mod_eq_of_lt (by omega)
  have kept := lowBits_div_two_pow most byte
  rw [← Nat.shiftRight_eq_div_pow, ← unpackBits] at kept
  refine ⟨complete .noError (setResult01 (unpackBits last pad byte) (BitVec.ofNat 32 (unpackCount last pad)) s), ?_⟩
  simp [unpackedBits, runsTo, exec_pkUnpack_legal good, count, kept]

theorem hufUnpack_cons (b : Byte) {bytes : List Byte} (filled : bytes ≠ []) {padding : Nat} (h : padding ≤ 8) :
    hufUnpack (b :: bytes) padding = byteBits b ++ hufUnpack bytes padding := by
  have pos := List.length_pos_of_ne_nil filled
  have split : 8 * (b :: bytes).length - padding = (byteBits b).length + (8 * bytes.length - padding) := by
    rw [List.length_cons, byteBits_length]
    omega
  rw [hufUnpack, split, List.flatMap_cons, List.take_append, Nat.add_sub_cancel_left,
    List.take_of_length_le (Nat.le_add_right _ _), hufUnpack]

/-- Settles O52, by induction on the payload: each byte but the last gives its eight bits, the last one loses the
padding. -/
theorem unpackingIsHufUnpack : Obligations.UnpackingIsHufUnpack := by
  unfold Obligations.UnpackingIsHufUnpack
  intro bytes pad s filled small
  induction bytes generalizing s with
  | nil => exact absurd rfl filled
  | cons b bytes ih =>
    cases bytes with
    | nil =>
      obtain ⟨t, last⟩ := unpackedBits_of_legal (unpackError_last (Nat.lt_succ_of_le small)) b s
      simp [runUnpack, last, hufUnpack, unpackCount]
    | cons c rest =>
      obtain ⟨t, whole⟩ := unpackedBits_of_legal (last := false) (pad := 0#8) rfl b s
      rw [hufUnpack_cons b (List.cons_ne_nil c rest) (small.trans (Nat.le_succ 7))]
      simp [runUnpack, whole, ih t, unpackCount, List.take_of_length_le]

/-! ### Packing by PK_BITS, PK_DRAIN and PK_FLUSH -/

theorem runsTo_eq_some {i : Instr} {s t : State} (h : runsTo i s = some t) :
    exec i s = .next t ∧ t.status.err = .noError := by
  unfold runsTo at h
  split at h
  next u next =>
    split at h
    next ok => cases h; exact ⟨next, ok⟩
    next => cases h
  next => cases h
  next => cases h

/-- The packed bytes after `bytes` are stored at PK_NBYTES and counted. -/
theorem filterMap_read_writeBytes {size n : Nat} {bytes : List Byte} (fits : n + bytes.length ≤ size) (m : Memory) :
    (List.range (n + bytes.length)).filterMap (Memory.read (Memory.writeBytes size m n bytes))
      = (List.range n).filterMap (Memory.read m) ++ bytes := by
  have before : (List.range n).filterMap (Memory.read (Memory.writeBytes size m n bytes))
      = (List.range n).filterMap (Memory.read m) := by
    refine List.filterMap_congr fun j hj => ?_
    have below := List.mem_range.1 hj
    rw [read_writeBytes, if_neg (by omega)]
  have stored : (List.range bytes.length).map (fun j => Memory.read (Memory.writeBytes size m n bytes) (n + j))
      = bytes.map some := by
    refine List.ext_getElem (by simp) fun j hj _ => ?_
    have inside : j < bytes.length := by simpa using hj
    rw [List.getElem_map, List.getElem_range, read_writeBytes, if_pos (by omega)]
    simp [inside]
  have after := congrArg (List.filterMap id) stored
  rw [List.filterMap_map, List.filterMap_map] at after
  rw [List.range_add, List.filterMap_append, List.filterMap_map, before]
  exact congrArg _ (after.trans List.filterMap_some)

theorem packedBytes_pushBits {s : State} {n : BitVec 5} {d : BitVec 16}
    (fits : s.pk.nbytes + pkFullBytes s.pk n ≤ s.cfg.pbufSize) :
    packedBytes (pushBits n d s) = packedBytes s ++ groupBytes (pushedBits s.pk n d) (pkFullBytes s.pk n) := by
  have stored := filterMap_read_writeBytes (bytes := groupBytes (pushedBits s.pk n d) (pkFullBytes s.pk n))
    (n := s.pk.nbytes) (size := s.cfg.pbufSize) (by rwa [groupBytes_length]) s.pbuf
  rw [groupBytes_length, ← pkBytes_eq] at stored
  rw [← pkBytes_eq]
  exact stored

theorem waitingBits_length_lt (pk : Packer) : (waitingBits pk).length < 8 := by
  rw [waitingBits_length]
  exact pk.k.isLt

theorem waitingBits_of_acc {pk : Packer} {rest : List Bool} (acc : pk.acc = bitsByte rest)
    (k : pk.k.toNat = rest.length) : waitingBits pk = rest := by
  have short := pk.k.isLt
  rw [waitingBits, acc, byteBits_bitsByte rest (by omega), List.take_left' k.symm]

theorem waitingBits_pushBits (s : State) (n : BitVec 5) (d : BitVec 16) :
    waitingBits (pushBits n d s).pk = (pushedBits s.pk n d).drop (8 * pkFullBytes s.pk n) := by
  refine waitingBits_of_acc (pushBits_acc s n d) ?_
  rw [List.length_drop, pushedBits_length]
  simp only [pushBits, pkFullBytes, BitVec.toNat_ofNat]
  omega

theorem waitingBits_eq_nil_iff {pk : Packer} : waitingBits pk = [] ↔ pk.k = 0#3 := by
  rw [← List.length_eq_zero_iff, waitingBits_length, BitVec.toNat_eq]
  rfl

theorem packedBytes_flushStream {s : State} (acc : s.pk.acc = bitsByte (waitingBits s.pk))
    (fits : s.pk.k ≠ 0#3 → s.pk.nbytes < s.cfg.pbufSize) :
    packedBytes (flushStream s) = packedBytes s ++ paddedByte (waitingBits s.pk) := by
  simp only [paddedByte, waitingBits_eq_nil_iff, ← acc]
  split
  next aligned => simp [packedBytes, flushStream, aligned]
  next waiting =>
    have stored := filterMap_read_writeBytes (bytes := [s.pk.acc]) (n := s.pk.nbytes) (fits waiting) s.pbuf
    simpa [packedBytes, flushStream, waiting, Memory.writeBytes] using stored

/-- The stream so far is `bits`: the bytes the host has collected, those still in PBUF and the waiting bits, which are
all that ACC holds. -/
structure StreamSoFar (bits : List Bool) (got : List Byte) (s : State) : Prop where
  room : s.pk.nbytes ≤ s.cfg.pbufSize
  acc : s.pk.acc = bitsByte (waitingBits s.pk)
  bits_eq : bits = (got ++ packedBytes s).flatMap byteBits ++ waitingBits s.pk

theorem StreamSoFar.of_pkClear {s t : State} (h : exec .pkClear s = .next t) : StreamSoFar [] [] t := by
  cases h
  exact ⟨Nat.zero_le _, rfl, rfl⟩

section
variable {bits : List Bool} {got : List Byte} {s t : State} (soFar : StreamSoFar bits got s)
include soFar

theorem StreamSoFar.push {n : BitVec 5} {d : BitVec 16} (h : runsTo (.pkBits n d) s = some t) :
    StreamSoFar (bits ++ chunkBits n d) got t := by
  obtain ⟨next, ok⟩ := runsTo_eq_some h
  rcases exec_pkBits_cases next with ⟨error, -⟩ | ⟨fits, rfl⟩
  · exact absurd ok error
  · refine ⟨fits, ?_, ?_⟩
    · exact (pushBits_acc s n d).trans (congrArg bitsByte (waitingBits_pushBits s n d).symm)
    · have inside : 8 * pkFullBytes s.pk n ≤ (pushedBits s.pk n d).length := by
        rw [pushedBits_length, pkFullBytes]
        omega
      show _ = (got ++ packedBytes (pushBits n d s)).flatMap byteBits ++ waitingBits (pushBits n d s).pk
      rw [packedBytes_pushBits fits, waitingBits_pushBits, ← List.append_assoc, List.flatMap_append,
        flatMap_groupBytes _ inside, List.append_assoc, List.take_append_drop, pushedBits, ← List.append_assoc,
        ← soFar.bits_eq]

theorem StreamSoFar.drain (h : runsTo .pkDrain s = some t) : StreamSoFar bits (got ++ packedBytes s) t := by
  obtain ⟨next, -⟩ := runsTo_eq_some h
  rw [exec_pkDrain] at next
  cases next
  refine ⟨Nat.zero_le _, soFar.acc, soFar.bits_eq.trans ?_⟩
  simp [packedBytes, waitingBits]

theorem StreamSoFar.waiting_length : s.pk.k.toNat = bits.length % 8 := by
  rw [soFar.bits_eq, length_mod_eight_wholeBytes _ (waitingBits_length_lt _), waitingBits_length]

theorem StreamSoFar.flush (h : runsTo .pkFlush s = some t) :
    got ++ packedBytes t = hufPack bits ∧ t.pk.pad.toNat = hufPad bits := by
  obtain ⟨next, ok⟩ := runsTo_eq_some h
  rcases exec_pkFlush_cases next with ⟨error, -⟩ | ⟨fits, rfl⟩
  · exact absurd ok error
  · constructor
    · have stored := packedBytes_flushStream soFar.acc fun waiting => soFar.room.lt_of_ne (fits waiting)
      show got ++ packedBytes (flushStream s) = _
      rw [stored, soFar.bits_eq, hufPack_wholeBytes _ (waitingBits_length_lt _), List.append_assoc]
    · rw [hufPad, ← soFar.waiting_length]
      rfl

end

/-- A stream's commands keep the split of its bits. -/
theorem StreamSoFar.run {bits : List Bool} {got got' : List Byte} {s t : State} {ops : List StreamOp}
    (soFar : StreamSoFar bits got s) (h : runStream ops s got = some (t, got')) :
    StreamSoFar (bits ++ streamBits ops) got' t := by
  induction ops generalizing bits got s with
  | nil =>
    cases h
    simpa [streamBits] using soFar
  | cons op ops ih =>
    cases op with
    | push n d =>
      rw [runStream] at h
      split at h
      next u push => simpa [streamBits] using ih (soFar.push push) h
      next => cases h
    | drain =>
      rw [runStream] at h
      split at h
      next u drain => exact ih (soFar.drain drain) h
      next => cases h

section
variable {s s0 s1 s2 : State} {ops : List StreamOp} {got : List Byte} (clear : exec .pkClear s = .next s0)
  (run : runStream ops s0 [] = some (s1, got))
include clear run

theorem streamSoFar_of_pkClear_of_run : StreamSoFar (streamBits ops) got s1 :=
  (StreamSoFar.of_pkClear clear).run run

/-- A stream packs as HUF's `pack` (43_bit_packer.md R227). -/
theorem packedStream_eq_hufPack (flush : runsTo .pkFlush s1 = some s2) :
    got ++ packedBytes s2 = hufPack (streamBits ops) ∧ s2.pk.pad.toNat = hufPad (streamBits ops) :=
  (streamSoFar_of_pkClear_of_run clear run).flush flush

end

/-- Settles O51: every command of the stream keeps `StreamSoFar`, and the flush packs what it splits. -/
theorem packedStreamIsHufPack : Obligations.PackedStreamIsHufPack := by
  unfold Obligations.PackedStreamIsHufPack
  refine ⟨fun s s0 s1 s2 ops got clear run flush => ?_, fun i s t packing h capacity => ?_⟩
  · obtain ⟨bytes, pad⟩ := packedStream_eq_hufPack clear run flush
    exact ⟨bytes, (streamSoFar_of_pkClear_of_run clear run).waiting_length, pad, bytes ▸ hufPack_length _⟩
  · rcases packing with rfl | ⟨n, d, rfl⟩
    · rcases exec_pkFlush_cases h with ⟨-, failed⟩ | ⟨-, rfl⟩
      · rwa [capacity] at failed
      · cases capacity
    · rcases exec_pkBits_cases h with ⟨-, failed⟩ | ⟨-, rfl⟩
      · rwa [capacity] at failed
      · cases capacity

/-- Settles O53: the bytes are HUF's pack by O51, PK_UNPACK of them is HUF's unpack by O52, which inverts HUF's pack. -/
theorem unpackInvertsPack : Obligations.UnpackInvertsPack := by
  unfold Obligations.UnpackInvertsPack
  intro s s0 s1 s2 u ops got clear run flush
  obtain ⟨bytes, pad⟩ := packedStream_eq_hufPack clear run flush
  have padding : (0#5 ++ s2.pk.pad).toNat = hufPad (streamBits ops) := by
    rw [toNat_append_add, pad]
    exact Nat.zero_add _
  rw [bytes]
  by_cases filled : hufPack (streamBits ops) = []
  · have length := hufPack_length (streamBits ops)
    rw [filled, List.length_nil] at length
    have empty : streamBits ops = [] := List.eq_nil_of_length_eq_zero (by omega)
    rw [empty]
    rfl
  · have small : (0#5 ++ s2.pk.pad).toNat ≤ 7 := by
      rw [padding, hufPad]
      omega
    rw [unpackingIsHufUnpack _ _ u filled small, padding, hufUnpack_hufPack]

end Sys2Proof.Machine
end

section
/-! PROOFS. Exceptions (spec/60_exceptions.md): how a command can end, what a host write can do, and what follows for
the error codes and the interrupt line. -/

namespace Sys2Proof.Machine

/-! ### How a command ends -/

/-- The codes of an error after which nothing but STATUS differs (60_exceptions.md R253): not 0, not the two that HUFB
never raises (R251), and not CORRUPT_HEADER. -/
def ErrorCode.precise : ErrorCode → Bool
  | .noError | .unknownSymbol | .truncatedStream | .corruptHeader => false
  | .emptyAlphabet | .malformedContainer | .illegalCommand | .duplicateSymbol | .capacity | .badState => true

/-- The state that a failed parse leaves: the error that changes more than STATUS (42_serializer.md R197). -/
def corruptParse (s : State) : State := raiseError .corruptHeader (takeHeaderDraws (setTree .cleared s))

/-- How command `i` can end in `t` when it ran from `s`. -/
inductive Ending (i : Instr) (s t : State) : Prop
  | success (ok : t.status.err = .noError) (ie : t.ie = s.ie)
  | failure (e : ErrorCode) (precise : e.precise = true) (same : t = failedWith s e)
  | corrupt (parse : i = .serParse) (cleared : t = corruptParse s)

section
variable {i : Instr} {s t : State}

/-- A check before a command's writes fails with its error, and else the rest says how the command ends. -/
theorem Ending.check {p : Prop} [Decidable p] {e : ErrorCode} {r : Except ErrorCode State} (precise : e.precise = true)
    (h : Ending i s (finish s r)) : Ending i s (finish s (if p then .error e else r)) := by
  split
  · exact .failure e precise rfl
  · exact h

theorem tbBuild_ending : Ending .tbBuild s (finish s (tbBuildBody s)) := by
  unfold tbBuildBody
  split
  · exact .failure .badState rfl rfl
  · exact .failure .emptyAlphabet rfl rfl
  · exact .success rfl rfl

theorem execSerEmit_ending (h : execSerEmit s = .next t) : Ending .serEmit s t := by
  unfold execSerEmit at h
  split at h
  · cases h; exact .failure .badState rfl rfl
  · split at h <;> cases h
    exact .success rfl rfl

theorem execSerParse_ending (h : execSerParse s = .next t) : Ending .serParse s t := by
  unfold execSerParse at h
  split at h
  · cases h; exact .failure .capacity rfl rfl
  · split at h <;> cases h
    · exact .success rfl rfl
    · exact .corrupt rfl rfl

theorem unpackError_precise {last : Bool} {pad : Byte} {e : ErrorCode} (h : unpackError last pad = some e) :
    e.precise = true := by
  unfold unpackError at h
  split_ifs at h <;> cases h <;> rfl

theorem exec_pkUnpack_ending {last : Bool} {pad byte : Byte} (h : exec (.pkUnpack last pad byte) s = .next t) :
    Ending (.pkUnpack last pad byte) s t := by
  cases error : unpackError last pad with
  | some e => rw [exec_pkUnpack_refused error] at h; cases h; exact .failure e (unpackError_precise error) rfl
  | none => rw [exec_pkUnpack_legal error] at h; cases h; exact .success rfl rfl

/-- Every command succeeds, fails precisely, or is a SER_PARSE that fails. -/
theorem exec_ending (h : exec i s = .next t) : Ending i s t := by
  cases i with
  | nop | softReset | tbClear | pkClear | pkDrain => cases h; exact .success rfl rfl
  | tbInsert => cases h; exact .check rfl (.check rfl (.check rfl (.check rfl (.success rfl rfl))))
  | tbMerge | tbPeek | tbReadNode => cases h; exact .check rfl (.success rfl rfl)
  | tbBuild => cases h; exact tbBuild_ending
  | serEmit => exact execSerEmit_ending h
  | serParse => exact execSerParse_ending h
  | pkBits => cases h; exact .check rfl (.check rfl (.check rfl (.success rfl rfl)))
  | pkFlush => cases h; exact .check rfl (.check rfl (.success rfl rfl))
  | pkUnpack => exact exec_pkUnpack_ending h

/-- No command writes CTRL (10_state.md R36). -/
theorem Ending.ie_eq (h : Ending i s t) : t.ie = s.ie := by
  cases h with
  | success _ ie => exact ie
  | failure _ _ same => rw [same]; rfl
  | corrupt _ cleared => rw [cleared]; rfl

/-- No command raises UNKNOWN_SYMBOL or TRUNCATED_STREAM (60_exceptions.md R251). -/
theorem Ending.err_raised (h : Ending i s t) : t.status.err ≠ .unknownSymbol ∧ t.status.err ≠ .truncatedStream := by
  cases h with
  | success ok _ => simp [ok]
  | failure e precise same =>
    rw [same]
    constructor <;> rintro rfl <;> cases precise
  | corrupt _ cleared => rw [cleared]; exact ⟨nofun, nofun⟩

end

/-- Settles O55: of the three endings, `failure` and `corrupt` are the two cases of the statement. -/
theorem errorsArePrecise : Obligations.ErrorsArePrecise := by
  unfold Obligations.ErrorsArePrecise
  intro i s t h error
  cases exec_ending h with
  | success ok _ => exact absurd ok error
  | failure e precise same =>
    subst same
    refine .inl ⟨rfl, ?_⟩
    rintro ⟨-, rfl⟩
    cases precise
  | corrupt parse cleared =>
    subst cleared
    exact .inr ⟨parse, rfl, rfl⟩

/-! ### Every command completes -/

theorem turnTaken_inv {s : State} (inv : s.Inv) : (turnTaken s).Inv := { inv with }

/-- Under the invariant no command faults: the tree that SER_EMIT traverses ends (log entry 8). -/
theorem exec_next {s : State} (inv : s.Inv) (i : Instr) : ∃ t, exec i s = .next t := by
  cases i with
  | serEmit =>
    by_cases built : s.tb.phase = .built
    · obtain ⟨T, found, -⟩ := inv.builtTree_some built
      exact ⟨_, exec_serEmit_built built found⟩
    · exact ⟨_, exec_serEmit_refused built⟩
  | serParse =>
    show ∃ t, execSerParse s = .next t
    unfold execSerParse
    split
    · exact ⟨_, rfl⟩
    · split <;> exact ⟨_, rfl⟩
  | _ => exact ⟨_, rfl⟩

/-- The engine's step of a latched word has an outcome, with BUSY = 0 and DONE = 1 (40_control.md R142). -/
theorem step_completes {s : State} (inv : s.Inv) (engine : engineNext s) (busy : s.status.busy = true) :
    ∃ t, step s = .next t ∧ t.status.busy = false ∧ t.status.done = true := by
  cases decoded : decodeWord s.lcmd with
  | error e => exact ⟨_, step_of_decodeWord_error decoded engine busy, rfl, rfl⟩
  | ok i =>
    obtain ⟨t, h⟩ := exec_next (turnTaken_inv inv) i
    obtain ⟨e, status⟩ := exec_status h
    exact ⟨t, (step_of_decodeWord_ok decoded engine busy).trans h, by rw [status], by rw [status]⟩

/-- Settles O10: `step_completes`, after which BUSY = 0 and a CMD write is `acceptCommand`. -/
theorem everyCommandCompletes : Obligations.EveryCommandCompletes := by
  unfold Obligations.EveryCommandCompletes
  intro s inv engine busy
  obtain ⟨t, h, idle, done⟩ := step_completes inv engine busy
  exact ⟨t, h, idle, done, fun w => (busWrite_offset .cmd w t).trans (unlessBusy_idle idle _)⟩

/-! ### What a host write can do -/

/-- The write of `v` at `off` makes `t` of `s`, in one of these ways (20_memory.md R84, R87, R88, R98). -/
inductive WriteEffect (off : Nat) (v : Word) (s t : State) : Prop
  | ignored (same : t = s)
  | dropped (same : t = dropWrite s)
  | ctrl (place : off = 0x00C) (same : t = { s with ie := v.getLsbD 0 })
  | status (place : off = 0x010) (same : t = acknowledge v s)
  | cmd (place : off = 0x014) (idle : s.status.busy = false) (same : t = acceptCommand v s)
  | wdata (w : Word) (same : t = { s with wdata := w })
  | hdrLen (same : t = { s with hdrLen := v })
  | hbuf (m : Memory) (same : t = { s with hbuf := m })

section
variable {s : State} {off : Nat} {v : Word}

theorem WriteEffect.of_unlessBusy {f : State → State} (h : s.status.busy = false → WriteEffect off v s (f s)) :
    WriteEffect off v s (unlessBusy f s) := by
  cases busy : s.status.busy with
  | false => rw [unlessBusy_idle busy]; exact h busy
  | true => exact .dropped (unlessBusy_busy busy f)

theorem writeReg_effect (r : Reg) (v : Word) (s : State) : WriteEffect r.offset v s (writeReg r v s) := by
  cases r with
  | ctrl => exact .ctrl rfl rfl
  | status => exact .status rfl rfl
  | cmd => exact .of_unlessBusy fun idle => .cmd rfl idle rfl
  | wdata => rw [writeReg]; exact .of_unlessBusy fun _ => .wdata _ rfl
  | hdrLen => rw [writeReg]; exact .of_unlessBusy fun _ => .hdrLen rfl
  | _ => exact .ignored rfl

theorem busWrite_effect (off : Nat) (v : Word) (s : State) : WriteEffect off v s (busWrite off v s) := by
  unfold busWrite
  split
  next r named => exact offset_of_target named ▸ writeReg_effect r v s
  next => exact .ignored rfl
  next => exact .of_unlessBusy fun _ => .hbuf _ rfl
  next => exact .ignored rfl
  next => exact .ignored rfl

/-- No host write changes ERRCODE (20_memory.md R94). -/
theorem busWrite_err (off : Nat) (v : Word) (s : State) : (busWrite off v s).status.err = s.status.err := by
  cases busWrite_effect off v s with
  | ignored same | dropped same | ctrl _ same | status _ same | cmd _ _ same | wdata _ same | hdrLen same
  | hbuf _ same => simp [same]

/-- A host operation leaves ERRCODE as it is. -/
theorem hostTurn_err {t : State} (h : hostTurn s = .next t) : t.status.err = s.status.err := by
  unfold hostTurn at h
  split at h
  · cases h; rfl
  · split at h <;> cases h
    rfl
  · split at h <;> cases h
    exact busWrite_err _ _ _
  · split at h <;> cases h <;> rfl

end

/-! ### ERRCODE -/

/-- The engine's step of a latched word completes with ILLEGAL_COMMAND or runs the decoded command
(40_control.md R141). -/
theorem step_of_engineNext_busy {s t : State} (engine : engineNext s) (busy : s.status.busy = true)
    (h : step s = .next t) :
    t = failedWith (turnTaken s) .illegalCommand ∨ ∃ i, exec i (turnTaken s) = .next t := by
  cases decoded : decodeWord s.lcmd with
  | error e =>
    rw [step_of_decodeWord_error decoded engine busy] at h
    cases h
    exact .inl rfl
  | ok i => exact .inr ⟨i, (step_of_decodeWord_ok decoded engine busy).symm.trans h⟩

/-- A step leaves ERRCODE as it is or leaves a code that HUFB raises (60_exceptions.md R251). -/
theorem step_err {s t : State} (h : step s = .next t) :
    t.status.err = s.status.err ∨ t.status.err ≠ .unknownSymbol ∧ t.status.err ≠ .truncatedStream := by
  rcases nextTurn_cases s with engine | host | reset
  · cases busy : s.status.busy with
    | false => rw [step_of_engineNext_idle engine busy] at h; cases h; exact .inl rfl
    | true =>
      rcases step_of_engineNext_busy engine busy h with rfl | ⟨i, run⟩
      · exact .inr ⟨nofun, nofun⟩
      · exact .inr (exec_ending run).err_raised
  · rw [step_of_hostNext host] at h
    exact .inl (hostTurn_err (s := turnTaken s) h)
  · rw [step_of_resetNext reset] at h
    cases h
    exact .inr ⟨nofun, nofun⟩

/-- STATUS[7:4] is ERRCODE (10_state.md R37). -/
theorem statusWord_errcode (st : Status) : (statusWord st).extractLsb' 4 4 = st.err.code := by
  have word := statusWord_toNat st
  have ovr := st.ovr.toNat_le
  have err := (decide (st.err ≠ .noError)).toNat_le
  have done := st.done.toNat_le
  have busy := st.busy.toNat_le
  have code := st.err.code.isLt
  apply BitVec.eq_of_toNat_eq
  rw [BitVec.extractLsb'_toNat, Nat.shiftRight_eq_div_pow]
  omega

/-- Settles O56: `step_err` for the steps, and `statusWord_errcode` for the codes that STATUS shows. -/
theorem errcodeNeverUnknownOrTruncated : Obligations.ErrcodeNeverUnknownOrTruncated := by
  unfold Obligations.ErrcodeNeverUnknownOrTruncated
  refine ⟨fun s t h unknown truncated => ?_, fun c => ⟨nofun, nofun⟩, fun st unknown truncated => ?_⟩
  · rcases step_err h with kept | raised
    · exact kept ▸ ⟨unknown, truncated⟩
    · exact raised
  · rw [statusWord_errcode]
    cases err : st.err with
    | unknownSymbol => exact absurd err unknown
    | truncatedStream => exact absurd err truncated
    | _ => decide

/-! ### The interrupt line -/

theorem irq_iff (s : State) : irq s = true ↔ s.ie = true ∧ s.status.done = true := by
  simp [irq]

/-- IRQ after any command is IE, since DONE is set (60_exceptions.md R257). -/
theorem irq_of_exec {i : Instr} {s t : State} (h : exec i s = .next t) : irq t = s.ie := by
  obtain ⟨e, status⟩ := exec_status h
  simp [irq, status, (exec_ending h).ie_eq]

theorem irq_of_step {s t : State} (engine : engineNext s) (busy : s.status.busy = true) (h : step s = .next t) :
    irq t = s.ie := by
  rcases step_of_engineNext_busy engine busy h with rfl | ⟨i, run⟩
  · exact Bool.and_true _
  · exact irq_of_exec (s := turnTaken s) run

/-- The host writes that can drop the line: DONE acknowledged, a command accepted, IE cleared. -/
theorem irq_dropped {s : State} {off : Nat} {v : Word} (high : irq s = true) (low : irq (busWrite off v s) = false) :
    (off = 0x010 ∧ v.getLsbD 1 = true) ∨ (off = 0x014 ∧ s.status.busy = false)
      ∨ (off = 0x00C ∧ v.getLsbD 0 = false) := by
  obtain ⟨ie, done⟩ := (irq_iff s).1 high
  cases busWrite_effect off v s with
  | status place same => exact .inl ⟨place, by simpa [same, irq, ie, done] using low⟩
  | cmd place idle same => exact .inr (.inl ⟨place, idle⟩)
  | ctrl place same => exact .inr (.inr ⟨place, by simpa [same, irq, done] using low⟩)
  | ignored same | dropped same | wdata _ same | hdrLen same | hbuf _ same =>
    rw [same] at low
    exact absurd (high.symm.trans low) nofun

/-- Settles O24: the writes of STATUS, CMD and CTRL by `busWrite_offset`, and `irq_dropped` for all others. -/
theorem interruptLine : Obligations.InterruptLine := by
  unfold Obligations.InterruptLine
  intro s
  have status (v : Word) : busWrite 0x010 v s = acknowledge v s := busWrite_offset .status v s
  have cmd (w : Word) : busWrite 0x014 w s = unlessBusy (acceptCommand w) s := busWrite_offset .cmd w s
  have ctrl (v : Word) : busWrite 0x00C v s = { s with ie := v.getLsbD 0 } := busWrite_offset .ctrl v s
  refine ⟨irq_iff s, fun i t => irq_of_exec, fun t => irq_of_step, fun v clear => ?_, fun w idle => ?_, fun v => ?_,
    fun off v => irq_dropped, fun t reset h => ?_⟩
  · simp [status, irq, clear]
  · simp [cmd, unlessBusy_idle idle, irq]
  · rw [ctrl, irq]
  · rw [step_of_resetNext reset] at h
    cases h
    rfl

end Sys2Proof.Machine
end

section
/-! PROOFS. Encoding and decoding are inverse (spec/30_encoding.md R110 to R117). -/

namespace Sys2Proof

/-! ### A command's word decodes to the command -/

theorem mnemonics_nodup : (opcodeMap.map (fun r => r.mnemonic)).Nodup := by
  decide

/-- Row `k` of the opcode map (30_encoding.md R118). -/
def opcodeRow (k : Fin 15) : OpcodeRow := opcodeMap[k.val]'k.isLt

/-- The word of a command matches the row of its mnemonic, so it decodes to what that row reads from it. -/
theorem decodeWord_encode {i : Instr} (matched : Laws.EncodeMatchesTable.Statement i) (k : Fin 15)
    (name : (opcodeRow k).mnemonic = i.mnemonic) (fields : (opcodeRow k).command (encode i) = i) :
    decodeWord (encode i) = .ok i := by
  obtain ⟨r, hr, named, hits⟩ := matched
  have row : opcodeRow k ∈ opcodeMap := List.getElem_mem _
  obtain rfl : r = opcodeRow k := List.inj_on_of_nodup_map mnemonics_nodup hr row (named.trans name.symm)
  exact decodeWord_eq_ok_iff.2 ⟨_, hr, OpcodeRow.hits_iff.1 hits, fields⟩

theorem extractLsb'_append_middle {a b c : Nat} (x : BitVec a) (y : BitVec b) (z : BitVec c) :
    (x ++ y ++ z).extractLsb' c b = y := by
  rw [BitVec.extractLsb'_append_eq_of_le le_rfl, Nat.sub_self, BitVec.extractLsb'_append_eq_right]

theorem fieldSym_encode (sym : BitVec 24) : fieldSym (encode (.tbInsert sym)) = sym :=
  BitVec.extractLsb'_append_eq_right

theorem fieldHandle_encode (handle : BitVec 16) : fieldHandle (encode (.tbReadNode handle)) = handle :=
  BitVec.extractLsb'_append_eq_right

theorem bitsFields_encode (n : BitVec 5) (data : BitVec 16) :
    fieldN (encode (.pkBits n data)) = n ∧ fieldData (encode (.pkBits n data)) = data :=
  ⟨extractLsb'_append_middle (0x31#8 ++ 0#3) n data, BitVec.extractLsb'_append_eq_right⟩

theorem unpackFields_encode (last : Bool) (pad byte : Byte) :
    fieldLast (encode (.pkUnpack last pad byte)) = last ∧ fieldPad (encode (.pkUnpack last pad byte)) = pad
    ∧ fieldByte (encode (.pkUnpack last pad byte)) = byte := by
  refine ⟨?_, extractLsb'_append_middle (0x34#8 ++ 0#7 ++ BitVec.ofBool last) pad byte,
    BitVec.extractLsb'_append_eq_right⟩
  simp only [fieldLast, encode, BitVec.getLsbD_append, BitVec.getLsbD_ofBool]
  simp

/-! ### A word that decodes is its command's word -/

section
variable {w : Word} {i : Instr} (decoded : decodeWord w = .ok i)
include decoded

/-- A word that decodes matches the row of its command's mnemonic, which reads the command from it. -/
theorem row_of_decodeWord (k : Fin 15) (name : (opcodeRow k).mnemonic = i.mnemonic) :
    (w &&& (opcodeRow k).mask) = (opcodeRow k).pattern ∧ (opcodeRow k).command w = i := by
  obtain ⟨r, hr, hit, command⟩ := decodeWord_eq_ok_iff.1 decoded
  have row : opcodeRow k ∈ opcodeMap := List.getElem_mem _
  have named : r.mnemonic = i.mnemonic := by rw [← command_mnemonic w r hr, command]
  obtain rfl : r = opcodeRow k := List.inj_on_of_nodup_map mnemonics_nodup hr row (named.trans name.symm)
  exact ⟨hit, command⟩

/-- The word of a command with no operands is its row's pattern (30_encoding.md R112). -/
theorem eq_pattern_of_decodeWord (k : Fin 15) (name : (opcodeRow k).mnemonic = i.mnemonic)
    (fixed : (opcodeRow k).mask = BitVec.allOnes 32) : (opcodeRow k).pattern = w := by
  obtain ⟨hit, -⟩ := row_of_decodeWord decoded k name
  rwa [fixed, BitVec.and_allOnes, eq_comm] at hit

end

/-- The bits that a mask covers are the pattern's in a word that matches. -/
theorem extractLsb'_of_hit {w mask pattern : Word} (hit : (w &&& mask) = pattern) (start len : Nat)
    (covered : mask.extractLsb' start len = BitVec.allOnes len) :
    w.extractLsb' start len = pattern.extractLsb' start len := by
  rw [← hit, BitVec.extractLsb'_and, covered, BitVec.and_allOnes]

section
variable (w : Word)

/-- A word is its OPC and reserved bits above its operands (30_encoding.md R111). -/
theorem opc_append_operands : w.extractLsb' 24 8 ++ w.extractLsb' 0 24 = w :=
  (BitVec.extractLsb'_append_extractLsb'_eq_extractLsb' rfl).trans BitVec.extractLsb'_eq_self

theorem halves_append : w.extractLsb' 16 16 ++ w.extractLsb' 0 16 = w :=
  (BitVec.extractLsb'_append_extractLsb'_eq_extractLsb' rfl).trans BitVec.extractLsb'_eq_self

/-- The upper half of a PK_BITS word ends in N (30_encoding.md R115). -/
theorem upperHalf_append_fieldN : w.extractLsb' 21 11 ++ fieldN w = w.extractLsb' 16 16 :=
  BitVec.extractLsb'_append_extractLsb'_eq_extractLsb' rfl

/-- The upper half of a PK_UNPACK word ends in LAST (30_encoding.md R116). -/
theorem upperHalf_append_fieldLast :
    w.extractLsb' 17 15 ++ BitVec.ofBool (fieldLast w) = w.extractLsb' 16 16 := by
  have bit : BitVec.ofBool (fieldLast w) = w.extractLsb' 16 1 := by
    ext i hi
    obtain rfl : i = 0 := by omega
    simp [fieldLast]
  rw [bit]
  exact BitVec.extractLsb'_append_extractLsb'_eq_extractLsb' rfl

theorem pad_append_byte (x : BitVec 16) : x ++ fieldPad w ++ fieldByte w = x ++ w.extractLsb' 0 16 := by
  have low : fieldPad w ++ fieldByte w = w.extractLsb' 0 16 :=
    BitVec.extractLsb'_append_extractLsb'_eq_extractLsb' rfl
  rw [← low, BitVec.append_assoc]
  rfl

end

/-! A word that matches the row of a command with operands is that command's word, field by field (30_encoding.md R113
to R116). -/

theorem encode_tbInsert_fields {w : Word} (hit : (w &&& 0xFF000000#32) = 0x11000000#32) :
    encode (.tbInsert (fieldSym w)) = w := by
  have opc : w.extractLsb' 24 8 = 0x11#8 := extractLsb'_of_hit hit 24 8 (by decide)
  calc encode (.tbInsert (fieldSym w)) = w.extractLsb' 24 8 ++ w.extractLsb' 0 24 := by rw [opc]; rfl
    _ = w := opc_append_operands w

theorem encode_tbReadNode_fields {w : Word} (hit : (w &&& 0xFFFF0000#32) = 0x15000000#32) :
    encode (.tbReadNode (fieldHandle w)) = w := by
  have opc : w.extractLsb' 16 16 = 0x15#8 ++ 0#8 := extractLsb'_of_hit hit 16 16 (by decide)
  calc encode (.tbReadNode (fieldHandle w)) = w.extractLsb' 16 16 ++ w.extractLsb' 0 16 := by rw [opc]; rfl
    _ = w := halves_append w

theorem encode_pkBits_fields {w : Word} (hit : (w &&& 0xFFE00000#32) = 0x31000000#32) :
    encode (.pkBits (fieldN w) (fieldData w)) = w := by
  have opc : w.extractLsb' 21 11 = 0x31#8 ++ 0#3 := extractLsb'_of_hit hit 21 11 (by decide)
  calc encode (.pkBits (fieldN w) (fieldData w)) = w.extractLsb' 21 11 ++ fieldN w ++ fieldData w := by rw [opc]; rfl
    _ = w.extractLsb' 16 16 ++ w.extractLsb' 0 16 := by rw [upperHalf_append_fieldN]; rfl
    _ = w := halves_append w

theorem encode_pkUnpack_fields {w : Word} (hit : (w &&& 0xFFFE0000#32) = 0x34000000#32) :
    encode (.pkUnpack (fieldLast w) (fieldPad w) (fieldByte w)) = w := by
  have opc : w.extractLsb' 17 15 = 0x34#8 ++ 0#7 := extractLsb'_of_hit hit 17 15 (by decide)
  calc encode (.pkUnpack (fieldLast w) (fieldPad w) (fieldByte w))
      = w.extractLsb' 17 15 ++ BitVec.ofBool (fieldLast w) ++ fieldPad w ++ fieldByte w := by rw [opc]; rfl
    _ = w.extractLsb' 16 16 ++ w.extractLsb' 0 16 := by rw [upperHalf_append_fieldLast, pad_append_byte]
    _ = w := halves_append w

end Sys2Proof

namespace Sys2Proof.Machine
open Laws

/-- Settles O3: the row of each command's mnemonic reads the command's own fields from its word. -/
theorem decodeEncodeRoundTrip : Obligations.DecodeEncodeRoundTrip := by
  unfold Obligations.DecodeEncodeRoundTrip
  intro i
  cases i with
  | nop => exact decodeWord_encode EncodeMatchesTable.nop 0 rfl rfl
  | softReset => exact decodeWord_encode EncodeMatchesTable.softReset 1 rfl rfl
  | tbClear => exact decodeWord_encode EncodeMatchesTable.tbClear 2 rfl rfl
  | tbInsert sym =>
    exact decodeWord_encode (EncodeMatchesTable.tbInsert sym) 3 rfl (congrArg Instr.tbInsert (fieldSym_encode sym))
  | tbMerge => exact decodeWord_encode EncodeMatchesTable.tbMerge 4 rfl rfl
  | tbBuild => exact decodeWord_encode EncodeMatchesTable.tbBuild 5 rfl rfl
  | tbPeek => exact decodeWord_encode EncodeMatchesTable.tbPeek 6 rfl rfl
  | tbReadNode handle =>
    exact decodeWord_encode (EncodeMatchesTable.tbReadNode handle) 7 rfl
      (congrArg Instr.tbReadNode (fieldHandle_encode handle))
  | serEmit => exact decodeWord_encode EncodeMatchesTable.serEmit 8 rfl rfl
  | serParse => exact decodeWord_encode EncodeMatchesTable.serParse 9 rfl rfl
  | pkClear => exact decodeWord_encode EncodeMatchesTable.pkClear 10 rfl rfl
  | pkBits n data =>
    obtain ⟨hn, hdata⟩ := bitsFields_encode n data
    exact decodeWord_encode (EncodeMatchesTable.pkBits n data) 11 rfl (congrArg₂ Instr.pkBits hn hdata)
  | pkFlush => exact decodeWord_encode EncodeMatchesTable.pkFlush 12 rfl rfl
  | pkDrain => exact decodeWord_encode EncodeMatchesTable.pkDrain 13 rfl rfl
  | pkUnpack last pad byte =>
    obtain ⟨hlast, hpad, hbyte⟩ := unpackFields_encode last pad byte
    refine decodeWord_encode (EncodeMatchesTable.pkUnpack last pad byte) 14 rfl ?_
    show Instr.pkUnpack _ _ _ = _
    rw [hlast, hpad, hbyte]

/-- Settles O4: a word without operands is its row's pattern, and one with operands is put together from its fields. -/
theorem encodeInvertsDecode : Obligations.EncodeInvertsDecode := by
  unfold Obligations.EncodeInvertsDecode
  intro w i decoded
  cases i with
  | nop => exact eq_pattern_of_decodeWord decoded 0 rfl rfl
  | softReset => exact eq_pattern_of_decodeWord decoded 1 rfl rfl
  | tbClear => exact eq_pattern_of_decodeWord decoded 2 rfl rfl
  | tbInsert sym =>
    obtain ⟨hit, command⟩ := row_of_decodeWord decoded 3 rfl
    exact command ▸ encode_tbInsert_fields hit
  | tbMerge => exact eq_pattern_of_decodeWord decoded 4 rfl rfl
  | tbBuild => exact eq_pattern_of_decodeWord decoded 5 rfl rfl
  | tbPeek => exact eq_pattern_of_decodeWord decoded 6 rfl rfl
  | tbReadNode handle =>
    obtain ⟨hit, command⟩ := row_of_decodeWord decoded 7 rfl
    exact command ▸ encode_tbReadNode_fields hit
  | serEmit => exact eq_pattern_of_decodeWord decoded 8 rfl rfl
  | serParse => exact eq_pattern_of_decodeWord decoded 9 rfl rfl
  | pkClear => exact eq_pattern_of_decodeWord decoded 10 rfl rfl
  | pkBits n data =>
    obtain ⟨hit, command⟩ := row_of_decodeWord decoded 11 rfl
    exact command ▸ encode_pkBits_fields hit
  | pkFlush => exact eq_pattern_of_decodeWord decoded 12 rfl rfl
  | pkDrain => exact eq_pattern_of_decodeWord decoded 13 rfl rfl
  | pkUnpack last pad byte =>
    obtain ⟨hit, command⟩ := row_of_decodeWord decoded 14 rfl
    exact command ▸ encode_pkUnpack_fields hit

/-- Settles O1: each word's row reads its operands. -/
theorem decodeReadsSpecWords : Obligations.DecodeReadsSpecWords := by
  unfold Obligations.DecodeReadsSpecWords
  decide

end Sys2Proof.Machine
end

section
/-! PROOFS. What each command can do, said once: why it fails (spec/60_exceptions.md R250) and what it writes when it
succeeds (41_tree_builder.md R158 to R167; 42_serializer.md R193 to R197; 43_bit_packer.md R220 to R230). -/

namespace Sys2Proof.Machine

/-- Why command `i` fails with code `e` from `s` and writes STATUS alone: every row of the table of 60_exceptions.md
R250 but CORRUPT_HEADER's. -/
inductive ErrorCause (s : State) : Instr → ErrorCode → Prop
  | symbolOutOfRange {sym : BitVec 24} (range : 2 ^ s.cfg.symW ≤ sym.toNat) :
      ErrorCause s (.tbInsert sym) .illegalCommand
  | insertBuilt {sym : BitVec 24} (built : s.tb.phase = .built) : ErrorCause s (.tbInsert sym) .badState
  | insertSeen {sym : BitVec 24} (seen : sym.toNat ∈ s.tb.seen) : ErrorCause s (.tbInsert sym) .duplicateSymbol
  | insertFull {sym : BitVec 24} (full : s.tb.leafCount = s.cfg.maxLeaves) : ErrorCause s (.tbInsert sym) .capacity
  | mergeUnready (unready : s.tb.phase ≠ .loading ∨ s.tb.heap.length < 2) : ErrorCause s .tbMerge .badState
  | buildBuilt (built : s.tb.phase = .built) : ErrorCause s .tbBuild .badState
  | buildEmpty (empty : s.tb.phase = .empty) : ErrorCause s .tbBuild .emptyAlphabet
  | peekNotLoading (other : s.tb.phase ≠ .loading) : ErrorCause s .tbPeek .badState
  | readUnallocated {handle : BitVec 16} (above : s.tb.nodes.length ≤ handle.toNat) :
      ErrorCause s (.tbReadNode handle) .badState
  | emitUnbuilt (unbuilt : s.tb.phase ≠ .built) : ErrorCause s .serEmit .badState
  | parseTooLong (long : s.cfg.hbufSize < s.hdrLen.toNat) : ErrorCause s .serParse .capacity
  | bitsIllegal {n : BitVec 5} {d : BitVec 16} (illegal : bitsLegal n d = false) :
      ErrorCause s (.pkBits n d) .illegalCommand
  | bitsClosed {n : BitVec 5} {d : BitVec 16} (closed : s.pk.closed = true) : ErrorCause s (.pkBits n d) .badState
  | bitsFull {n : BitVec 5} {d : BitVec 16} (full : s.cfg.pbufSize < s.pk.nbytes + pkFullBytes s.pk n) :
      ErrorCause s (.pkBits n d) .capacity
  | flushClosed (closed : s.pk.closed = true) : ErrorCause s .pkFlush .badState
  | flushFull (full : s.pk.k ≠ 0#3 ∧ s.pk.nbytes = s.cfg.pbufSize) : ErrorCause s .pkFlush .capacity
  | unpackPad {pad byte : Byte} (pad_ne : pad ≠ 0#8) : ErrorCause s (.pkUnpack false pad byte) .illegalCommand
  | unpackPadding {pad byte : Byte} (big : 8 ≤ pad.toNat) : ErrorCause s (.pkUnpack true pad byte) .malformedContainer

/-- How command `i` can end when it ran from `s`: it fails and writes STATUS alone, or it is a SER_PARSE that clears the
builder, or its checks pass and it makes its writes. -/
inductive Effect (s : State) : Instr → State → Prop
  | failed {i : Instr} {e : ErrorCode} (cause : ErrorCause s i e) : Effect s i (failedWith s e)
  | corrupt (fits : s.hdrLen.toNat ≤ s.cfg.hbufSize)
      (malformed : parseHeader s.cfg (implicitHeader s s.hdrLen.toNat) = none) : Effect s .serParse (corruptParse s)
  | nop : Effect s .nop (complete .noError s)
  | softReset : Effect s .softReset (complete .noError { resetRegisters s with ie := s.ie })
  | tbClear : Effect s .tbClear (complete .noError (setTree .cleared s))
  | tbInsert {sym : BitVec 24} (range : sym.toNat < 2 ^ s.cfg.symW) (unbuilt : s.tb.phase ≠ .built)
      (fresh : sym.toNat ∉ s.tb.seen) (room : s.tb.leafCount ≠ s.cfg.maxLeaves) :
      Effect s (.tbInsert sym) (complete .noError
        (setResults (nodeResult (insertLeaf sym.toNat (implicitWeight s) s.tb).nodes s.tb.nodes.length)
          (setTree (insertLeaf sym.toNat (implicitWeight s) s.tb) s)))
  | tbMerge (loading : s.tb.phase = .loading) (two : 2 ≤ s.tb.heap.length) :
      Effect s .tbMerge (complete .noError
        (setResults (nodeResult (mergeStep s.cfg s.tb).nodes s.tb.nodes.length) (setTree (mergeStep s.cfg s.tb) s)))
  | tbBuild (loading : s.tb.phase = .loading) :
      Effect s .tbBuild (complete .noError
        (setResults (nodeResult (buildTree s.cfg s.tb).nodes ((buildTree s.cfg s.tb).root.getD 0))
          (setTree (buildTree s.cfg s.tb) s)))
  | tbPeek (loading : s.tb.phase = .loading) :
      Effect s .tbPeek (complete .noError (setResults (nodeResult s.tb.nodes (slotAt s.tb.heap 0)) s))
  | tbReadNode {handle : BitVec 16} (allocated : handle.toNat < s.tb.nodes.length) :
      Effect s (.tbReadNode handle) (complete .noError (setResults (nodeResult s.tb.nodes handle.toNat) s))
  | serEmit (built : s.tb.phase = .built) {bytes : List Byte} (header : rootHeader s = some bytes) :
      Effect s .serEmit (emitted bytes s)
  | serParse {tb : TreeBuilder} (fits : s.hdrLen.toNat ≤ s.cfg.hbufSize)
      (parsed : parseHeader s.cfg (implicitHeader s s.hdrLen.toNat) = some tb) : Effect s .serParse (parsedTo tb s)
  | pkClear : Effect s .pkClear (complete .noError (setPacker .cleared s))
  | pkBits {n : BitVec 5} {d : BitVec 16} (legal : bitsLegal n d = true) (opened : s.pk.closed = false)
      (fits : s.pk.nbytes + pkFullBytes s.pk n ≤ s.cfg.pbufSize) :
      Effect s (.pkBits n d) (complete .noError (pushBits n d s))
  | pkFlush (opened : s.pk.closed = false) (fits : s.pk.k ≠ 0#3 → s.pk.nbytes ≠ s.cfg.pbufSize) :
      Effect s .pkFlush (complete .noError (flushStream s))
  | pkDrain : Effect s .pkDrain (complete .noError (setPacker { s.pk with nbytes := 0 } s))
  | pkUnpack {last : Bool} {pad byte : Byte} (good : unpackError last pad = none) :
      Effect s (.pkUnpack last pad byte) (complete .noError
        (setResult01 (unpackBits last pad byte) (BitVec.ofNat 32 (unpackCount last pad)) s))

section
variable {i : Instr} {s t : State}

/-- A check before a command's writes fails for its cause, and the rest runs when the check passes. -/
theorem Effect.check {p : Prop} [Decidable p] {e : ErrorCode} {r : Except ErrorCode State}
    (cause : p → ErrorCause s i e) (rest : ¬ p → Effect s i (finish s r)) :
    Effect s i (finish s (if p then .error e else r)) := by
  split
  next bad => exact .failed (cause bad)
  next good => exact rest good

theorem tbBuild_effect : Effect s .tbBuild (finish s (tbBuildBody s)) := by
  unfold tbBuildBody
  split
  next built => exact .failed (.buildBuilt built)
  next empty => exact .failed (.buildEmpty empty)
  next loading => exact .tbBuild loading

theorem execSerEmit_effect (h : execSerEmit s = .next t) : Effect s .serEmit t := by
  unfold execSerEmit at h
  split at h
  next unbuilt => cases h; exact .failed (.emitUnbuilt unbuilt)
  next built =>
    split at h <;> cases h
    next header => exact .serEmit (not_not.1 built) header

theorem execSerParse_effect (h : execSerParse s = .next t) : Effect s .serParse t := by
  unfold execSerParse at h
  split at h
  next long => cases h; exact .failed (.parseTooLong long)
  next fits =>
    split at h <;> cases h
    next parsed => exact .serParse (Nat.not_lt.1 fits) parsed
    next malformed => exact .corrupt (Nat.not_lt.1 fits) malformed

/-- PAD has to be 0 in a byte that is not the last, and below 8 in the last (30_encoding.md R122). -/
theorem ErrorCause.of_unpackError {last : Bool} {pad : Byte} {e : ErrorCode} (byte : Byte)
    (h : unpackError last pad = some e) : ErrorCause s (.pkUnpack last pad byte) e := by
  cases last with
  | false =>
    obtain ⟨pad_ne, rfl⟩ : pad ≠ 0#8 ∧ .illegalCommand = e := by simpa [unpackError] using h
    exact .unpackPad pad_ne
  | true =>
    obtain ⟨big, rfl⟩ : 8 ≤ pad.toNat ∧ .malformedContainer = e := by simpa [unpackError] using h
    exact .unpackPadding big

theorem exec_pkUnpack_effect {last : Bool} {pad byte : Byte} (h : exec (.pkUnpack last pad byte) s = .next t) :
    Effect s (.pkUnpack last pad byte) t := by
  cases error : unpackError last pad with
  | some e => rw [exec_pkUnpack_refused error] at h; cases h; exact .failed (.of_unpackError byte error)
  | none => rw [exec_pkUnpack_legal error] at h; cases h; exact .pkUnpack error

/-- Every command ends in one of the ways listed. -/
theorem exec_effect (h : exec i s = .next t) : Effect s i t := by
  cases i with
  | nop => cases h; exact .nop
  | softReset => cases h; exact .softReset
  | tbClear => cases h; exact .tbClear
  | tbInsert =>
    cases h
    exact .check (fun bad => .symbolOutOfRange (by simpa [symInRange] using bad)) fun range =>
      .check .insertBuilt fun unbuilt => .check .insertSeen fun fresh => .check .insertFull fun room =>
        .tbInsert (by simpa [symInRange] using range) unbuilt fresh room
  | tbMerge =>
    cases h
    exact .check .mergeUnready fun ready =>
      .tbMerge (not_not.1 (not_or.1 ready).1) (Nat.not_lt.1 (not_or.1 ready).2)
  | tbBuild => cases h; exact tbBuild_effect
  | tbPeek => cases h; exact .check .peekNotLoading fun loading => .tbPeek (not_not.1 loading)
  | tbReadNode => cases h; exact .check .readUnallocated fun allocated => .tbReadNode (Nat.not_le.1 allocated)
  | serEmit => exact execSerEmit_effect h
  | serParse => exact execSerParse_effect h
  | pkClear => cases h; exact .pkClear
  | pkBits =>
    cases h
    exact .check .bitsIllegal fun legal => .check .bitsClosed fun opened => .check .bitsFull fun fits =>
      .pkBits (Bool.not_eq_false _ ▸ legal) (Bool.not_eq_true _ ▸ opened) (Nat.not_lt.1 fits)
  | pkFlush =>
    cases h
    exact .check .flushClosed fun opened => .check .flushFull fun fits =>
      .pkFlush (Bool.not_eq_true _ ▸ opened) fun waiting full => fits ⟨waiting, full⟩
  | pkDrain => cases h; exact .pkDrain
  | pkUnpack => exact exec_pkUnpack_effect h

end

end Sys2Proof.Machine
end

section
/-! PROOFS. Every turn keeps the invariant of the machine (spec/10_state.md; 41_tree_builder.md). -/

namespace Sys2Proof.Machine

/-- A drained packer keeps its invariant: no byte is left that must have been written. -/
theorem Packer.Inv.drained {c : Config} {pk : Packer} {m : Memory} (h : pk.Inv c m) :
    Packer.Inv c { pk with nbytes := 0 } m :=
  { h with nbytes := Nat.zero_le _, packed := by simp }

section
variable {i : Instr} {s t : State}

/-- Every command keeps the invariant: its writes do, and its completion records a code that HUFB raises. -/
theorem exec_inv (h : s.Inv) (run : exec i s = .next t) : t.Inv := by
  have completed {u : State} (written : u.Inv) : (complete .noError u).Inv :=
    complete_inv _ ⟨nofun, nofun⟩ written
  have raised := (exec_ending run).err_raised
  cases exec_effect run with
  | failed => exact complete_inv _ raised h
  | corrupt => exact complete_inv _ raised (takeHeaderDraws_inv (setTree_inv _ (cleared_inv _) h))
  | nop => exact completed h
  | softReset => exact completed { resetRegisters_inv h with }
  | tbClear => exact completed (setTree_inv _ (cleared_inv _) h)
  | tbInsert range unbuilt fresh room =>
    have weight : implicitWeight s < 2 ^ s.cfg.lw := Nat.mod_lt _ (Nat.two_pow_pos _)
    exact completed (setResults_inv _ (setTree_inv _
      (insertLeaf_inv _ _ h.tree unbuilt range fresh (h.tree.leafBound.lt_of_ne room) weight) h))
  | tbMerge loading two =>
    exact completed (setResults_inv _ (setTree_inv _ (mergeStep_inv h.tree loading two h.maxLeaves_pos) h))
  | tbBuild loading =>
    exact completed (setResults_inv _ (setTree_inv _ (buildTree_spec h.tree loading h.maxLeaves_pos).1 h))
  | tbPeek | tbReadNode => exact completed (setResults_inv _ h)
  | serEmit => exact completed (emitHeader_inv _ h)
  | serParse _ parsed =>
    exact completed (takeHeaderDraws_inv (setResults_inv _
      (setTree_inv _ (parseHeader_inv _ _ _ h.maxLeaves_pos parsed) h)))
  | pkClear => exact completed (setPacker_inv _ (packer_cleared_inv _ _) h)
  | pkBits _ opened fits => exact completed (pushBits_inv _ _ opened fits h)
  | pkFlush _ fits => exact completed (flushStream_inv fits h)
  | pkDrain => exact completed (setPacker_inv _ h.packer.drained h)
  | pkUnpack => exact completed (setResult01_inv _ _ h)

end

/-- The operations still to perform are the host's own. -/
theorem State.Inv.withProg {s : State} (h : s.Inv) (prog : List HostOp) : State.Inv { s with prog := prog } :=
  { h with }

/-- What a host's turn can do: nothing, or one bus access with the operations still to perform a tail of those before
(30_encoding.md R126; log entry 14). -/
inductive HostEffect (s : State) : State → Prop
  | idle : HostEffect s s
  | read (off : Nat) {rest : List HostOp} (left : rest <:+ s.prog) : HostEffect s (busRead off { s with prog := rest })
  | write (off : Nat) (v : Word) {rest : List HostOp} (left : rest <:+ s.prog) :
      HostEffect s (busWrite off v { s with prog := rest })

theorem hostTurn_effect {s t : State} (h : hostTurn s = .next t) : HostEffect s t := by
  unfold hostTurn at h
  split at h
  next => cases h; exact .idle
  next prog =>
    split at h <;> cases h
    exact .read _ (prog ▸ List.suffix_cons _ _)
  next prog =>
    split at h <;> cases h
    exact .write _ _ (prog ▸ List.suffix_cons _ _)
  next prog =>
    split at h <;> cases h
    · exact .read _ (List.suffix_refl s.prog)
    · exact .read _ (prog ▸ List.suffix_cons _ _)

theorem hostTurn_inv {s t : State} (h : s.Inv) (turn : hostTurn s = .next t) : t.Inv := by
  cases hostTurn_effect turn with
  | idle => exact h
  | read off => exact busRead_inv off (h.withProg _)
  | write off v => exact busWrite_inv off v (h.withProg _)

/-- Settles O60, turn by turn: the engine's by `exec_inv`, the host's by `hostTurn_inv`, a reset by
`abandonWrites_inv`. -/
theorem stepKeepsInv : Obligations.StepKeepsInv := by
  unfold Obligations.StepKeepsInv
  intro s t inv h
  have taken := turnTaken_inv inv
  rcases nextTurn_cases s with engine | host | reset
  · cases busy : s.status.busy with
    | false => rw [step_of_engineNext_idle engine busy] at h; cases h; exact taken
    | true =>
      rcases step_of_engineNext_busy engine busy h with rfl | ⟨i, run⟩
      · exact complete_inv .illegalCommand ⟨nofun, nofun⟩ taken
      · exact exec_inv taken run
  · rw [step_of_hostNext host] at h
    exact hostTurn_inv taken h
  · rw [step_of_resetNext reset] at h
    cases h
    exact abandonWrites_inv taken

/-- Settles O59: the reset of the registers, with no byte listed in either buffer. -/
theorem invHoldsAtReset : Obligations.InvHoldsAtReset := by
  unfold Obligations.InvHoldsAtReset
  have key (c : Config) (legal : c.Legal) : (State.resetOf c).Inv :=
    { legal := legal
      tree := cleared_inv c
      packer := packer_cleared_inv c []
      hbufWf := ⟨.nil, nofun⟩
      hbufBound := nofun
      pbufWf := ⟨.nil, nofun⟩
      pbufBound := nofun
      wdata := Nat.two_pow_pos _
      errCode := ⟨nofun, nofun⟩
      busyDone := nofun
      latched := rfl }
  exact ⟨key, key _ (by decide)⟩

end Sys2Proof.Machine
end

section
/-! PROOFS. What follows from the ways a command can end: the table of error causes (spec/60_exceptions.md R250), the
units that each command leaves alone (10_state.md; 40_control.md to 43_bit_packer.md), the phases (41_tree_builder.md
R171) and that node entries never change (10_state.md R52). -/

namespace Sys2Proof.Machine

/-! ### Error causes -/

/-- A parse that fails read the header of no tree that fits (42_serializer.md R194, R203). -/
theorem no_tree_of_parseHeader_none {c : Config} (legal : c.Legal) {bytes : List Byte}
    (malformed : parseHeader c bytes = none) :
    ¬ ∃ T : HufTree, T.header c.sb = bytes ∧ (∀ x ∈ T.symbols, x < 2 ^ c.symW) ∧ T.leaves ≤ c.maxLeaves := by
  rintro ⟨T, rfl, symbols, leaves⟩
  obtain ⟨tb, parsed, -⟩ := parseHeader_header c T symbols (by unfold Config.sb; omega)
    (by unfold Config.nodeCap; omega)
  rw [malformed] at parsed
  cases parsed

/-- Settles O57: the causes are those of `ErrorCause`, and CORRUPT_HEADER's is a parse that fails. -/
theorem errorCausesAreTheTable : Obligations.ErrorCausesAreTheTable := by
  unfold Obligations.ErrorCausesAreTheTable
  refine ⟨by decide, fun i s t h => ?_⟩
  cases exec_effect h with
  | failed cause =>
    cases cause with
    | symbolOutOfRange range => exact .inl ⟨_, rfl, range⟩
    | insertBuilt built => exact .inl ⟨_, rfl, built⟩
    | insertSeen seen => exact ⟨_, rfl, seen⟩
    | insertFull full => exact .inl ⟨_, rfl, full⟩
    | mergeUnready unready => exact .inr (.inl ⟨rfl, unready⟩)
    | buildBuilt built => exact .inr (.inr (.inl ⟨rfl, built⟩))
    | buildEmpty empty => exact ⟨rfl, empty⟩
    | peekNotLoading other => exact .inr (.inr (.inr (.inl ⟨rfl, other⟩)))
    | readUnallocated above => exact .inr (.inr (.inr (.inr (.inl ⟨_, rfl, above⟩))))
    | emitUnbuilt unbuilt => exact .inr (.inr (.inr (.inr (.inr (.inl ⟨rfl, unbuilt⟩)))))
    | parseTooLong long => exact .inr (.inl ⟨rfl, long⟩)
    | bitsIllegal illegal =>
      rw [Bool.eq_false_iff, ne_eq, bitsLegal_iff] at illegal
      exact .inr (.inl ⟨_, _, rfl, by omega⟩)
    | bitsClosed closed => exact .inr (.inr (.inr (.inr (.inr (.inr (.inl ⟨_, _, rfl, closed⟩))))))
    | bitsFull full => exact .inr (.inr (.inl ⟨_, _, rfl, full⟩))
    | flushClosed closed => exact .inr (.inr (.inr (.inr (.inr (.inr (.inr ⟨rfl, closed⟩))))))
    | flushFull full => exact .inr (.inr (.inr ⟨rfl, full⟩))
    | unpackPad pad_ne => exact .inr (.inr ⟨_, _, rfl, pad_ne⟩)
    | unpackPadding big => exact ⟨_, _, rfl, big⟩
  | corrupt fits malformed =>
    exact ⟨rfl, fits, malformed, fun legal => no_tree_of_parseHeader_none legal malformed⟩
  | _ => trivial

/-! ### Frames -/

/-- Settles O58, by the writes of each way to end. -/
theorem commandsChangeOnlyTheirUnits : Obligations.CommandsChangeOnlyTheirUnits := by
  unfold Obligations.CommandsChangeOnlyTheirUnits
  intro i s t h
  cases exec_effect h with
  | failed => simp [failedWith]
  | corrupt => simp [corruptParse]
  | serEmit => simp [emitted, emitHeader]
  | serParse => simp [parsedTo]
  | pkBits => simp [pushBits]
  | pkFlush => simp [flushStream]
  | _ => simp

/-! ### Phases -/

/-- In EMPTY no handle is allocated (10_state.md R42). -/
theorem State.Inv.phase_ne_empty_of_lt {s : State} (inv : s.Inv) {h : Nat} (allocated : h < s.tb.nodes.length) :
    s.tb.phase ≠ .empty := by
  intro empty
  obtain ⟨-, -, nodes⟩ := inv.tree.empty empty
  simp [nodes] at allocated

/-- Settles O38: a failure keeps the phase, and each success writes the phase that its command's rule names. -/
theorem phaseTransitions : Obligations.PhaseTransitions := by
  unfold Obligations.PhaseTransitions
  intro i s t h
  cases exec_effect h with
  | failed cause => cases cause <;> simp [failedWith, completionStatus]
  | corrupt => exact .inr (.inl ⟨rfl, rfl⟩)
  | tbInsert range unbuilt => exact ⟨unbuilt, rfl⟩
  | tbMerge loading => exact ⟨rfl, fun _ => loading⟩
  | tbBuild loading => exact ⟨loading, rfl⟩
  | tbPeek loading => exact ⟨rfl, fun _ => loading⟩
  | tbReadNode allocated => exact ⟨rfl, fun inv _ => inv.phase_ne_empty_of_lt allocated⟩
  | serEmit built => exact ⟨rfl, fun _ => built⟩
  | serParse _ parsed => exact .inl ⟨rfl, parseHeader_phase parsed⟩
  | _ => rfl

/-! ### Node entries -/

theorem nodes_prefix_mergeAll (c : Config) (fuel : Nat) (tb : TreeBuilder) :
    tb.nodes <+: (mergeAll c fuel tb).nodes := by
  induction fuel generalizing tb with
  | zero => exact List.prefix_refl _
  | succ fuel ih =>
    unfold mergeAll
    split
    · exact (List.prefix_append _ _).trans (ih (mergeStep c tb))
    · exact List.prefix_refl _

/-- Every command but the three that free the store only appends to it (10_state.md R52). -/
theorem nodes_prefix_of_exec {i : Instr} {s t : State} (h : exec i s = .next t)
    (keeps : i ∉ [.tbClear, .softReset, .serParse]) : s.tb.nodes <+: t.tb.nodes := by
  cases exec_effect h with
  | tbInsert => exact List.prefix_append _ _
  | tbMerge => exact List.prefix_append _ _
  | tbBuild => exact nodes_prefix_mergeAll _ _ _
  | tbClear | softReset | serParse | corrupt => simp at keeps
  | _ => exact List.prefix_refl _

/-- No host operation touches the tree builder (20_memory.md R94). -/
theorem busWrite_tb (off : Nat) (v : Word) (s : State) : (busWrite off v s).tb = s.tb := by
  cases busWrite_effect off v s with
  | ignored same | dropped same | ctrl _ same | status _ same | cmd _ _ same | wdata _ same | hdrLen same
  | hbuf _ same => simp [same]

theorem hostTurn_tb {s t : State} (h : hostTurn s = .next t) : t.tb = s.tb := by
  cases hostTurn_effect h with
  | idle | read => rfl
  | write off v => exact busWrite_tb off v _

/-- Settles O39: `nodes_prefix_of_exec` for the engine's step, and the host touches no node. -/
theorem nodeEntriesNeverChange : Obligations.NodeEntriesNeverChange := by
  unfold Obligations.NodeEntriesNeverChange
  intro s t h
  rcases nextTurn_cases s with engine | host | reset
  · cases busy : s.status.busy with
    | false => rw [step_of_engineNext_idle engine busy] at h; cases h; exact .inl (List.prefix_refl _)
    | true =>
      cases decoded : decodeWord s.lcmd with
      | error e =>
        rw [step_of_decodeWord_error decoded engine busy] at h
        cases h
        exact .inl (List.prefix_refl _)
      | ok i =>
        rw [step_of_decodeWord_ok decoded engine busy] at h
        by_cases keeps : i ∉ [.tbClear, .softReset, .serParse]
        · exact .inl (nodes_prefix_of_exec (s := turnTaken s) h keeps)
        · exact .inr (.inr ⟨engine, rfl, by simpa using not_not.1 keeps⟩)
  · rw [step_of_hostNext host] at h
    exact .inl (hostTurn_tb h ▸ List.prefix_refl _)
  · exact .inr (.inl reset)

end Sys2Proof.Machine
end

section
/-! PROOFS. What TB_BUILD makes of the leaves (spec/00_scope.md R16 to R18; 41_tree_builder.md R160 to R170). -/

namespace Sys2Proof.Machine

/-! ### TB_MERGE before TB_BUILD -/

/-- The build loop's first merge may as well have been a TB_MERGE (41_tree_builder.md R162). -/
theorem buildTree_mergeStep {c : Config} {tb : TreeBuilder} (two : 2 ≤ tb.heap.length) :
    buildTree c (mergeStep c tb) = buildTree c tb := by
  obtain ⟨n, len⟩ : ∃ n, tb.heap.length = n + 1 := ⟨tb.heap.length - 1, by omega⟩
  have shorter : (mergeStep c tb).heap.length = n := by
    rw [mergeStep_heap_length c tb two]
    omega
  have first : mergeAll c (n + 1) tb = mergeAll c n (mergeStep c tb) := by rw [mergeAll, if_pos two]
  rw [buildTree, buildTree, len, shorter, first]

/-- Settles O35, by `buildTree_mergeStep`. -/
theorem mergeThenBuildIsBuild : Obligations.MergeThenBuildIsBuild := by
  unfold Obligations.MergeThenBuildIsBuild
  intro s loading two
  refine ⟨_, _, exec_tbMerge_two loading two, exec_tbBuild_loading loading, ?_⟩
  rw [exec_tbBuild_loading loading, buildTree_mergeStep two]
  rfl

/-! ### Sums over the trees at the roots -/

section
variable {c : Config} {nodes : List Node} {roots : List Nat} {leaves : Nat} {M : Type*} [AddCancelCommMonoid M]

/-- `f` gives every handle of the store the sum of `g` over the leaves below it. -/
def AddsLeaves (nodes : List Node) (g : Node → M) (f : Nat → M) : Prop :=
  ∀ (h : Nat) (n : Node), nodes[h]? = some n → f h = if n.leaf then g n else f n.left + f n.right

/-- The sum of `f` over all handles is that of `g` over the leaves and that of `f` over the children. -/
theorem sum_range_of_step {g : Node → M} {f : Nat → M} (ns : List Node) (k : Nat)
    (adds : ∀ (i : Nat) (n : Node), ns[i]? = some n → f (k + i) = if n.leaf then g n else f n.left + f n.right) :
    ((List.range ns.length).map (fun i => f (k + i))).sum
      = ((ns.filter (fun n => n.leaf)).map g).sum + ((childHandles ns).map f).sum := by
  induction ns generalizing k with
  | nil => simp [childHandles]
  | cons n ns ih =>
    have first : f k = if n.leaf then g n else f n.left + f n.right := adds 0 n rfl
    have rest := ih (k + 1) fun i m hm => by
      rw [Nat.add_right_comm, Nat.add_assoc]
      exact adds (i + 1) m hm
    have shift : (List.range (n :: ns).length).map (fun i => f (k + i))
        = f k :: (List.range ns.length).map (fun i => f (k + 1 + i)) := by
      rw [List.length_cons, List.range_succ_eq_map, List.map_cons, List.map_map]
      simp [Function.comp_def, Nat.add_assoc, Nat.add_comm 1]
    have children : childHandles (n :: ns) = (if n.leaf then [] else [n.left, n.right]) ++ childHandles ns := by
      simp [childHandles]
    rw [shift, List.sum_cons, rest, children, first]
    cases leaf : n.leaf with
    | true => simp [leaf, add_assoc]
    | false => simp [leaf, add_assoc, add_comm]

/-- The trees at the roots have the store's leaves, none shared and none left out (00_scope.md R17). -/
theorem Forest.sum_roots (forest : Forest c nodes roots leaves) {g : Node → M} {f : Nat → M}
    (adds : AddsLeaves nodes g f) : (roots.map f).sum = ((nodes.filter (fun n => n.leaf)).map g).sum := by
  have all := (forest.handles.map f).sum_eq
  have split := sum_range_of_step nodes 0 (f := f) (g := g) (by simpa [AddsLeaves] using adds)
  simp only [Nat.zero_add] at split
  rw [split, List.map_append, List.sum_append, add_comm] at all
  exact add_right_cancel all

end

/-! ### Leaf pairs, symbols and weights -/

theorem treeAt_internal {nodes : List Node} (below : ChildrenBelow nodes) {h : Nat} (hh : h < nodes.length)
    (internal : (nodeAt nodes h).leaf = false) :
    ∃ l r, treeAt nodes ((nodeAt nodes h).left + 1) (nodeAt nodes h).left = some l
      ∧ treeAt nodes ((nodeAt nodes h).right + 1) (nodeAt nodes h).right = some r
      ∧ treeAt nodes (h + 1) h = some (.node (nodeAt nodes h).weight l r) := by
  obtain ⟨ltL, ltR⟩ := below.at hh internal
  obtain ⟨l, left⟩ := treeAt_isSome below _ _ (ltL.trans hh) (Nat.lt_succ_self (nodeAt nodes h).left)
  obtain ⟨r, right⟩ := treeAt_isSome below _ _ (ltR.trans hh) (Nat.lt_succ_self (nodeAt nodes h).right)
  have left' := treeAt_mono _ h _ l ltL left
  have right' := treeAt_mono _ h _ r ltR right
  exact ⟨l, r, left, right, by simp [treeAt, internal, left', right']⟩

/-- The (symbol, weight) pairs of the labelled tree at a handle. -/
def leafPairsAt (nodes : List Node) (h : Nat) : Multiset (Nat × Nat) :=
  (treeAt nodes (h + 1) h).elim 0 (fun T => T.leafPairs)

/-- The pair of a leaf, as a multiset. -/
def leafPair (n : Node) : Multiset (Nat × Nat) := {(n.minsym, n.weight)}

theorem leafPairsAt_adds {nodes : List Node} (below : ChildrenBelow nodes) :
    AddsLeaves nodes leafPair (leafPairsAt nodes) := by
  intro h n found
  obtain ⟨hh, rfl⟩ := getElem?_nodeAt nodes h n found
  cases leaf : (nodeAt nodes h).leaf with
  | true => simp [leafPairsAt, leafPair, treeAt, leaf, HufTree.leafPairs]
  | false =>
    obtain ⟨l, r, left, right, tree⟩ := treeAt_internal below hh leaf
    simp [leafPairsAt, left, right, tree, HufTree.leafPairs]

theorem sum_leafPair (ns : List Node) :
    (ns.map leafPair).sum = (ns.map (fun n => (n.minsym, n.weight)) : Multiset (Nat × Nat)) := by
  induction ns with
  | nil => rfl
  | cons n ns ih => rw [List.map_cons, List.sum_cons, ih]; rfl

theorem symbols_eq_map_leafPairs (T : HufTree) : T.symbols = T.leafPairs.map Prod.fst := by
  induction T with
  | leaf s w => rfl
  | node w l r ihl ihr => rw [HufTree.symbols, HufTree.leafPairs, List.map_append, ihl, ihr]

section
variable {c : Config} {nodes : List Node} {roots : List Nat} {leaves r : Nat} {T : HufTree}

/-- The tree at the one root holds every leaf of the store once. -/
theorem Forest.leafPairs_perm (forest : Forest c nodes [r] leaves) (tree : treeAt nodes (r + 1) r = some T) :
    T.leafPairs.Perm ((nodes.filter (fun n => n.leaf)).map (fun n => (n.minsym, n.weight))) := by
  have sum := forest.sum_roots (leafPairsAt_adds forest.children)
  rw [sum_leafPair, List.map_singleton, List.sum_singleton, leafPairsAt, tree] at sum
  exact Multiset.coe_eq_coe.1 sum

/-- A labelled tree of the store has the node's weight and exact sums (00_scope.md R18). -/
theorem Forest.exact (forest : Forest c nodes roots leaves) {depth h : Nat} (hh : h < nodes.length)
    (tree : treeAt nodes depth h = some T) : T.weight = (nodeAt nodes h).weight ∧ T.Exact := by
  induction depth generalizing h T with
  | zero => cases tree
  | succ depth ih =>
    unfold treeAt at tree
    cases leaf : (nodeAt nodes h).leaf with
    | true =>
      simp only [leaf, if_true] at tree
      cases tree
      exact ⟨rfl, trivial⟩
    | false =>
      have entry : nodes[h]? = some (nodeAt nodes h) := by rw [nodeAt_eq nodes h hh]; exact List.getElem?_eq_getElem hh
      obtain ⟨ltL, ltR⟩ := forest.children h _ entry leaf
      obtain ⟨-, weight⟩ := forest.parents h _ entry leaf
      simp only [leaf, Bool.false_eq_true, if_false] at tree
      split at tree
      next l r left right =>
        cases tree
        obtain ⟨weightL, exactL⟩ := ih (ltL.trans hh) left
        obtain ⟨weightR, exactR⟩ := ih (ltR.trans hh) right
        exact ⟨rfl, by rw [weightL, weightR, weight], exactL, exactR⟩
      next => cases tree

end

/-! ### The build -/

section
variable {c : Config} {tb : TreeBuilder} (inv : tb.Inv c) (loading : tb.phase = .loading)
include inv loading

/-- The merges append internal nodes alone. -/
theorem filter_leaf_buildTree (pos : 0 < c.maxLeaves) :
    (buildTree c tb).nodes.filter (fun n => n.leaf) = tb.nodes.filter (fun n => n.leaf) := by
  obtain ⟨built, -, -, -, ⟨added, grown⟩, leafCount, -⟩ := buildTree_spec inv loading pos
  have count := built.leaves
  rw [leafCount, inv.leaves, ← grown, List.countP_append] at count
  have internal : added.filter (fun n => n.leaf) = [] := by
    rw [← List.length_eq_zero_iff, ← List.countP_eq_length_filter]
    omega
  rw [← grown, List.filter_append, internal, List.append_nil]

/-- SEEN lists the symbols of the leaves, each once (10_state.md R55). -/
theorem TreeBuilder.Inv.seen_perm :
    tb.seen.Perm ((tb.nodes.filter (fun n => n.leaf)).map (fun n => n.minsym)) := by
  have unbuilt : tb.phase ≠ .built := by simp [loading]
  have nodup : tb.seen.Nodup := inv.seenSorted.imp fun lt => lt.ne
  have sub : tb.seen ⊆ (tb.nodes.filter (fun n => n.leaf)).map (fun n => n.minsym) := fun x hx => by
    obtain ⟨n, mem, leaf, rfl⟩ := (inv.seenLeaves unbuilt x).1 hx
    exact List.mem_map_of_mem (List.mem_filter.2 ⟨mem, leaf⟩)
  refine (List.subperm_of_subset nodup sub).perm_of_length_le ?_
  rw [List.length_map, ← List.countP_eq_length_filter, ← inv.leaves, inv.seenCount unbuilt]

end

/-- Settles O36: the tree at the root holds the leaves of the store, which the merges do not change, and SEEN lists
their symbols. -/
theorem tbBuildKeepsEveryLeafOnce : Obligations.TbBuildKeepsEveryLeafOnce := by
  unfold Obligations.TbBuildKeepsEveryLeafOnce
  intro s inv loading
  have pos := inv.maxLeaves_pos
  obtain ⟨built, phase, -⟩ := buildTree_spec inv.tree loading pos
  obtain ⟨r, T, root, lt, tree, found, -⟩ := built.builtTree_some phase
  have forest := built.toForest
  obtain ⟨r', root', roots, -⟩ := built.roots_built phase
  obtain rfl : r = r' := Option.some.inj (root.symm.trans root')
  rw [roots] at forest
  have pairs := forest.leafPairs_perm tree
  rw [filter_leaf_buildTree inv.tree loading pos] at pairs
  have symbols : T.symbols.Perm s.tb.seen := by
    rw [symbols_eq_map_leafPairs]
    refine (pairs.map Prod.fst).trans (.trans (.of_eq ?_) (inv.tree.seen_perm loading).symm)
    rw [List.map_map]
    rfl
  obtain ⟨weight, exact⟩ := forest.exact lt tree
  refine ⟨_, T, exec_tbBuild_loading loading, found, pairs,
    symbols.nodup_iff.2 (inv.tree.seenSorted.imp fun lt => lt.ne), fun x => symbols.mem_iff, exact, ?_⟩
  rw [weight]
  exact (forest.widths _ (forest.root_mem (List.mem_singleton_self r))).2

end Sys2Proof.Machine
end

section
/-! PROOFS. SER_PARSE: which header bytes it accepts and what it leaves (spec/42_serializer.md R194 to R199). -/

namespace Sys2Proof.Machine

theorem exec_serParse_tooLong {s : State} (long : s.cfg.hbufSize < s.hdrLen.toNat) :
    exec .serParse s = .next (failedWith s .capacity) := by
  simp only [exec, execSerParse, if_pos long]
  rfl

theorem exec_serParse_malformed {s : State} (fits : s.hdrLen.toNat ≤ s.cfg.hbufSize)
    (malformed : parseHeader s.cfg (implicitHeader s s.hdrLen.toNat) = none) :
    exec .serParse s = .next (corruptParse s) := by
  simp only [exec, execSerParse, if_neg (Nat.not_lt.2 fits), malformed]
  rfl

/-- What a parse accepts is the header of a tree that fits (42_serializer.md R194, R203). -/
theorem tree_of_parseHeader {c : Config} (legal : c.Legal) {bytes : List Byte} {tb : TreeBuilder}
    (parsed : parseHeader c bytes = some tb) :
    ∃ T : HufTree, T.header c.sb = bytes ∧ (∀ x ∈ T.symbols, x < 2 ^ c.symW) ∧ T.leaves ≤ c.maxLeaves := by
  obtain ⟨-, -, ⟨two, -⟩, -⟩ := legal
  have inv := parseHeader_inv c bytes tb (by omega) parsed
  obtain ⟨-, T, -, -, -, found, leaves⟩ := inv.builtTree_some (parseHeader_phase parsed)
  obtain ⟨T', found', header, symbols⟩ := parseHeader_sound c bytes tb parsed
  obtain rfl : T = T' := Option.some.inj (found.symm.trans found')
  exact ⟨T, header, symbols, leaves.trans_le inv.leafBound⟩

/-- A header byte that has been written is itself, no draw (10_state.md R61). -/
theorem implicitHeader_getElem? {s : State} {len j : Nat} {b : Byte} (hj : j < len)
    (written : Memory.read s.hbuf j = some b) : (implicitHeader s len)[j]? = some b := by
  simp [implicitHeader, byteOrDraw, hj, written]

/-- Settles O42: `parseHeader_header` accepts every header that fits, and `tree_of_parseHeader` says that nothing else
is accepted. -/
theorem serParseAcceptsExactlyHeaders : Obligations.SerParseAcceptsExactlyHeaders := by
  unfold Obligations.SerParseAcceptsExactlyHeaders
  refine ⟨by decide, fun s => ⟨exec_serParse_tooLong, implicitHeader_length s _, fun j b => implicitHeader_getElem?,
    fun legal fits => ⟨fun T header symbols leaves => ?_, fun noTree => ⟨s.draws + s.hdrLen.toNat, ?_⟩⟩⟩⟩
  · obtain ⟨tb, parsed, tree, leafCount, nodes, root, phase, heap, seen, zero⟩ :=
      parseHeader_header s.cfg T symbols (by unfold Config.sb; omega) (by unfold Config.nodeCap; omega)
    rw [header] at parsed
    refine ⟨tb, 2 * T.leaves - 2, s.draws + s.hdrLen.toNat, ?_, phase, root, rfl, leafCount, nodes, heap, seen, tree,
      zero⟩
    rw [exec_serParse_header fits parsed, parsedTo, root]
    rfl
  · have malformed : parseHeader s.cfg (implicitHeader s s.hdrLen.toNat) = none :=
      Option.eq_none_iff_forall_ne_some.2 fun tb parsed => noTree (tree_of_parseHeader legal parsed)
    rw [exec_serParse_malformed fits malformed]
    rfl

end Sys2Proof.Machine
end

section
/-! PROOFS. Which command a step runs (spec/40_control.md R141) and which operation a host's turn performs, and what a
host's turn leaves alone, BUSY or not (20_memory.md R92 to R98). -/

namespace Sys2Proof.Machine

/-! ### The engine's step -/

theorem decodeWord_of_decodeTableWord {nbits w : Nat} {i : Instr} (h : decodeTableWord nbits w = some i) :
    decodeWord (BitVec.ofNat 32 (w % 2 ^ nbits)) = .ok i := by
  unfold decodeTableWord at h
  cases decoded : decodeWord (BitVec.ofNat 32 (w % 2 ^ nbits)) with
  | error e => rw [decoded] at h; cases h
  | ok j => rw [decoded] at h; cases h; rfl

/-- Settles O7: the engine's turn, listed first by `withFetchWord`. -/
theorem stepRunsTheDecodedCommand : Obligations.StepRunsTheDecodedCommand := by
  unfold Obligations.StepRunsTheDecodedCommand
  refine ⟨fun s i engine busy decoded => step_of_decodeWord_ok decoded engine busy, fun s nbits w i h => ?_⟩
  have engine : engineNext (s.withFetchWord nbits w) := .inl rfl
  exact step_of_decodeWord_ok (decodeWord_of_decodeTableWord h) engine rfl

/-! ### The host's turn -/

section
variable {s : State} (host : hostNext s)
include host

theorem step_of_hostNext_idle (done : s.prog = []) : step s = .next (turnTaken s) := by
  rw [step_of_hostNext host]
  simp [hostTurn, turnTaken, done]

theorem step_of_hostNext_read {addr size off : Nat} {rest : List HostOp} (next : s.prog = .read addr size :: rest)
    (place : accessOffset s.cfg addr size = .ok off) :
    step s = .next (busRead off { turnTaken s with prog := rest }) := by
  rw [step_of_hostNext host]
  simp [hostTurn, turnTaken, next, place]

theorem step_of_hostNext_write {addr size off : Nat} {v : Word} {rest : List HostOp}
    (next : s.prog = .write addr size v :: rest) (place : accessOffset s.cfg addr size = .ok off) :
    step s = .next (busWrite off v { turnTaken s with prog := rest }) := by
  rw [step_of_hostNext host]
  simp [hostTurn, turnTaken, next, place]

theorem step_of_hostNext_poll {rest : List HostOp} (next : s.prog = .poll :: rest) :
    step s = .next (busRead 0x010 { turnTaken s with prog := if s.status.busy then s.prog else rest }) := by
  rw [step_of_hostNext host]
  cases busy : s.status.busy <;> simp [hostTurn, turnTaken, next, busy, Reg.offset]

end

/-- Settles O8: the cases of the host's turn, an aligned address of the register space having its offset. -/
theorem stepPerformsTheHostOperation : Obligations.StepPerformsTheHostOperation := by
  unfold Obligations.StepPerformsTheHostOperation
  intro s host
  refine ⟨step_of_hostNext_idle host, fun addr lo hi aligned => ?_, fun rest => step_of_hostNext_poll host⟩
  have place := accessOffset_word s.cfg addr lo hi aligned
  exact ⟨fun rest next => step_of_hostNext_read host next place,
    fun v rest next => step_of_hostNext_write host next place⟩

/-! ### What a host's turn leaves alone -/

/-- While BUSY = 1 the writes of CMD, WDATA and HDR_LEN are dropped (20_memory.md R98 (a)). -/
theorem writeReg_busy_dropped {s : State} (busy : s.status.busy = true) {r : Reg}
    (place : r = .cmd ∨ r = .wdata ∨ r = .hdrLen) (v : Word) : writeReg r v s = dropWrite s := by
  rcases place with rfl | rfl | rfl <;> rw [writeReg, unlessBusy_busy busy]

/-- While BUSY = 1 a write changes at most CTRL, DONE and OVR (20_memory.md R98). -/
theorem busWrite_busy {s : State} (busy : s.status.busy = true) (off : Nat) (v : Word) :
    ∃ ie done ovr, busWrite off v s = { s with ie := ie, status := { s.status with done := done, ovr := ovr } } := by
  unfold busWrite
  split
  next r _ =>
    cases r with
    | ctrl => exact ⟨v.getLsbD 0, s.status.done, s.status.ovr, rfl⟩
    | status => exact ⟨s.ie, _, _, rfl⟩
    | cmd | wdata | hdrLen => exact ⟨s.ie, s.status.done, true, writeReg_busy_dropped busy (by simp) v⟩
    | _ => exact ⟨s.ie, s.status.done, s.status.ovr, rfl⟩
  next => exact ⟨s.ie, s.status.done, s.status.ovr, rfl⟩
  next => exact ⟨s.ie, s.status.done, true, unlessBusy_busy busy _⟩
  next => exact ⟨s.ie, s.status.done, s.status.ovr, rfl⟩
  next => exact ⟨s.ie, s.status.done, s.status.ovr, rfl⟩

/-- A write leaves PBUF, the results and the host's side as they were. -/
theorem busWrite_frame (off : Nat) (v : Word) (s : State) :
    (busWrite off v s).pbuf = s.pbuf ∧ (busWrite off v s).result = s.result
    ∧ (busWrite off v s).prog = s.prog ∧ (busWrite off v s).sched = s.sched := by
  cases busWrite_effect off v s with
  | ignored same | dropped same | ctrl _ same | status _ same | cmd _ _ same | wdata _ same | hdrLen same
  | hbuf _ same => simp [same]

section
variable {s t : State} (turn : hostTurn s = .next t)
include turn

theorem hostTurn_units : t.pbuf = s.pbuf ∧ t.result = s.result := by
  cases hostTurn_effect turn with
  | idle | read => exact ⟨rfl, rfl⟩
  | write off v =>
    obtain ⟨pbuf, result, -⟩ := busWrite_frame off v { s with prog := _ }
    exact ⟨pbuf, result⟩

/-- The running command keeps BUSY and its operands (30_encoding.md R123). -/
theorem hostTurn_operands (busy : s.status.busy = true) :
    t.status.busy = true ∧ t.lcmd = s.lcmd ∧ t.cmd = s.cmd ∧ t.wdata = s.wdata ∧ t.hdrLen = s.hdrLen
    ∧ t.hbuf = s.hbuf := by
  cases hostTurn_effect turn with
  | idle | read => exact ⟨busy, rfl, rfl, rfl, rfl, rfl⟩
  | @write off v rest =>
    obtain ⟨ie, done, ovr, same⟩ := busWrite_busy (s := { s with prog := rest }) busy off v
    rw [same]
    exact ⟨busy, rfl, rfl, rfl, rfl, rfl⟩

/-- The turns left are those that were left, and the operations left a tail of those that were. -/
theorem hostTurn_hostSide : t.sched = s.sched ∧ t.prog <:+ s.prog := by
  cases hostTurn_effect turn with
  | idle => exact ⟨rfl, List.suffix_refl _⟩
  | read off left => exact ⟨rfl, left⟩
  | @write off v rest left =>
    obtain ⟨-, -, prog, sched⟩ := busWrite_frame off v { s with prog := rest }
    exact ⟨sched, prog ▸ left⟩

end

/-- Settles O23, by the frame of a host's turn. -/
theorem hostAccessesTouchNoUnit : Obligations.HostAccessesTouchNoUnit := by
  unfold Obligations.HostAccessesTouchNoUnit
  intro s t host h
  rw [step_of_hostNext host] at h
  obtain ⟨pbuf, result⟩ := hostTurn_units h
  exact ⟨⟨hostTurn_cfg (s := turnTaken s) h, hostTurn_tb (s := turnTaken s) h, hostTurn_pk (s := turnTaken s) h, pbuf,
    result, hostTurn_err (s := turnTaken s) h⟩, hostTurn_operands (s := turnTaken s) h⟩

/-! ### An accepted command completes -/

theorem hostTurn_next {s : State} (legal : ∀ op ∈ s.prog, op.legal s.cfg) : ∃ t, hostTurn s = .next t := by
  unfold hostTurn
  split
  next => exact ⟨_, rfl⟩
  next addr size rest prog =>
    obtain ⟨off, place⟩ := legal (.read addr size) (by simp [prog])
    exact ⟨_, by rw [place]⟩
  next addr size v rest prog =>
    obtain ⟨off, place⟩ := legal (.write addr size v) (by simp [prog])
    exact ⟨_, by rw [place]⟩
  next => split <;> exact ⟨_, rfl⟩

theorem step_of_engineNext_sched {s t : State} (engine : engineNext s) (busy : s.status.busy = true)
    (h : step s = .next t) : t.sched = s.sched.tail := by
  rcases step_of_engineNext_busy engine busy h with rfl | ⟨i, run⟩
  · rfl
  · obtain ⟨⟨-, -, -, sched, -⟩, -⟩ := commandsChangeOnlyTheirUnits i (turnTaken s) t run
    exact sched

theorem run_succ {M : Host.Core} {s t : M.State} (h : M.step s = .next t) (n : Nat) : M.run (n + 1) s = M.run n t := by
  rw [Host.Core.run, h]

/-- Settles O11, by induction on the host's turns: each keeps the invariant, BUSY and the legality of the operations
left. -/
theorem acceptedCommandsCompleteAfterHostSteps : Obligations.AcceptedCommandsCompleteAfterHostSteps := by
  unfold Obligations.AcceptedCommandsCompleteAfterHostSteps
  intro s n rest inv busy sched legal
  induction n generalizing s with
  | zero =>
    have engine : engineNext s := .inl (by rw [sched]; rfl)
    obtain ⟨t, h, idle, done⟩ := step_completes inv engine busy
    refine ⟨t, run_succ (M := core) h 0, ?_, idle, done⟩
    rw [step_of_engineNext_sched engine busy h, sched]
    rfl
  | succ n ih =>
    have host : hostNext s := .inl (by rw [sched]; rfl)
    obtain ⟨u, turn⟩ := hostTurn_next (s := turnTaken s) legal
    obtain ⟨sched', prog⟩ := hostTurn_hostSide turn
    obtain ⟨t, ends, after⟩ := ih u (hostTurn_inv (turnTaken_inv inv) turn) (hostTurn_operands turn busy).1
      (by rw [sched', turnTaken, sched]; rfl)
      fun op hop => (hostTurn_cfg turn).symm ▸ legal op (prog.subset hop)
    exact ⟨t, (run_succ (M := core) ((step_of_hostNext host).trans turn) (n + 1)).trans ends, after⟩

end Sys2Proof.Machine
end

section
/-! PROOFS. Accesses by their offset (spec/20_memory.md R82 to R88, R98): which register an offset names, what a window
word reads and writes, and which accesses differ while BUSY = 1. -/

namespace Sys2Proof.Machine

/-! ### Registers and windows by offset -/

theorem exists_reg_of_offset {off : Nat} (aligned : off % 4 = 0) (hi : off ≤ 0x050) : ∃ r : Reg, r.offset = off := by
  have listed : ∀ k : Fin 21, (regList[k.val]'k.isLt).offset = 4 * k.val := by decide
  exact ⟨_, (listed ⟨off / 4, by omega⟩).trans (by dsimp only; omega)⟩

/-- The registers of 20_memory.md R98 (b) are those from RESULT0's offset on. -/
theorem unspecifiedWhileBusy_eq (r : Reg) : r.unspecifiedWhileBusy = decide (0x01C ≤ r.offset) := by
  cases r <;> rfl

theorem target_hbufWindow {off : Nat} (lo : 0x1000 ≤ off) (hi : off < 0x2000) :
    target off = .hbufWindow (off - 0x1000) := by
  simp [target, hi, Nat.not_lt.2 lo]

theorem target_pbufWindow {off : Nat} (lo : 0x2000 ≤ off) (hi : off < 0x3000) :
    target off = .pbufWindow (off - 0x2000) := by
  have above : ¬ off < 0x1000 := by omega
  simp [target, above, hi, Nat.not_lt.2 lo]

theorem busWrite_hbufWindow {off : Nat} (lo : 0x1000 ≤ off) (hi : off < 0x2000) (v : Word) (s : State) :
    busWrite off v s = unlessBusy (fun t =>
      { t with hbuf := Memory.writeBytes t.cfg.hbufSize t.hbuf (off - 0x1000) (wordBytes v) }) s := by
  simp only [busWrite, target_hbufWindow lo hi]

theorem busWrite_pbufWindow {off : Nat} (lo : 0x2000 ≤ off) (hi : off < 0x3000) (v : Word) (s : State) :
    busWrite off v s = s := by
  simp only [busWrite, target_pbufWindow lo hi]

/-! ### Read-only registers -/

theorem writeReg_readOnly {r : Reg} (v : Word) (s : State)
    (readOnly : r.offset ≤ 0x008 ∨ (0x01C ≤ r.offset ∧ r.offset ≤ 0x040) ∨ 0x048 ≤ r.offset) : writeReg r v s = s := by
  cases r with
  | ctrl | status | cmd | wdata | hdrLen => simp [Reg.offset] at readOnly
  | _ => rfl

/-- Settles O17: `writeReg_readOnly` for the registers, and the PBUF window ignores writes. -/
theorem readOnlyWritesAreIgnored : Obligations.ReadOnlyWritesAreIgnored := by
  unfold Obligations.ReadOnlyWritesAreIgnored
  intro s off v aligned range
  rcases Nat.lt_or_ge 0x050 off with above | register
  · exact busWrite_pbufWindow (by omega) (by omega) v s
  · obtain ⟨r, rfl⟩ := exists_reg_of_offset aligned register
    rw [busWrite_offset]
    exact writeReg_readOnly v s (by omega)

/-! ### Accesses while BUSY = 1 -/

section
variable {s : State} {off : Nat} (busy : s.status.busy = true)
include busy

/-- A read that 20_memory.md R98 (b) leaves unspecified is a draw. -/
theorem busValue_busy_draw (aligned : off % 4 = 0)
    (range : (0x01C ≤ off ∧ off ≤ 0x050) ∨ (0x1000 ≤ off ∧ off ≤ 0x2FFC)) :
    busValue s off = Config.freeWord s.draws := by
  rcases range with ⟨lo, hi⟩ | ⟨lo, hi⟩
  · obtain ⟨r, rfl⟩ := exists_reg_of_offset aligned hi
    simp [busValue_offset, busy, unspecifiedWhileBusy_eq, lo]
  · rcases Nat.lt_or_ge off 0x2000 with hbuf | pbuf
    · simp [busValue, target_hbufWindow lo hbuf, busy]
    · simp [busValue, target_pbufWindow pbuf (by omega), busy]

theorem busWrite_busy_dropped
    (range : off = 0x014 ∨ off = 0x018 ∨ off = 0x044 ∨ (0x1000 ≤ off ∧ off ≤ 0x1FFC)) (v : Word) :
    busWrite off v s = dropWrite s := by
  rcases range with rfl | rfl | rfl | ⟨lo, hi⟩
  · exact (busWrite_offset .cmd v s).trans (writeReg_busy_dropped busy (.inl rfl) v)
  · exact (busWrite_offset .wdata v s).trans (writeReg_busy_dropped busy (.inr (.inl rfl)) v)
  · exact (busWrite_offset .hdrLen v s).trans (writeReg_busy_dropped busy (.inr (.inr rfl)) v)
  · rw [busWrite_hbufWindow lo (by omega), unlessBusy_busy busy]

end

/-- Every register but STATUS reads the same whatever STATUS is. -/
theorem regWord_status {r : Reg} (other : r ≠ .status) (s : State) (st : Status) :
    regWord { s with status := st } r = regWord s r := by
  cases r with
  | status => exact absurd rfl other
  | _ => rfl

/-- The reads that are as when BUSY = 0 (20_memory.md R98 (c)). -/
theorem busValue_anyStatus {off : Nat} (aligned : off % 4 = 0) (s : State) (st : Status)
    (range : off ≤ 0x00C ∨ off = 0x014 ∨ off = 0x018 ∨ (0x054 ≤ off ∧ off ≤ 0x0FFC) ∨ 0x3000 ≤ off) :
    busValue s off = busValue { s with status := st } off := by
  rcases Nat.lt_or_ge 0x050 off with above | register
  · rcases Nat.lt_or_ge off 0x1000 with reserved | unmapped
    · simp [busValue, target_reserved (show 0x054 ≤ off by omega) reserved]
    · simp [busValue, target_unmapped (show 0x3000 ≤ off by omega)]
  · obtain ⟨r, rfl⟩ := exists_reg_of_offset aligned register
    have specified : r.unspecifiedWhileBusy = false := by
      rw [unspecifiedWhileBusy_eq, decide_eq_false_iff_not]
      omega
    have other : r ≠ .status := by
      rintro rfl
      simp [Reg.offset] at range
    rw [busValue_specified _ r specified, busValue_specified _ r specified]
    exact (regWord_status other s st).symm

/-- Settles O13, clause by clause of 20_memory.md R98. -/
theorem accessesWhileBusy : Obligations.AccessesWhileBusy := by
  unfold Obligations.AccessesWhileBusy
  intro s off busy aligned
  refine ⟨busWrite_busy_dropped busy, fun range => ⟨?_, by simp⟩, fun range => ?_, busValue_specified s .status rfl,
    fun v => busWrite_offset .ctrl v s, fun v => busWrite_offset .status v s, fun range v => ?_⟩
  · rw [← busValue_busy_draw busy aligned range]
    rfl
  · exact busValue_anyStatus aligned s _ (by omega)
  · obtain ⟨-, ignored⟩ := reservedOffsetsReadZero s off range aligned
    exact ignored v

/-! ### Window words -/

section
variable {size j draw k : Nat} {m : Memory} {b : Byte}

theorem windowByte_eq (below : j < size → Memory.read m j = some b) (above : size ≤ j → b = 0#8) :
    windowByte size m j draw = b := by
  rcases Nat.lt_or_ge j size with inside | outside
  · exact windowByte_written size m j draw b inside (below inside)
  · rw [windowByte_above size m j draw outside, above outside]

end

/-- The word of four bytes that are all written or above the buffer's size, big-endian (20_memory.md R85). -/
theorem windowWord_eq {size j draw : Nat} {m : Memory} (b : Nat → Byte)
    (below : ∀ k, k < 4 → j + k < size → Memory.read m (j + k) = some (b k))
    (above : ∀ k, k < 4 → size ≤ j + k → b k = 0#8) :
    windowWord size m j draw = b 0 ++ b 1 ++ b 2 ++ b 3 := by
  have byte (k : Nat) (hk : k < 4) (d : Nat) : windowByte size m (j + k) d = b k :=
    windowByte_eq (below k hk) (above k hk)
  have first : windowByte size m j draw = b 0 := byte 0 (by decide) draw
  rw [windowWord, first, byte 1 (by decide), byte 2 (by decide), byte 3 (by decide)]

/-- Byte `k` of a window word, whatever the other bytes are: written, unwritten, or above the buffer's size. -/
theorem windowWord_byte (size : Nat) (m : Memory) (j draw : Nat) {k : Nat} (hk : k < 4) :
    (∀ b, j + k < size → Memory.read m (j + k) = some b →
      (windowWord size m j draw).extractLsb' (24 - 8 * k) 8 = b)
    ∧ (j + k < size → Memory.read m (j + k) = none →
      (windowWord size m j draw).extractLsb' (24 - 8 * k) 8 = Config.freeByte (draw + k))
    ∧ (size ≤ j + k → (windowWord size m j draw).extractLsb' (24 - 8 * k) 8 = 0#8) := by
  rw [windowWord_extract size m j draw k hk]
  exact ⟨fun b => windowByte_written size m (j + k) (draw + k) b, windowByte_unwritten size m (j + k) (draw + k),
    windowByte_above size m (j + k) (draw + k)⟩

theorem wordBytes_getElem? (v : Word) {k : Nat} (hk : k < 4) :
    (wordBytes v)[k]? = some (v.extractLsb' (24 - 8 * k) 8) := by
  match k, hk with
  | 0, _ | 1, _ | 2, _ | 3, _ => rfl

/-- Settles O20: a word of the window is `windowWord`, and a write stores the four bytes of the word below HBUF_SIZE. -/
theorem hbufWindowWords : Obligations.HbufWindowWords := by
  unfold Obligations.HbufWindowWords
  intro s i hi
  have place : 0x1000 + 4 * i - 0x1000 = 4 * i := Nat.add_sub_cancel_left ..
  have read (idle : s.status.busy = false) :
      busValue s (0x1000 + 4 * i) = windowWord s.cfg.hbufSize s.hbuf (4 * i) s.draws := by
    simp [busValue, target_hbufWindow (Nat.le_add_right ..) (show 0x1000 + 4 * i < 0x2000 by omega), idle]
  refine ⟨fun b idle below above => ?_, fun k hk idle => ?_, fun v => ⟨fun busy => ?_, fun idle => ?_⟩⟩
  · rw [read idle]
    exact windowWord_eq b below above
  · obtain ⟨written, unwritten, outside⟩ := windowWord_byte s.cfg.hbufSize s.hbuf (4 * i) s.draws hk
    rw [read idle, busRead_draws]
    exact ⟨written, fun inside fresh => ⟨unwritten inside fresh, by omega⟩, outside⟩
  · exact busWrite_busy_dropped busy (by omega) v
  · have write := busWrite_hbufWindow (Nat.le_add_right 0x1000 (4 * i)) (by omega) v s
    rw [unlessBusy_idle idle, place] at write
    rw [write]
    refine ⟨rfl, fun k hk inside => ?_, fun a outside => ?_⟩
    · dsimp only
      rw [read_writeBytes, if_pos ⟨by omega, by simp [wordBytes]; omega, inside⟩, Nat.add_sub_cancel_left,
        wordBytes_getElem? v hk]
    · dsimp only
      rw [read_writeBytes, if_neg (by simp [wordBytes]; omega)]

/-- Settles O21: a word of the window is `windowWord`, and a write is ignored. -/
theorem pbufWindowWords : Obligations.PbufWindowWords := by
  unfold Obligations.PbufWindowWords
  intro s i hi
  have inside : 0x2000 + 4 * i < 0x3000 := by omega
  have read (idle : s.status.busy = false) :
      busValue s (0x2000 + 4 * i) = windowWord s.cfg.pbufSize s.pbuf (4 * i) s.draws := by
    simp [busValue, target_pbufWindow (Nat.le_add_right ..) inside, idle]
  refine ⟨fun b idle below above => ?_, fun k hk idle => ?_,
    fun v => busWrite_pbufWindow (Nat.le_add_right ..) inside v s⟩
  · rw [read idle]
    exact windowWord_eq b below above
  · obtain ⟨written, unwritten, outside⟩ := windowWord_byte s.cfg.pbufSize s.pbuf (4 * i) s.draws hk
    rw [read idle, busRead_draws]
    exact ⟨written, fun inside fresh => ⟨unwritten inside fresh, by omega⟩, outside⟩

end Sys2Proof.Machine
end

section
/-! PROOFS. The reset input (spec/70_reset_and_hazards.md R280, R281). -/

namespace Sys2Proof.Machine

theorem abandonWrites_idle {s : State} (idle : s.status.busy = false) : abandonWrites s = s := by
  simp [abandonWrites, idle]

/-- What a reset makes unknown lies in the buffers: every register and the host's side is as without it. -/
theorem hardReset_eq (s : State) :
    hardReset s = { State.resetOf s.cfg with
      hbuf := (hardReset s).hbuf, pbuf := (hardReset s).pbuf, prog := s.prog, sched := s.sched, reads := s.reads,
      draws := s.draws } := by
  rcases abandonWrites_cases s with h | h | h <;> simp [hardReset, h, resetRegisters]

theorem turnTaken_sched {s : State} {turn : Turn} {rest : List Turn} (sched : s.sched = turn :: rest) :
    (turnTaken s).sched = rest := by
  rw [turnTaken, sched]
  rfl

/-- Settles O25: the reset values of `resetRegisters`, and with no command latched no byte is forgotten. -/
theorem resetValues : Obligations.ResetValues := by
  unfold Obligations.ResetValues
  refine ⟨fun s rest sched => ?_, fun c => rfl⟩
  have reset : s.sched.head? = some .reset := by rw [sched]; rfl
  refine ⟨_, step_of_resetNext reset, ?_, fun idle => ?_⟩
  · refine (hardReset_eq (turnTaken s)).trans ?_
    rw [turnTaken_sched sched]
    rfl
  · rw [hardReset, abandonWrites_idle (s := turnTaken s) idle]
    exact ⟨rfl, rfl⟩

section
variable {s : State} (busy : s.status.busy = true)
include busy

theorem abandonWrites_serEmit (decoded : decodeWord s.lcmd = .ok .serEmit) :
    abandonWrites s = { s with hbuf := Memory.forget s.hbuf 0 s.cfg.hbufSize } := by
  rw [abandonWrites, if_pos busy, decoded]

theorem abandonWrites_packing
    (decoded : (∃ n d, decodeWord s.lcmd = .ok (.pkBits n d)) ∨ decodeWord s.lcmd = .ok .pkFlush) :
    abandonWrites s = { s with pbuf := Memory.forget s.pbuf s.pk.nbytes 3 } := by
  rcases decoded with ⟨n, d, decoded⟩ | decoded <;> rw [abandonWrites, if_pos busy, decoded]

theorem abandonWrites_other (emit : decodeWord s.lcmd ≠ .ok .serEmit)
    (packing : ¬ ((∃ n d, decodeWord s.lcmd = .ok (.pkBits n d)) ∨ decodeWord s.lcmd = .ok .pkFlush)) :
    abandonWrites s = s := by
  rw [abandonWrites, if_pos busy]
  cases decoded : decodeWord s.lcmd with
  | error => rfl
  | ok i =>
    cases i with
    | serEmit => exact absurd decoded emit
    | pkBits n d => exact absurd (.inl ⟨n, d, decoded⟩) packing
    | pkFlush => exact absurd (.inr decoded) packing
    | _ => rfl

/-- The bytes that a reset makes unknown are HBUF's for a latched SER_EMIT, and the three of PBUF from PK_NBYTES on for
a latched PK_BITS or PK_FLUSH (70_reset_and_hazards.md R281). -/
theorem read_abandonWrites (a : Nat) :
    (Memory.read (abandonWrites s).hbuf a =
      if decodeWord s.lcmd = .ok .serEmit ∧ a < s.cfg.hbufSize then none else Memory.read s.hbuf a)
    ∧ Memory.read (abandonWrites s).pbuf a =
      if ((∃ n d, decodeWord s.lcmd = .ok (.pkBits n d)) ∨ decodeWord s.lcmd = .ok .pkFlush)
          ∧ s.pk.nbytes ≤ a ∧ a ≤ s.pk.nbytes + 2
      then none else Memory.read s.pbuf a := by
  have range : (s.pk.nbytes ≤ a ∧ a < s.pk.nbytes + 3) ↔ (s.pk.nbytes ≤ a ∧ a ≤ s.pk.nbytes + 2) := by omega
  by_cases emit : decodeWord s.lcmd = .ok .serEmit
  · rw [abandonWrites_serEmit busy emit, emit]
    simp [read_forget]
  · by_cases packing : (∃ n d, decodeWord s.lcmd = .ok (.pkBits n d)) ∨ decodeWord s.lcmd = .ok .pkFlush
    · rw [abandonWrites_packing busy packing, if_neg fun h => emit h.1]
      simp only [read_forget, range, packing, true_and]
    · rw [abandonWrites_other busy emit packing, if_neg fun h => emit h.1, if_neg fun h => packing h.1]
      exact ⟨rfl, rfl⟩

end

/-- Settles O26: the registers by `hardReset_eq`, the bytes by what `abandonWrites` forgets. -/
theorem resetWhileBusyAbandonsTheCommand : Obligations.ResetWhileBusyAbandonsTheCommand := by
  unfold Obligations.ResetWhileBusyAbandonsTheCommand
  intro s rest sched busy
  have reset : s.sched.head? = some .reset := by rw [sched]; rfl
  have bytes (a : Nat) := read_abandonWrites (s := turnTaken s) busy a
  refine ⟨_, step_of_resetNext reset, ?_, fun a => (bytes a).1, fun a => (bytes a).2⟩
  refine (hardReset_eq (turnTaken s)).trans ?_
  rw [turnTaken_sched sched]
  rfl

end Sys2Proof.Machine
end
